-- ==== Sys2Proof/Word.lean ====
section
/-! DEFINITION. The two word types of the SBT: bytes on the serial bus and in memory, and 32-bit registers and addresses
(spec/00_scope.md R8). -/

namespace Sys2Proof

/-- One byte of the serial bus or of system memory. -/
abbrev Byte := BitVec 8

/-- A 32-bit register, CMD word or byte address. -/
abbrev Word := BitVec 32

end Sys2Proof
end

