-- ==== Sys2Proof/Config.lean ====
section
/-! DEFINITION. What an implementation fixes (spec/00_scope.md R7): the constants the spec states, the type of the OPEN parameters, and
the two opaque constants of the model: the parameters of the machine after reset and the card oracle. Nothing can be proved of either. -/

namespace Sys2Proof

/-- CLOCK_BYTE, the all-ones byte of every clock-only exchange (00_scope.md R7, D8). -/
def clockByte : Byte := 0xFF

/-- RESP_OK, the response byte of an accepted command (00_scope.md R7, 30_encoding.md R98). -/
def respOk : Byte := 0x00

/-- DR_MASK, the low nibble of a data-response token (00_scope.md R7, 30_encoding.md R101). -/
def drMask : Byte := 0x0F

/-- SECTOR_SIZE in bytes, as the 16-bit count a session loads into a channel (00_scope.md R7, R11). -/
def sectorSize : BitVec 16 := 512

/-- SECTOR_SHIFT: 512 = 2^9 (00_scope.md R7). -/
def sectorShift : Nat := 9

/-- A range of system memory addresses, both ends included. -/
structure Region where
  first : Word
  last  : Word
  deriving DecidableEq, Repr, Inhabited

/-- The OPEN parameters of 00_scope.md R7. No step changes them (notes/assumptions/4.md). `admitted` lists the ranges on which
MemAdmits holds (notes/assumptions/7.md). -/
structure Params where
  cmdWriteBlock   : Byte
  cmdReadBlock    : Byte
  startToken      : Byte
  drAccept        : BitVec 4
  cmdTrailer      : Byte
  readyByte       : Byte
  idleByte        : Byte
  nResp           : Word
  openBusyBudget  : Word
  closeBusyBudget : Word
  closeRetries    : Word
  sbtBase         : Word
  admitted        : List Region
  deriving DecidableEq, Repr, Inhabited

/-- One entry of the exchange history h: chip-select state, byte out, byte in (00_scope.md R9). -/
structure Exchange where
  cs  : Bool
  out : Byte
  inp : Byte
  deriving DecidableEq, Repr, Inhabited

/-- The parameters of the machine State.reset describes. DESIGN CHOICE, safe: opaque, so no proof can lean on a value
(notes/assumptions/4.md). -/
opaque Config.params : Params

/-- The card oracle `Card(h, cs, b)` of 00_scope.md R9, asked once the scripted answers are used up. DESIGN CHOICE, safe: opaque
(notes/assumptions/5.md). -/
opaque Config.card : List Exchange → Bool → Byte → Byte

end Sys2Proof
end

