-- ==== Sys2Proof/Syntax.lean ====
section
/-! DEFINITION. The operations of the SBT, one constructor for each of the 17 rows of spec/opcode_table.json (30_encoding.md R92), with
the fields of the CMD word that the row leaves free; the fields of a CMD word (R91); and the names of what makes a word illegal (R94). -/

namespace Sys2Proof

/-- CMD.DIR: 0 = TX (outbound), 1 = RX (inbound) (30_encoding.md R91, R95). -/
inductive Chan where
  | tx
  | rx
  deriving DecidableEq, Repr, Inhabited

/-- The operations a write of CMD starts (30_encoding.md R92). -/
inductive Instr where
  | nop
  | select
  | deselect
  | writeByte (b : Byte)
  | readByte
  | sendCommand (o : Byte)
  | waitNotBusy
  | dmaConfigure (ch : Chan)
  | dmaConfigureFill
  | dmaEnable (ch : Chan)
  | dmaIsComplete (ch : Chan)
  | dmaDisable (ch : Chan)
  | openWrite
  | transfer
  | closeWrite
  | openRead
  | closeRead
  deriving DecidableEq, Repr, Inhabited

/-- The fields of a CMD word (30_encoding.md R91). -/
structure Fields where
  op       : BitVec 6
  dir      : Bool
  fill     : Bool
  imm8     : Byte
  reserved : BitVec 16
  deriving DecidableEq, Repr, Inhabited

/-- Why a CMD word is illegal, one name for each point of 30_encoding.md R94. -/
inductive Reject where
  /-- bits [31:16] are not zero -/
  | reservedBits
  /-- OP is 0x07 to 0x0F, 0x14 to 0x1F or 0x25 to 0x3F -/
  | reservedOp
  /-- DIR = 1 on an operation that names no channel -/
  | strayDir
  /-- FILL = 1 on anything but OP 0x10 with DIR = 0 -/
  | strayFill
  /-- IMM8 is not zero on an operation other than WRITE_BYTE and SEND_COMMAND -/
  | strayImm8
  deriving DecidableEq, Repr, Inhabited

end Sys2Proof
end

