-- ==== Sys2Proof/WellFormed.lean ====
section
/-! DEFINITION. Which requests are well formed. The operands of an `Instr` are typed to the width of their field, so an instruction has
no ill-formed term of its own (notes/assumptions/16.md); what can be ill formed is a CMD word, and its checks are the five points of
30_encoding.md R94, stated here over the word's fields; the fields an operation has are the encoder's (Sys2Proof/Decode.lean). -/

namespace Sys2Proof

/-- OP is a row of the OP map (30_encoding.md R92, R94). -/
def Fields.opKnown (f : Fields) : Bool :=
  (f.op ≤ 0x06) || (0x10 ≤ f.op && f.op ≤ 0x13) || (0x20 ≤ f.op && f.op ≤ 0x24)

/-- DIR may be 1 only on a DMA operation (30_encoding.md R91, R94). -/
def Fields.dirAllowed (f : Fields) : Bool :=
  !f.dir || (0x10 ≤ f.op && f.op ≤ 0x13)

/-- FILL may be 1 only with OP = 0x10 and DIR = 0 (30_encoding.md R91, R94). -/
def Fields.fillAllowed (f : Fields) : Bool :=
  !f.fill || (f.op == 0x10 && !f.dir)

/-- IMM8 may be non-zero only on WRITE_BYTE and SEND_COMMAND (30_encoding.md R91, R94). -/
def Fields.immAllowed (f : Fields) : Bool :=
  f.imm8 == 0 || f.op == 0x03 || f.op == 0x05

/-- The fields spell an operation: none of the points of 30_encoding.md R94 applies. -/
def Fields.wf (f : Fields) : Bool :=
  f.reserved == 0 && f.opKnown && f.dirAllowed && f.fillAllowed && f.immAllowed

end Sys2Proof
end

