-- ==== Sys2Proof/Decode.lean ====
section
/-! DEFINITION. The request encoding (spec/30_encoding.md): `decode`, total on every 32-bit CMD word and rejecting by name (R106, R94);
`encode`, the word of an operation (R91, R92); the match and mask table (R93) and each operation's mnemonic in
spec/opcode_table.json. -/

namespace Sys2Proof

/-- Split a CMD word into its fields (30_encoding.md R91). -/
def fieldsOf (w : Word) : Fields :=
  { op := w.extractLsb' 0 6, dir := w.getLsbD 6, fill := w.getLsbD 7, imm8 := w.extractLsb' 8 8, reserved := w.extractLsb' 16 16 }

/-- CMD.DIR names the channel (30_encoding.md R95). -/
def chanOf (dir : Bool) : Chan := if dir then .rx else .tx

/-- An operation that takes neither DIR nor FILL (30_encoding.md R106). -/
def withoutFlags (dir fill : Bool) (i : Instr) : Except Reject Instr :=
  if dir then .error .strayDir else if fill then .error .strayFill else .ok i

/-- An operation that takes DIR but not FILL (30_encoding.md R106). -/
def withChannel (dir fill : Bool) (i : Chan → Instr) : Except Reject Instr :=
  if fill then .error .strayFill else .ok (i (chanOf dir))

/-- OP 0x10: DMA_CONFIGURE, or with FILL and DIR = 0 DMA_CONFIGURE_FILL (30_encoding.md R106). -/
def configureOf (dir fill : Bool) : Except Reject Instr :=
  if fill then (if dir then .error .strayFill else .ok .dmaConfigureFill) else .ok (.dmaConfigure (chanOf dir))

/-- The operations whose IMM8 is zero, by OP (30_encoding.md R92, R106). -/
def decodeOp (op : BitVec 6) (dir fill : Bool) : Except Reject Instr :=
  match op.toNat with
  | 0x00 => withoutFlags dir fill .nop
  | 0x01 => withoutFlags dir fill .select
  | 0x02 => withoutFlags dir fill .deselect
  | 0x04 => withoutFlags dir fill .readByte
  | 0x06 => withoutFlags dir fill .waitNotBusy
  | 0x10 => configureOf dir fill
  | 0x11 => withChannel dir fill .dmaEnable
  | 0x12 => withChannel dir fill .dmaIsComplete
  | 0x13 => withChannel dir fill .dmaDisable
  | 0x20 => withoutFlags dir fill .openWrite
  | 0x21 => withoutFlags dir fill .transfer
  | 0x22 => withoutFlags dir fill .closeWrite
  | 0x23 => withoutFlags dir fill .openRead
  | 0x24 => withoutFlags dir fill .closeRead
  | _ => .error .reservedOp

/-- Decode the fields of a word, in the order of 30_encoding.md R106. -/
def decodeFields (f : Fields) : Except Reject Instr :=
  if f.reserved ≠ 0 then .error .reservedBits
  else if f.op = 0x03 then withoutFlags f.dir f.fill (.writeByte f.imm8)
  else if f.op = 0x05 then withoutFlags f.dir f.fill (.sendCommand f.imm8)
  else if f.imm8 ≠ 0 then .error .strayImm8
  else decodeOp f.op f.dir f.fill

/-- `Decode(w)` of 30_encoding.md R106, total on every 32-bit word. -/
def decode (w : Word) : Except Reject Instr := decodeFields (fieldsOf w)

/-- CMD.DIR of a channel (30_encoding.md R91). -/
def Chan.dir : Chan → Bool
  | .tx => false
  | .rx => true

/-- The fields of an operation's CMD word, by the OP map (30_encoding.md R92). -/
def Instr.fields : Instr → Fields
  | .nop => { op := 0x00, dir := false, fill := false, imm8 := 0, reserved := 0 }
  | .select => { op := 0x01, dir := false, fill := false, imm8 := 0, reserved := 0 }
  | .deselect => { op := 0x02, dir := false, fill := false, imm8 := 0, reserved := 0 }
  | .writeByte b => { op := 0x03, dir := false, fill := false, imm8 := b, reserved := 0 }
  | .readByte => { op := 0x04, dir := false, fill := false, imm8 := 0, reserved := 0 }
  | .sendCommand o => { op := 0x05, dir := false, fill := false, imm8 := o, reserved := 0 }
  | .waitNotBusy => { op := 0x06, dir := false, fill := false, imm8 := 0, reserved := 0 }
  | .dmaConfigure ch => { op := 0x10, dir := ch.dir, fill := false, imm8 := 0, reserved := 0 }
  | .dmaConfigureFill => { op := 0x10, dir := false, fill := true, imm8 := 0, reserved := 0 }
  | .dmaEnable ch => { op := 0x11, dir := ch.dir, fill := false, imm8 := 0, reserved := 0 }
  | .dmaIsComplete ch => { op := 0x12, dir := ch.dir, fill := false, imm8 := 0, reserved := 0 }
  | .dmaDisable ch => { op := 0x13, dir := ch.dir, fill := false, imm8 := 0, reserved := 0 }
  | .openWrite => { op := 0x20, dir := false, fill := false, imm8 := 0, reserved := 0 }
  | .transfer => { op := 0x21, dir := false, fill := false, imm8 := 0, reserved := 0 }
  | .closeWrite => { op := 0x22, dir := false, fill := false, imm8 := 0, reserved := 0 }
  | .openRead => { op := 0x23, dir := false, fill := false, imm8 := 0, reserved := 0 }
  | .closeRead => { op := 0x24, dir := false, fill := false, imm8 := 0, reserved := 0 }

/-- An operation is well formed when its fields are (it always is: Laws/Encoding.lean). -/
def Instr.wf (i : Instr) : Bool := i.fields.wf

/-- Put fields together into a word, by the bit positions of 30_encoding.md R91. -/
def assembleFields (f : Fields) : Word :=
  f.reserved ++ f.imm8 ++ (BitVec.ofBool f.fill) ++ (BitVec.ofBool f.dir) ++ f.op

/-- The CMD word of an operation (30_encoding.md R91, R92). -/
def encode (i : Instr) : Word := assembleFields i.fields

/-- The operation's mnemonic as spec/opcode_table.json spells it. -/
def mnemonic : Instr → String
  | .nop => "NOP"
  | .select => "SELECT"
  | .deselect => "DESELECT"
  | .writeByte _ => "WRITE_BYTE"
  | .readByte => "READ_BYTE"
  | .sendCommand _ => "SEND_COMMAND"
  | .waitNotBusy => "WAIT_NOT_BUSY"
  | .dmaConfigure _ => "DMA_CONFIGURE"
  | .dmaConfigureFill => "DMA_CONFIGURE_FILL"
  | .dmaEnable _ => "DMA_ENABLE"
  | .dmaIsComplete _ => "DMA_IS_COMPLETE"
  | .dmaDisable _ => "DMA_DISABLE"
  | .openWrite => "OPEN_WRITE"
  | .transfer => "TRANSFER"
  | .closeWrite => "CLOSE_WRITE"
  | .openRead => "OPEN_READ"
  | .closeRead => "CLOSE_READ"

/-- A row of the match and mask table: a word spells the row when `(w & mask) == match` (30_encoding.md R93). -/
abbrev TableRow := String × Word × Word

/-- The match and mask table of 30_encoding.md R93: mnemonic, match, mask. -/
def matchMaskTable : List TableRow :=
  [("NOP", 0x00000000, 0xFFFFFFFF), ("SELECT", 0x00000001, 0xFFFFFFFF), ("DESELECT", 0x00000002, 0xFFFFFFFF),
   ("WRITE_BYTE", 0x00000003, 0xFFFF00FF), ("READ_BYTE", 0x00000004, 0xFFFFFFFF), ("SEND_COMMAND", 0x00000005, 0xFFFF00FF),
   ("WAIT_NOT_BUSY", 0x00000006, 0xFFFFFFFF)] ++
  [("DMA_CONFIGURE", 0x00000010, 0xFFFFFFBF), ("DMA_CONFIGURE_FILL", 0x00000090, 0xFFFFFFFF),
   ("DMA_ENABLE", 0x00000011, 0xFFFFFFBF), ("DMA_IS_COMPLETE", 0x00000012, 0xFFFFFFBF), ("DMA_DISABLE", 0x00000013, 0xFFFFFFBF)] ++
  [("OPEN_WRITE", 0x00000020, 0xFFFFFFFF), ("TRANSFER", 0x00000021, 0xFFFFFFFF), ("CLOSE_WRITE", 0x00000022, 0xFFFFFFFF),
   ("OPEN_READ", 0x00000023, 0xFFFFFFFF), ("CLOSE_READ", 0x00000024, 0xFFFFFFFF)]

/-- The word spells the row (30_encoding.md R93). -/
def spells (w : Word) (row : TableRow) : Bool := w &&& row.2.2 == row.2.1

/-- The operation the decoder reads from a table row's bits, bit 0 the least significant bit of the word; the bits above `nbits` are
zero. A request is one 32-bit word (30_encoding.md R90), so no row is longer. -/
def decodeTableWord (nbits w : Nat) : Option Instr :=
  if nbits ≤ 32 then
    match decode (BitVec.ofNat 32 (w % 2 ^ nbits)) with
    | .ok i => some i
    | .error _ => none
  else none

end Sys2Proof
end

