-- ==== Sys2Proof/Machine/State.lean ====
section
/-! DEFINITION. The state of the machine as plain data: every register and field of spec/10_state.md, the hidden sequencer state of its
R42, system memory, the exchange history and the card's answers (R20, R44), and the model's own schedule. INVENTORY.md lists each with
its rule and reset value. -/

namespace Sys2Proof.Machine

/-- STATUS.PHASE (10_state.md R32). Its codes 6 and 7 are never produced (U15), so they have no constructor. -/
inductive Phase where
  | idle
  | opened
  | transferring
  | closing
  | closed
  | failed
  deriving DecidableEq, Repr, Inhabited

/-- STATUS.SDIR: the direction of the current or last session (10_state.md R33). -/
inductive SDir where
  | write
  | read
  deriving DecidableEq, Repr, Inhabited

/-- RESULT.CODE (60_exceptions.md R221). Codes 4 to 15 are never produced (U15). -/
inductive ResultCode where
  | ok
  | cardBusyTimeout
  | commandRejected
  | writeRejected
  deriving DecidableEq, Repr, Inhabited

/-- FAULT.FCODE (60_exceptions.md R222). Codes 10 to 255 are never produced (U15). These are the SBT's own sticky faults: taking one is a
next state (R226), not an end of the model's run. -/
inductive FaultCode where
  | none
  | illegalRequest
  | requestWhileBusy
  | phaseError
  | operandRange
  | reloadWhileEnabled
  | enableWhileEnabled
  | notConfigured
  | busConflict
  | bufferMismatch
  deriving DecidableEq, Repr, Inhabited

/-- A DMA channel record (10_state.md R38 to R40). FILL belongs to TX only and stands in `State.txFill`. -/
structure Channel where
  ptr    : Word
  count  : BitVec 16
  rem    : BitVec 16
  en     : Bool
  done   : Bool
  loaded : Bool
  cfg    : Bool
  deriving DecidableEq, Repr, Inhabited

/-- The sequencer's position in the micro-program of LOP (10_state.md R21, R42). `halted` is where fault entry leaves it
(60_exceptions.md R226). The numbers count the statements of a listing from 0 in the order the listing gives them: `body` those of the
operation's own listing, `readPath` those of TRANSFER's read path (42_session.md R185), `wait` those of `uWaitNotBusy` and `cmd` those of
`uCommand` (40_transport.md R120). -/
inductive Pos where
  | idle
  | halted
  | body (n : Nat)
  | readPath (n : Nat)
  | wait (n : Nat)
  | cmd (n : Nat)
  deriving DecidableEq, Repr, Inhabited

/-- The loop counters and local values the pseudocode names (10_state.md R42; notes/assumptions/9.md). -/
structure Locals where
  i  : Word
  k  : Word
  r  : Byte
  t  : Byte
  s  : BitVec 23
  x  : Byte
  ok : Bool
  p  : Word
  q  : Word
  deriving DecidableEq, Repr, Inhabited

/-- Every local at 0 (70_reset_and_hazards.md R260). -/
def Locals.zero : Locals := { i := 0, k := 0, r := 0, t := 0, s := 0, x := 0, ok := false, p := 0, q := 0 }

/-- One atomic step of one agent (20_memory.md R70), as the schedule names it. -/
inductive Atomic where
  /-- A host write of the low `width` bits of `v` at byte address `addr` of the window's space (10_state.md R24). -/
  | windowWrite (width : Nat) (addr : Word) (v : Word)
  /-- A host read of `width` bits at byte address `addr` of the window's space (10_state.md R24). -/
  | windowRead (width : Nat) (addr : Word)
  /-- A host write of one byte of system memory (20_memory.md R70). -/
  | memoryStore (addr : Word) (b : Byte)
  /-- A host read of one byte of system memory (20_memory.md R70). -/
  | memoryLoad (addr : Word)
  /-- The sequencer's turn (10_state.md R21). -/
  | sequencer
  /-- The DMA engine's turn (41_dma.md R152). -/
  | dma
  /-- The SBT's own turn: the sequencer's step if it has one, else the DMA engine's (20_memory.md R78; notes/assumptions/2.md). -/
  | own
  /-- The reset input (70_reset_and_hazards.md R260). -/
  | reset
  /-- A second agent's access of the window (60_exceptions.md R235). -/
  | otherAgent
  deriving DecidableEq, Repr, Inhabited

/-- One entry of the schedule. -/
inductive Move where
  /-- The host's write of the CMD word `w` and the operation's run, as one step of the model (notes/assumptions/1.md). -/
  | request (w : Word)
  /-- One atomic step of one agent. -/
  | atomic (a : Atomic)
  /-- The host's POLL: repeat `R32 0x10 -> st` until `st[0] == 0` (30_encoding.md R105; notes/assumptions/25.md). Each read is one step. -/
  | poll
  deriving DecidableEq, Repr, Inhabited

/-- System memory: address and byte pairs, addresses strictly rising, no byte equal to what an unlisted address reads as. -/
abbrev Memory := List Host.Cell

/-- The whole state (10_state.md R20). -/
structure State where
  /-- ARG0 (R26) -/
  arg0 : Word
  /-- ARG1 (R27) -/
  arg1 : Word
  /-- RESULT.DATA (R28) -/
  resultData : Byte
  /-- RESULT.CODE (R28) -/
  resultCode : ResultCode
  /-- STATUS.BUSY (R30) -/
  busy : Bool
  /-- STATUS.CS (R31) -/
  cs : Bool
  /-- STATUS.FAULTED (R35) -/
  faulted : Bool
  /-- STATUS.PHASE (R32) -/
  phase : Phase
  /-- STATUS.SDIR (R33) -/
  sdir : SDir
  /-- STATUS.DATA_ACCEPTED (R34) -/
  dataAccepted : Bool
  /-- the TX record (R38 to R40) -/
  tx : Channel
  /-- the RX record (R38 to R40) -/
  rx : Channel
  /-- TX.FILL (R40) -/
  txFill : Bool
  /-- FAULT.FCODE (R36) -/
  fcode : FaultCode
  /-- FAULT_CMD (R37) -/
  faultCmd : Word
  /-- SECTOR.INDEX (R41) -/
  sector : BitVec 23
  /-- LOP (R42) -/
  lop : Option Instr
  /-- LARG0 (R42) -/
  larg0 : Word
  /-- LARG1 (R42) -/
  larg1 : Word
  /-- the sequencer's position (R42) -/
  pos : Pos
  /-- the locals of the micro-program (R42) -/
  locals : Locals
  /-- system memory (R20; 20_memory.md R60) -/
  mem : Memory
  /-- the exchange history h, oldest first (R44; 00_scope.md R9) -/
  history : List Exchange
  /-- the card's answers fixed in advance, next first (notes/assumptions/5.md) -/
  cardScript : List Byte
  /-- the parameters of 00_scope.md R7 (notes/assumptions/4.md) -/
  params : Params
  /-- the moves still to come, next first (notes/assumptions/2.md) -/
  agenda : List Move
  /-- what the host's last read returned (notes/assumptions/12.md) -/
  hostData : Word
  deriving DecidableEq, Repr

/-- Why the model's run ends with a fault. No instruction raises one. -/
inductive Fault where
  /-- Raised by Machine/Host.lean for a host load or store at an address the platform does not admit (00_scope.md R9: an access is
  admitted only if MemAdmits holds). Safe: the run stops where the platform's answer is not given (notes/assumptions/11.md). -/
  | hostAccessUnbacked
  deriving DecidableEq, Repr

/-- What the model gives no meaning. -/
inductive Refusal where
  /-- Raised by exec for an instruction without a meaning yet; no arm does. Safe. -/
  | notModelled (mnemonic : String)
  /-- Raised by Machine/Host.lean for a window access that is not 32 bits wide, not aligned, or outside the window: 10_state.md R24 says a
  model refuses it. Safe. -/
  | windowAccess
  /-- Raised by Machine/Host.lean for an access of the window by a second agent: 60_exceptions.md R235 says the spec refuses it. Safe. -/
  | secondAgent
  deriving DecidableEq, Repr

/-- A channel record at reset (70_reset_and_hazards.md R260). -/
def Channel.reset : Channel :=
  { ptr := 0, count := 0, rem := 0, en := false, done := false, loaded := false, cfg := false }

/-- The machine right after reset: every SBT field as 70_reset_and_hazards.md R260 gives it. Of what the spec puts outside the SBT, memory
lists nothing, the history and the script are empty, and the parameters are the opaque Config.params; the agenda is empty and `hostData`
is 0 (DESIGN CHOICE, notes/assumptions/4.md, 6.md and 19.md). -/
def State.reset : State :=
  { arg0 := 0, arg1 := 0, resultData := 0, resultCode := .ok,
    busy := false, cs := false, faulted := false, phase := .idle, sdir := .write, dataAccepted := false,
    tx := Channel.reset, rx := Channel.reset, txFill := false,
    fcode := .none, faultCmd := 0, sector := 0,
    lop := none, larg0 := 0, larg1 := 0, pos := .idle, locals := Locals.zero,
    mem := [], history := [], cardScript := [], params := Config.params, agenda := [], hostData := 0 }

end Sys2Proof.Machine
end

