-- ==== Sys2Proof/Machine/Ops.lean ====
section
/-! DEFINITION. The named operations every meaning is written with: system memory (spec/20_memory.md), one byte exchange, `finish`
(00_scope.md R9), fault entry as ONE operation (60_exceptions.md R226) with reset, the only way back, beside it (R228,
70_reset_and_hazards.md R260), the channel records, and the issue step's common part (30_encoding.md R107). -/

namespace Sys2Proof.Machine

/-! ### System memory -/

/-- What an address nothing has written reads as. DESIGN CHOICE, unsafe: the spec gives no contents of memory
(notes/assumptions/6.md). -/
def Memory.unlisted : Byte := 0x00

/-- Read one byte. -/
def Memory.read : Memory → Nat → Byte
  | [], _ => Memory.unlisted
  | (b, v) :: m, a => if a = b then v else Memory.read m a

/-- Put a cell in front, unless it holds what an unlisted address reads as anyway. -/
def Memory.cons (a : Nat) (v : Byte) (m : Memory) : Memory :=
  if v = Memory.unlisted then m else (a, v) :: m

/-- Write one byte, keeping the canonical form. -/
def Memory.write : Memory → Nat → Byte → Memory
  | [], a, v => Memory.cons a v []
  | (b, w) :: m, a, v =>
    if a < b then Memory.cons a v ((b, w) :: m)
    else if a = b then Memory.cons a v m
    else (b, w) :: Memory.write m a v

/-- Every listed address is above `lo`, the addresses rise, they fit 32 bits, and no byte is the unlisted one. -/
def Memory.wfAbove : Option Nat → Memory → Bool
  | _, [] => true
  | lo, (a, v) :: m => lo.all (· < a) && decide (a < 2 ^ 32) && decide (v ≠ Memory.unlisted) && Memory.wfAbove (some a) m

/-- The canonical form of memory: addresses strictly rising and below 2^32, no byte equal to what an unlisted address reads as. -/
def Memory.wf (m : Memory) : Bool := Memory.wfAbove none m

/-- `MemAdmits(addr)`: system memory backs the address (20_memory.md R64). -/
def admits (p : Params) (a : Word) : Bool := p.admitted.any fun r => r.first ≤ a && a ≤ r.last

/-- `MemRead(addr, 1)` (00_scope.md R9). -/
def memReadByte (s : State) (a : Word) : Byte := s.mem.read a.toNat

/-- `MemWrite(addr, 1, v)` (00_scope.md R9). -/
def memWriteByte (a : Word) (v : Byte) (s : State) : State := { s with mem := s.mem.write a.toNat v }

/-! ### The serial bus -/

/-- What the card answers to byte `b` now: the next scripted answer, or else the oracle's (00_scope.md R9; notes/assumptions/5.md). -/
def cardAnswer (b : Byte) (s : State) : Byte :=
  match s.cardScript with
  | x :: _ => x
  | [] => Config.card s.history s.cs b

/-- The state after one byte exchange: one entry more in h (00_scope.md R9). -/
def afterExchange (b : Byte) (s : State) : State :=
  { s with history := s.history ++ [{ cs := s.cs, out := b, inp := cardAnswer b s }], cardScript := s.cardScript.tail }

/-- `Exch(b)`: the byte received, and the state after it (00_scope.md R9). -/
def exchange (b : Byte) (s : State) : Byte × State := (cardAnswer b s, afterExchange b s)

/-! ### The channel records -/

/-- The record of a channel. -/
def State.chan (s : State) : Chan → Channel
  | .tx => s.tx
  | .rx => s.rx

/-- Replace the record of a channel. -/
def State.setChan (s : State) : Chan → Channel → State
  | .tx, c => { s with tx := c }
  | .rx, c => { s with rx := c }

/-! ### The end of an operation, fault entry and reset -/

/-- The sequencer goes to a position. -/
def goto (p : Pos) (s : State) : State := { s with pos := p }

/-- `finish(code, data)`: RESULT is written and BUSY cleared in one step (00_scope.md R9); the position returns to idle (10_state.md R21) and
LOP to none (R42); the locals return to 0 (notes/assumptions/9.md). -/
def finish (code : ResultCode) (data : Byte) (s : State) : State :=
  { s with resultCode := code, resultData := data, busy := false, lop := none, pos := .idle, locals := Locals.zero }

/-- Fault entry, `raise Fault(code)(w)` (60_exceptions.md R226): the code and the CMD word are recorded, FAULTED set, BUSY cleared, the
sequencer halted; nothing else changes. -/
def raiseFault (code : FaultCode) (w : Word) (s : State) : State :=
  { s with fcode := code, faultCmd := w, faulted := true, busy := false, lop := none, pos := .halted }

/-- Reset, the only event that leaves the faulted state (60_exceptions.md R228; 70_reset_and_hazards.md R260): every SBT field at its reset
value; system memory, the history and the card unchanged, and so are the parameters, the schedule and what the host has read. -/
def resetSbt (s : State) : State :=
  { State.reset with mem := s.mem, history := s.history, cardScript := s.cardScript, params := s.params, agenda := s.agenda,
                     hostData := s.hostData }

/-! ### The issue step -/

/-- Of a list of checks, the code of the first that fails (60_exceptions.md R224). -/
def firstFault : List (Bool × FaultCode) → Option FaultCode
  | [] => none
  | (fails, code) :: rest => if fails then some code else firstFault rest

/-- The issue step accepts: LOP, LARG0 and LARG1 are latched, BUSY is set and the position is at the first statement
(30_encoding.md R107; 10_state.md R42). -/
def latch (i : Instr) (first : Pos) (s : State) : State :=
  { s with lop := some i, larg0 := s.arg0, larg1 := s.arg1, busy := true, pos := first, locals := Locals.zero }

/-- The write of a CMD word that spells no operation (30_encoding.md R107; 60_exceptions.md R224). -/
def rejectWord (w : Word) (s : State) : State :=
  if s.faulted then s
  else if s.busy then raiseFault .requestWhileBusy w s
  else raiseFault .illegalRequest w s

/-- The write of the CMD word of operation `i` (30_encoding.md R107): ignored when faulted, a fault when busy or when a check fails
(`failed` names the first that does), and otherwise accepted at position `first`, after which `body` follows. -/
def issueThen (i : Instr) (failed : Option FaultCode) (first : Pos) (body : State → State) (s : State) : State :=
  if s.faulted then s
  else if s.busy then raiseFault .requestWhileBusy (encode i) s
  else match failed with
    | some code => raiseFault code (encode i) s
    | none => body (latch i first s)

/-- A whole request: the issue step and the operation's run to its end (notes/assumptions/1.md). -/
def request (i : Instr) (failed : Option FaultCode) (first : Pos) (body : State → State) (s : State) :
    Host.Outcome State Fault Refusal :=
  .next (issueThen i failed first body s)

end Sys2Proof.Machine
end

