-- ==== Sys2Proof/Machine/Operands.lean ====
section
/-! DEFINITION. Operand assembly (spec/30_encoding.md R95), the card byte address and its bytes on the wire (R96, R97), the working
address of a channel (10_state.md R43), and the range checks of operands (60_exceptions.md R222). -/

namespace Sys2Proof.Machine

/-- The count of a DMA load: LARG1[15:0] (30_encoding.md R95). -/
def countOperand (a1 : Word) : BitVec 16 := a1.extractLsb' 0 16

/-- ARG1[31:16] != 0, out of range for a DMA count (30_encoding.md R95). -/
def countOutOfRange (a1 : Word) : Bool := a1.extractLsb' 16 16 != 0

/-- The sector index: LARG0[22:0] (30_encoding.md R95). -/
def sectorOperand (a0 : Word) : BitVec 23 := a0.extractLsb' 0 23

/-- ARG0[31:23] != 0, out of range for a sector index (30_encoding.md R95). -/
def sectorOutOfRange (a0 : Word) : Bool := a0.extractLsb' 23 9 != 0

/-- The card byte address of a session: zext_32(s) << 9 (30_encoding.md R97). -/
def sectorAddress (index : BitVec 23) : Word := (index.setWidth 32) <<< sectorShift

/-- The four address bytes, most significant first (20_memory.md R61). -/
def addressBytes (a : Word) : List Byte :=
  [a.extractLsb' 24 8, a.extractLsb' 16 8, a.extractLsb' 8 8, a.extractLsb' 0 8]

/-- The six bytes of a command frame (30_encoding.md R96). -/
def frameBytes (o : Byte) (a : Word) (trailer : Byte) : List Byte := o :: (addressBytes a ++ [trailer])

/-- The working address of a channel: PTR + zext_32(COUNT - REM), modulo 2^32 (10_state.md R43; 20_memory.md R67). -/
def Channel.address (c : Channel) : Word := c.ptr + (c.count - c.rem).setWidth 32

end Sys2Proof.Machine
end

