-- ==== Sys2Proof/Machine/Flags.lean ====
section
/-! DEFINITION. The flags of the SBT and the words the host reads them in: the codes of PHASE, RESULT.CODE and FCODE, the STATUS word and
the other read-only registers (spec/10_state.md R28 to R41), the flags of a channel run (R40), and the wire tests of a response, a token
and a busy poll (30_encoding.md R98, R101, R102). -/

namespace Sys2Proof.Machine

/-- PHASE[2:0] (10_state.md R32). -/
def Phase.code : Phase → BitVec 3
  | .idle => 0
  | .opened => 1
  | .transferring => 2
  | .closing => 3
  | .closed => 4
  | .failed => 5

/-- SDIR (10_state.md R33). -/
def SDir.code : SDir → BitVec 1
  | .write => 0
  | .read => 1

/-- RESULT.CODE[3:0] (60_exceptions.md R221). -/
def ResultCode.code : ResultCode → BitVec 4
  | .ok => 0
  | .cardBusyTimeout => 1
  | .commandRejected => 2
  | .writeRejected => 3

/-- FAULT.FCODE[7:0] (60_exceptions.md R222). -/
def FaultCode.code : FaultCode → BitVec 8
  | .none => 0
  | .illegalRequest => 1
  | .requestWhileBusy => 2
  | .phaseError => 3
  | .operandRange => 4
  | .reloadWhileEnabled => 5
  | .enableWhileEnabled => 6
  | .notConfigured => 7
  | .busConflict => 8
  | .bufferMismatch => 9

/-- A session is open: PHASE is opened or transferring (40_transport.md R128; 41_dma.md R154). -/
def sessionOpen (s : State) : Bool := s.phase == .opened || s.phase == .transferring

/-- A channel is enabled with bytes left: it runs (41_dma.md R151, R152). -/
def Channel.running (c : Channel) : Bool := c.en && c.rem != 0

/-- `DmaOwnsBus` (41_dma.md R151). -/
def dmaOwnsBus (s : State) : Bool := s.tx.running || s.rx.running

/-- The channel after one byte of its run: REM one less, DONE set when it reaches 0 (41_dma.md R152). -/
def Channel.countDown (c : Channel) : Channel :=
  { c with rem := c.rem - 1, done := c.done || (c.rem - 1 == 0) }

/-- The response byte accepts (30_encoding.md R98). -/
def accepted (r : Byte) : Bool := r == respOk

/-- The data-response token accepts: its low nibble is DR_ACCEPT (30_encoding.md R101). -/
def tokenAccepted (p : Params) (t : Byte) : Bool := t &&& drMask == p.drAccept.setWidth 8

/-- The inbound byte of a busy poll reads "not busy" (30_encoding.md R102). -/
def isReady (p : Params) (x : Byte) : Bool := x == p.readyByte

/-- RESULT as the host reads it (10_state.md R28). -/
def resultWord (s : State) : Word := (0 : BitVec 20) ++ s.resultCode.code ++ s.resultData

/-- The flags of a channel as STATUS shows them: CFG, LOADED, DONE, EN from high to low (10_state.md R29). -/
def Channel.flags (c : Channel) : BitVec 4 :=
  BitVec.ofBool c.cfg ++ BitVec.ofBool c.loaded ++ BitVec.ofBool c.done ++ BitVec.ofBool c.en

/-- STATUS as the host reads it (10_state.md R29). -/
def statusWord (s : State) : Word :=
  (0 : BitVec 4) ++ s.rx.flags ++ (0 : BitVec 3) ++ BitVec.ofBool s.txFill ++ s.tx.flags ++ (0 : BitVec 7) ++
    BitVec.ofBool s.dataAccepted ++ s.sdir.code ++ s.phase.code ++ (0 : BitVec 1) ++ BitVec.ofBool s.faulted ++
    BitVec.ofBool s.cs ++ BitVec.ofBool s.busy

/-- FAULT as the host reads it (10_state.md R36). -/
def faultWord (s : State) : Word := (0 : BitVec 24) ++ s.fcode.code

/-- TX_CNT or RX_CNT as the host reads it: REM above COUNT (10_state.md R39). -/
def Channel.countWord (c : Channel) : Word := c.rem ++ c.count

/-- SECTOR as the host reads it (10_state.md R41). -/
def sectorWord (s : State) : Word := (0 : BitVec 9) ++ s.sector

end Sys2Proof.Machine
end

