-- ==== Sys2Proof/Machine/Transport.lean ====
section
/-! DEFINITION. The block transport (spec/40_transport.md): the micro-routines of R120, and for each operation of R121 to R127 its checks at
issue (`check…`), its micro-program as one whole (`run…`), the same micro-program one statement per sequencer step (`micro…`), and its
meaning (`exec…`): issue it and run it to its end. -/

namespace Sys2Proof.Machine

/-! ### Micro-routines (R120) -/

/-- `uSelect()` -/
def uSelect (s : State) : State := { s with cs := true }

/-- `uDeselect()` -/
def uDeselect (s : State) : State := { s with cs := false }

/-- `uWrite(b)`: the inbound byte is discarded. -/
def uWrite (b : Byte) (s : State) : State := (exchange b s).2

/-- `uRead()` -/
def uRead (s : State) : Byte × State := exchange clockByte s

/-- Exchange the bytes of a list in order, discarding the inbound bytes. -/
def sendBytes : List Byte → State → State
  | [], s => s
  | b :: bs, s => sendBytes bs (uWrite b s)

/-- The response poll of `uCommand` with `n` exchanges left: the first inbound byte that is not IDLE_BYTE, or IDLE_BYTE
(30_encoding.md R98). -/
def pollResponse : Nat → State → Byte × State
  | 0, s => (s.params.idleByte, s)
  | n + 1, s =>
    if cardAnswer clockByte s ≠ s.params.idleByte then exchange clockByte s
    else pollResponse n (afterExchange clockByte s)

/-- `uCommand(o, A)`: CS is left at 1. -/
def uCommand (o : Byte) (a : Word) (s : State) : Byte × State :=
  pollResponse s.params.nResp.toNat (sendBytes (frameBytes o a s.params.cmdTrailer) (uSelect s))

/-- The polls of `uWaitNotBusy` with `n` exchanges left: whether READY_BYTE came. -/
def pollReady : Nat → State → Bool × State
  | 0, s => (false, s)
  | n + 1, s =>
    if isReady s.params (cardAnswer clockByte s) then (true, afterExchange clockByte s)
    else pollReady n (afterExchange clockByte s)

/-- `uWaitNotBusy(n)`: CS is asserted for the polls and always ends at 0. -/
def uWaitNotBusy (n : Word) (s : State) : Bool × State :=
  ((pollReady n.toNat (uSelect s)).1, uDeselect (pollReady n.toNat (uSelect s)).2)

/-- The statements of `uCommand(o, A)` one by one; after the last the caller goes on at `ret` with the response in `locals.r`.
0: CS <- 1; 1 to 6: the frame; 7: r <- IDLE_BYTE; 8: i <- 0; 9: while; 10: x <- Exch; 11: i <- i + 1; 12: if; 13: r <- x, break; 14: return. -/
def microCommand (o : Byte) (a : Word) (ret : Pos) (s : State) : Nat → Option State
  | 0 => some (goto (.cmd 1) (uSelect s))
  | 1 => some (goto (.cmd 2) (uWrite o s))
  | 2 => some (goto (.cmd 3) (uWrite (a.extractLsb' 24 8) s))
  | 3 => some (goto (.cmd 4) (uWrite (a.extractLsb' 16 8) s))
  | 4 => some (goto (.cmd 5) (uWrite (a.extractLsb' 8 8) s))
  | 5 => some (goto (.cmd 6) (uWrite (a.extractLsb' 0 8) s))
  | 6 => some (goto (.cmd 7) (uWrite s.params.cmdTrailer s))
  | 7 => some { s with locals.r := s.params.idleByte, pos := .cmd 8 }
  | 8 => some { s with locals.i := 0, pos := .cmd 9 }
  | 9 => some (goto (if s.locals.i < s.params.nResp then .cmd 10 else .cmd 14) s)
  | 10 => some { afterExchange clockByte s with locals.x := cardAnswer clockByte s, pos := .cmd 11 }
  | 11 => some { s with locals.i := s.locals.i + 1, pos := .cmd 12 }
  | 12 => some (goto (if s.locals.x ≠ s.params.idleByte then .cmd 13 else .cmd 9) s)
  | 13 => some { s with locals.r := s.locals.x, pos := .cmd 14 }
  | 14 => some (goto ret s)
  | _ => none

/-- The statements of `uWaitNotBusy(n)` one by one; after the last the caller goes on at `ret` with the answer in `locals.ok`.
0: CS <- 1; 1: i <- 0; 2: while; 3: x <- Exch; 4: i <- i + 1; 5: if; 6: CS <- 0; 7: return 1; 8: CS <- 0; 9: return 0. -/
def microWait (n : Word) (ret : Pos) (s : State) : Nat → Option State
  | 0 => some (goto (.wait 1) (uSelect s))
  | 1 => some { s with locals.i := 0, pos := .wait 2 }
  | 2 => some (goto (if s.locals.i < n then .wait 3 else .wait 8) s)
  | 3 => some { afterExchange clockByte s with locals.x := cardAnswer clockByte s, pos := .wait 4 }
  | 4 => some { s with locals.i := s.locals.i + 1, pos := .wait 5 }
  | 5 => some (goto (if isReady s.params s.locals.x then .wait 6 else .wait 2) s)
  | 6 => some (goto (.wait 7) (uDeselect s))
  | 7 => some { s with locals.ok := true, pos := ret }
  | 8 => some (goto (.wait 9) (uDeselect s))
  | 9 => some { s with locals.ok := false, pos := ret }
  | _ => none

/-- zext_8 of a truth value. -/
def boolByte (b : Bool) : Byte := (BitVec.ofBool b).setWidth 8

/-! ### Checks at issue (R128) -/

/-- The checks common to the transport operations, after decode: PhaseError, then BusConflict (R128). -/
def transportCheck (s : State) : Option FaultCode :=
  firstFault [(sessionOpen s, .phaseError), (dmaOwnsBus s, .busConflict)]

/-- NOP checks nothing after decode (R121, R128). -/
def checkNop (_ : State) : Option FaultCode := none

/-- R122 -/
def checkSelect (s : State) : Option FaultCode := transportCheck s

/-- R123 -/
def checkDeselect (s : State) : Option FaultCode := transportCheck s

/-- R124 -/
def checkWriteByte (s : State) : Option FaultCode := transportCheck s

/-- R125 -/
def checkReadByte (s : State) : Option FaultCode := transportCheck s

/-- R126 -/
def checkSendCommand (s : State) : Option FaultCode := transportCheck s

/-- R127 -/
def checkWaitNotBusy (s : State) : Option FaultCode := transportCheck s

/-! ### NOP (R121) -/

/-- NOP's micro-program. -/
def runNop (s : State) : State := finish .ok 0x00 s

/-- NOP's statements. -/
def microNop (s : State) : Option State :=
  match s.pos with
  | .body 0 => some (finish .ok 0x00 s)
  | _ => none

/-- NOP (R121): no operation; RESULT is cleared. -/
def execNop (s : State) : Host.Outcome State Fault Refusal := request .nop (checkNop s) (.body 0) runNop s

/-! ### SELECT (R122) -/

/-- SELECT's micro-program. -/
def runSelect (s : State) : State := finish .ok 0x00 (uSelect s)

/-- SELECT's statements. -/
def microSelect (s : State) : Option State :=
  match s.pos with
  | .body 0 => some (goto (.body 1) (uSelect s))
  | .body 1 => some (finish .ok 0x00 s)
  | _ => none

/-- SELECT (R122): assert chip-select; no exchange. -/
def execSelect (s : State) : Host.Outcome State Fault Refusal := request .select (checkSelect s) (.body 0) runSelect s

/-! ### DESELECT (R123) -/

/-- DESELECT's micro-program. -/
def runDeselect (s : State) : State := finish .ok 0x00 (uDeselect s)

/-- DESELECT's statements. -/
def microDeselect (s : State) : Option State :=
  match s.pos with
  | .body 0 => some (goto (.body 1) (uDeselect s))
  | .body 1 => some (finish .ok 0x00 s)
  | _ => none

/-- DESELECT (R123): deassert chip-select; no exchange. -/
def execDeselect (s : State) : Host.Outcome State Fault Refusal := request .deselect (checkDeselect s) (.body 0) runDeselect s

/-! ### WRITE_BYTE (R124) -/

/-- WRITE_BYTE's micro-program. -/
def runWriteByte (b : Byte) (s : State) : State := finish .ok 0x00 (uWrite b s)

/-- WRITE_BYTE's statements. -/
def microWriteByte (b : Byte) (s : State) : Option State :=
  match s.pos with
  | .body 0 => some (goto (.body 1) (uWrite b s))
  | .body 1 => some (finish .ok 0x00 s)
  | _ => none

/-- WRITE_BYTE b (R124): one exchange, whatever CS is; the inbound byte is discarded. -/
def execWriteByte (b : Byte) (s : State) : Host.Outcome State Fault Refusal :=
  request (.writeByte b) (checkWriteByte s) (.body 0) (runWriteByte b) s

/-! ### READ_BYTE (R125) -/

/-- READ_BYTE's micro-program. -/
def runReadByte (s : State) : State := finish .ok (uRead s).1 (uRead s).2

/-- READ_BYTE's statements. -/
def microReadByte (s : State) : Option State :=
  match s.pos with
  | .body 0 => some { afterExchange clockByte s with locals.x := cardAnswer clockByte s, pos := .body 1 }
  | .body 1 => some (finish .ok s.locals.x s)
  | _ => none

/-- READ_BYTE (R125): one exchange of CLOCK_BYTE; RESULT.DATA is the inbound byte. -/
def execReadByte (s : State) : Host.Outcome State Fault Refusal := request .readByte (checkReadByte s) (.body 0) runReadByte s

/-! ### SEND_COMMAND (R126) -/

/-- SEND_COMMAND's micro-program. -/
def runSendCommand (o : Byte) (s : State) : State := finish .ok (uCommand o s.larg0 s).1 (uCommand o s.larg0 s).2

/-- SEND_COMMAND's statements. -/
def microSendCommand (o : Byte) (s : State) : Option State :=
  match s.pos with
  | .cmd n => microCommand o s.larg0 (.body 0) s n
  | .body 0 => some (finish .ok s.locals.r s)
  | _ => none

/-- SEND_COMMAND o, A (R126): the frame, then the response poll; CS is left at 1. -/
def execSendCommand (o : Byte) (s : State) : Host.Outcome State Fault Refusal :=
  request (.sendCommand o) (checkSendCommand s) (.cmd 0) (runSendCommand o) s

/-! ### WAIT_NOT_BUSY (R127) -/

/-- WAIT_NOT_BUSY's micro-program. -/
def runWaitNotBusy (s : State) : State := finish .ok (boolByte (uWaitNotBusy s.larg0 s).1) (uWaitNotBusy s.larg0 s).2

/-- WAIT_NOT_BUSY's statements. -/
def microWaitNotBusy (s : State) : Option State :=
  match s.pos with
  | .wait n => microWait s.larg0 (.body 0) s n
  | .body 0 => some (finish .ok (boolByte s.locals.ok) s)
  | _ => none

/-- WAIT_NOT_BUSY n (R127): poll at most n exchanges for READY_BYTE; CS ends at 0. -/
def execWaitNotBusy (s : State) : Host.Outcome State Fault Refusal :=
  request .waitNotBusy (checkWaitNotBusy s) (.wait 0) runWaitNotBusy s

end Sys2Proof.Machine
end

