-- ==== Sys2Proof/Machine/Dma.lean ====
section
/-! DEFINITION. The DMA sector channel (spec/41_dma.md): the DMA engine's step (R152), the micro-routines of R160, and the operations of R155
to R159, each with its checks at issue (`check…`), its micro-program as one whole (`run…`) and one statement per step (`micro…`), and its
meaning (`exec…`). -/

namespace Sys2Proof.Machine

/-! ### The DMA engine's step (R152) -/

/-- RX captures the inbound byte of the step: `cap` of R152. -/
def rxCaptures (s : State) : Bool := s.rx.running

/-- A DMA step is enabled (R152): TX runs, the SBT is not faulted, and the bytes it reads and writes are admitted
(20_memory.md R64). -/
def dmaEnabled (s : State) : Bool :=
  !s.faulted && s.tx.running && (s.txFill || admits s.params s.tx.address) &&
    (!rxCaptures s || admits s.params s.rx.address)

/-- The outbound byte of the step: the filler, or the byte at TX's working address (R152). -/
def dmaOut (s : State) : Byte := if s.txFill then clockByte else memReadByte s s.tx.address

/-- RX stores the inbound byte at its working address and counts it (R152). -/
def rxStore (x : Byte) (s : State) : State :=
  { memWriteByte s.rx.address x s with rx := s.rx.countDown }

/-- The effect of a DMA step: one exchange, TX counts down, and RX stores the inbound byte if it captures (R152). -/
def dmaMove (s : State) : State :=
  let sent := afterExchange (dmaOut s) s
  let counted := { sent with tx := s.tx.countDown }
  if rxCaptures s then rxStore (cardAnswer (dmaOut s) s) counted else counted

/-- The DMA engine's step, if it has one (R152). -/
def dmaStep? (s : State) : Option State := if dmaEnabled s then some (dmaMove s) else none

/-- DMA steps until `cond` holds, none is enabled, or `n` have been taken: what an `await cond` waits through
(00_scope.md R9). -/
def awaitDma (cond : State → Bool) : Nat → State → State
  | 0, s => s
  | n + 1, s =>
    if cond s then s
    else match dmaStep? s with
      | none => s
      | some t => awaitDma cond n t

/-! ### Micro-routines (R160) -/

/-- `uLoad(ch, p, c, f)` (R160). -/
def uLoad (ch : Chan) (p : Word) (c : BitVec 16) (f : Bool) (s : State) : State :=
  let loaded := s.setChan ch { s.chan ch with ptr := p, count := c, rem := c, done := false, loaded := true, cfg := true }
  match ch with
  | .tx => { loaded with txFill := f }
  | .rx => loaded

/-- `uEnable(ch)` (R160). -/
def uEnable (ch : Chan) (s : State) : State :=
  s.setChan ch { s.chan ch with en := true, rem := (s.chan ch).count, done := (s.chan ch).count == 0, loaded := false }

/-- `uDisable(ch)` (R160): REM and DONE unchanged. -/
def uDisable (ch : Chan) (s : State) : State := s.setChan ch { s.chan ch with en := false }

/-! ### Checks at issue (R154 to R159, in the order of 60_exceptions.md R224) -/

/-- R155 -/
def checkDmaConfigure (ch : Chan) (s : State) : Option FaultCode :=
  firstFault [(sessionOpen s, .phaseError), (countOutOfRange s.arg1, .operandRange), ((s.chan ch).en, .reloadWhileEnabled)]

/-- R156 -/
def checkDmaConfigureFill (s : State) : Option FaultCode :=
  firstFault [(sessionOpen s, .phaseError), (countOutOfRange s.arg1, .operandRange), (s.tx.en, .reloadWhileEnabled)]

/-- R157 -/
def checkDmaEnable (ch : Chan) (s : State) : Option FaultCode :=
  firstFault [(sessionOpen s, .phaseError), ((s.chan ch).en, .enableWhileEnabled), (!(s.chan ch).cfg, .notConfigured)]

/-- R158: decode only -/
def checkDmaIsComplete (_ : Chan) (_ : State) : Option FaultCode := none

/-- R159 -/
def checkDmaDisable (_ : Chan) (s : State) : Option FaultCode := firstFault [(sessionOpen s, .phaseError)]

/-! ### DMA_CONFIGURE (R155) -/

/-- DMA_CONFIGURE's micro-program. -/
def runDmaConfigure (ch : Chan) (s : State) : State :=
  finish .ok 0x00 (uLoad ch s.larg0 (countOperand s.larg1) false s)

/-- DMA_CONFIGURE's statements. -/
def microDmaConfigure (ch : Chan) (s : State) : Option State :=
  match s.pos with
  | .body 0 => some (goto (.body 1) (uLoad ch s.larg0 (countOperand s.larg1) false s))
  | .body 1 => some (finish .ok 0x00 s)
  | _ => none

/-- DMA_CONFIGURE ch, p, c (R155): load a channel descriptor. -/
def execDmaConfigure (ch : Chan) (s : State) : Host.Outcome State Fault Refusal :=
  request (.dmaConfigure ch) (checkDmaConfigure ch s) (.body 0) (runDmaConfigure ch) s

/-! ### DMA_CONFIGURE_FILL (R156) -/

/-- DMA_CONFIGURE_FILL's micro-program. -/
def runDmaConfigureFill (s : State) : State :=
  finish .ok 0x00 (uLoad .tx 0x00000000 (countOperand s.larg1) true s)

/-- DMA_CONFIGURE_FILL's statements. -/
def microDmaConfigureFill (s : State) : Option State :=
  match s.pos with
  | .body 0 => some (goto (.body 1) (uLoad .tx 0x00000000 (countOperand s.larg1) true s))
  | .body 1 => some (finish .ok 0x00 s)
  | _ => none

/-- DMA_CONFIGURE_FILL TX, c (R156): load TX with the all-ones filler. -/
def execDmaConfigureFill (s : State) : Host.Outcome State Fault Refusal :=
  request .dmaConfigureFill (checkDmaConfigureFill s) (.body 0) runDmaConfigureFill s

/-! ### DMA_ENABLE (R157) -/

/-- DMA_ENABLE's micro-program. -/
def runDmaEnable (ch : Chan) (s : State) : State := finish .ok 0x00 (uEnable ch s)

/-- DMA_ENABLE's statements. -/
def microDmaEnable (ch : Chan) (s : State) : Option State :=
  match s.pos with
  | .body 0 => some (goto (.body 1) (uEnable ch s))
  | .body 1 => some (finish .ok 0x00 s)
  | _ => none

/-- DMA_ENABLE ch (R157): start a channel, with a stale descriptor too (R161). -/
def execDmaEnable (ch : Chan) (s : State) : Host.Outcome State Fault Refusal :=
  request (.dmaEnable ch) (checkDmaEnable ch s) (.body 0) (runDmaEnable ch) s

/-! ### DMA_IS_COMPLETE (R158) -/

/-- DMA_IS_COMPLETE's micro-program. -/
def runDmaIsComplete (ch : Chan) (s : State) : State := finish .ok (boolByte (s.chan ch).done) s

/-- DMA_IS_COMPLETE's statements. -/
def microDmaIsComplete (ch : Chan) (s : State) : Option State :=
  match s.pos with
  | .body 0 => some (finish .ok (boolByte (s.chan ch).done) s)
  | _ => none

/-- DMA_IS_COMPLETE ch (R158): read the completion flag. -/
def execDmaIsComplete (ch : Chan) (s : State) : Host.Outcome State Fault Refusal :=
  request (.dmaIsComplete ch) (checkDmaIsComplete ch s) (.body 0) (runDmaIsComplete ch) s

/-! ### DMA_DISABLE (R159) -/

/-- DMA_DISABLE's micro-program. -/
def runDmaDisable (ch : Chan) (s : State) : State := finish .ok 0x00 (uDisable ch s)

/-- DMA_DISABLE's statements. -/
def microDmaDisable (ch : Chan) (s : State) : Option State :=
  match s.pos with
  | .body 0 => some (goto (.body 1) (uDisable ch s))
  | .body 1 => some (finish .ok 0x00 s)
  | _ => none

/-- DMA_DISABLE ch (R159): stop a channel; the bytes not yet moved are never moved. -/
def execDmaDisable (ch : Chan) (s : State) : Host.Outcome State Fault Refusal :=
  request (.dmaDisable ch) (checkDmaDisable ch s) (.body 0) (runDmaDisable ch) s

end Sys2Proof.Machine
end

