-- ==== Sys2Proof/Machine/Session.lean ====
section
/-! DEFINITION. The sector session (spec/42_session.md): OPEN_WRITE (R182), TRANSFER (R183, with its write path R184 and its read path
R185), CLOSE_WRITE (R186), OPEN_READ (R187) and CLOSE_READ (R188), each with its checks at issue (`check…`, R181), its micro-program as one
whole (`run…`) and one statement per step (`micro…`), and its meaning (`exec…`). -/

namespace Sys2Proof.Machine

/-! ### Checks at issue (R181) -/

/-- The checks of both OPEN operations. -/
def openCheck (s : State) : Option FaultCode :=
  firstFault [(sessionOpen s, .phaseError), (sectorOutOfRange s.arg0, .operandRange),
    (s.tx.en || s.rx.en, .reloadWhileEnabled)]

/-- R181 -/
def checkOpenWrite (s : State) : Option FaultCode := openCheck s

/-- R181 -/
def checkOpenRead (s : State) : Option FaultCode := openCheck s

/-- R181 -/
def checkTransfer (s : State) : Option FaultCode :=
  firstFault [(s.phase != .opened, .phaseError), (s.sdir == .read && s.arg0 != s.rx.ptr, .bufferMismatch)]

/-- R181 -/
def checkCloseWrite (s : State) : Option FaultCode :=
  firstFault [(s.phase != .transferring || s.sdir != .write, .phaseError)]

/-- R181 -/
def checkCloseRead (s : State) : Option FaultCode :=
  firstFault [(s.phase != .transferring || s.sdir != .read, .phaseError)]

/-! ### What the OPEN operations share (R182, R187) -/

/-- The session record at the start of an OPEN: SECTOR, SDIR, and DATA_ACCEPTED cleared. -/
def recordSession (dir : SDir) (s : State) : State :=
  { s with sector := sectorOperand s.larg0, sdir := dir, dataAccepted := false }

/-- From the busy wait of an OPEN to its end: the command with code `cmd`, and after an accepted response the exchanges `tail`. -/
def openSession (cmd : Byte) (tail : State → State) (s : State) : State :=
  let waited := uWaitNotBusy s.params.openBusyBudget s
  if waited.1 then
    let answered := uCommand cmd (sectorAddress (sectorOperand s.larg0)) waited.2
    if accepted answered.1 then finish .ok answered.1 { tail answered.2 with phase := .opened }
    else finish .commandRejected answered.1 { uDeselect answered.2 with phase := .failed }
  else finish .cardBusyTimeout 0x00 { waited.2 with phase := .failed }

/-! ### OPEN_WRITE (R182) -/

/-- OPEN_WRITE's micro-program: after an accepted response, one synchronization byte and the data-start token. -/
def runOpenWrite (s : State) : State :=
  openSession s.params.cmdWriteBlock (fun t => uWrite s.params.startToken (uWrite clockByte t)) (recordSession .write s)

/-- OPEN_WRITE's statements. 0: s; 1: SECTOR; 2: SDIR; 3: DATA_ACCEPTED; then `uWaitNotBusy`; 4: if; 5, 6: CardBusyTimeout; then `uCommand`;
7: if; 8 to 10: CommandRejected; 11: synchronization byte; 12: token; 13: PHASE; 14: finish. -/
def microOpenWrite (s : State) : Option State :=
  match s.pos with
  | .body 0 => some { s with locals.s := sectorOperand s.larg0, pos := .body 1 }
  | .body 1 => some { s with sector := s.locals.s, pos := .body 2 }
  | .body 2 => some { s with sdir := .write, pos := .body 3 }
  | .body 3 => some { s with dataAccepted := false, pos := .wait 0 }
  | .wait n => microWait s.params.openBusyBudget (.body 4) s n
  | .body 4 => some (goto (if s.locals.ok then .cmd 0 else .body 5) s)
  | .body 5 => some { s with phase := .failed, pos := .body 6 }
  | .body 6 => some (finish .cardBusyTimeout 0x00 s)
  | .cmd n => microCommand s.params.cmdWriteBlock (sectorAddress s.locals.s) (.body 7) s n
  | .body 7 => some (goto (if accepted s.locals.r then .body 11 else .body 8) s)
  | .body 8 => some (goto (.body 9) (uDeselect s))
  | .body 9 => some { s with phase := .failed, pos := .body 10 }
  | .body 10 => some (finish .commandRejected s.locals.r s)
  | .body 11 => some (goto (.body 12) (uWrite clockByte s))
  | .body 12 => some (goto (.body 13) (uWrite s.params.startToken s))
  | .body 13 => some { s with phase := .opened, pos := .body 14 }
  | .body 14 => some (finish .ok s.locals.r s)
  | _ => none

/-- OPEN_WRITE s (R182): open a write session. -/
def execOpenWrite (s : State) : Host.Outcome State Fault Refusal :=
  request .openWrite (checkOpenWrite s) (.body 0) runOpenWrite s

/-! ### TRANSFER (R183) -/

/-- TRANSFER's first statement: the write path of R184 or the read path of R185, by the session's direction. -/
def transferFirst (s : State) : Pos :=
  match s.sdir with
  | .write => .body 0
  | .read => .readPath 0

/-- The write path up to its end (R184). The DMA engine moves the bytes while the sequencer awaits TX.DONE; where it has no step, TRANSFER
holds at the await with BUSY = 1 (R183; 70_reset_and_hazards.md R276; notes/assumptions/18.md). -/
def transferWrite (s : State) : State :=
  let started := uEnable .tx (uLoad .tx s.larg0 sectorSize false { s with phase := .transferring })
  let moved := awaitDma (fun t => t.tx.done) started.tx.rem.toNat started
  if moved.tx.done then finish .ok 0x00 (uDisable .tx moved)
  else { moved with pos := .body 4, locals.p := s.larg0 }

/-- The read path up to its end (R185), inbound enabled first; it awaits RX.DONE. -/
def transferRead (s : State) : State :=
  let started := uEnable .tx (uEnable .rx { s with phase := .transferring })
  let moved := awaitDma (fun t => t.rx.done) started.tx.rem.toNat started
  if moved.rx.done then finish .ok 0x00 (uDisable .rx (uDisable .tx moved))
  else { moved with pos := .readPath 3 }

/-- TRANSFER's micro-program. -/
def runTransfer (s : State) : State :=
  match s.sdir with
  | .write => transferWrite s
  | .read => transferRead s

/-- TRANSFER's statements. Write path, 0: p; 1: PHASE; 2: uLoad; 3: uEnable; 4: await TX.DONE; 5: uDisable; 6: finish. Read path, 0: PHASE;
1: uEnable(RX); 2: uEnable(TX); 3: await RX.DONE; 4: uDisable(TX); 5: uDisable(RX); 6: finish. At an await that does not hold the
sequencer has no step. -/
def microTransfer (s : State) : Option State :=
  match s.pos with
  | .body 0 => some { s with locals.p := s.larg0, pos := .body 1 }
  | .body 1 => some { s with phase := .transferring, pos := .body 2 }
  | .body 2 => some (goto (.body 3) (uLoad .tx s.locals.p sectorSize false s))
  | .body 3 => some (goto (.body 4) (uEnable .tx s))
  | .body 4 => if s.tx.done then some (goto (.body 5) s) else none
  | .body 5 => some (goto (.body 6) (uDisable .tx s))
  | .body 6 => some (finish .ok 0x00 s)
  | .readPath 0 => some { s with phase := .transferring, pos := .readPath 1 }
  | .readPath 1 => some (goto (.readPath 2) (uEnable .rx s))
  | .readPath 2 => some (goto (.readPath 3) (uEnable .tx s))
  | .readPath 3 => if s.rx.done then some (goto (.readPath 4) s) else none
  | .readPath 4 => some (goto (.readPath 5) (uDisable .tx s))
  | .readPath 5 => some (goto (.readPath 6) (uDisable .rx s))
  | .readPath 6 => some (finish .ok 0x00 s)
  | _ => none

/-- TRANSFER p (R183): move the 512 payload bytes of the open session. -/
def execTransfer (s : State) : Host.Outcome State Fault Refusal :=
  request .transfer (checkTransfer s) (transferFirst s) runTransfer s

/-! ### CLOSE_WRITE (R186) -/

/-- The post-write busy polls with `n` retries left: whether the card went not-busy. -/
def closePolls : Nat → State → Bool × State
  | 0, s => (false, s)
  | n + 1, s =>
    if (uWaitNotBusy s.params.closeBusyBudget s).1 then (true, (uWaitNotBusy s.params.closeBusyBudget s).2)
    else closePolls n (uWaitNotBusy s.params.closeBusyBudget s).2

/-- CLOSE_WRITE from the data-response token `t` on, the card deselected. -/
def closeAfterToken (t : Byte) (s : State) : State :=
  if tokenAccepted s.params t then
    let polled := closePolls s.params.closeRetries.toNat { s with dataAccepted := true }
    finish (if polled.1 then .ok else .cardBusyTimeout) t { polled.2 with phase := .closed }
  else finish .writeRejected t { s with dataAccepted := false, phase := .failed }

/-- CLOSE_WRITE's micro-program: two placeholder CRC bytes, the token, two trailing clock bytes, deselect, then by the token. -/
def runCloseWrite (s : State) : State :=
  let token := uRead (uWrite clockByte (uWrite clockByte { s with phase := .closing }))
  closeAfterToken token.1 (uDeselect (uWrite clockByte (uWrite clockByte token.2)))

/-- CLOSE_WRITE's statements. 0: PHASE; 1, 2: CRC; 3: t; 4, 5: trailing bytes; 6: CS; 7: if; 8 to 10: WriteRejected; 11: DATA_ACCEPTED; 12: k <- 0;
13: while; 14: k <- k + 1; then `uWaitNotBusy`; 15: if; 16, 17: OK; 18, 19: CardBusyTimeout. -/
def microCloseWrite (s : State) : Option State :=
  match s.pos with
  | .body 0 => some { s with phase := .closing, pos := .body 1 }
  | .body 1 => some (goto (.body 2) (uWrite clockByte s))
  | .body 2 => some (goto (.body 3) (uWrite clockByte s))
  | .body 3 => some { afterExchange clockByte s with locals.t := cardAnswer clockByte s, pos := .body 4 }
  | .body 4 => some (goto (.body 5) (uWrite clockByte s))
  | .body 5 => some (goto (.body 6) (uWrite clockByte s))
  | .body 6 => some (goto (.body 7) (uDeselect s))
  | .body 7 => some (goto (if tokenAccepted s.params s.locals.t then .body 11 else .body 8) s)
  | .body 8 => some { s with dataAccepted := false, pos := .body 9 }
  | .body 9 => some { s with phase := .failed, pos := .body 10 }
  | .body 10 => some (finish .writeRejected s.locals.t s)
  | .body 11 => some { s with dataAccepted := true, pos := .body 12 }
  | .body 12 => some { s with locals.k := 0, pos := .body 13 }
  | .body 13 => some (goto (if s.locals.k < s.params.closeRetries then .body 14 else .body 18) s)
  | .body 14 => some { s with locals.k := s.locals.k + 1, pos := .wait 0 }
  | .wait n => microWait s.params.closeBusyBudget (.body 15) s n
  | .body 15 => some (goto (if s.locals.ok then .body 16 else .body 13) s)
  | .body 16 => some { s with phase := .closed, pos := .body 17 }
  | .body 17 => some (finish .ok s.locals.t s)
  | .body 18 => some { s with phase := .closed, pos := .body 19 }
  | .body 19 => some (finish .cardBusyTimeout s.locals.t s)
  | _ => none

/-- CLOSE_WRITE (R186): close a write session. -/
def execCloseWrite (s : State) : Host.Outcome State Fault Refusal :=
  request .closeWrite (checkCloseWrite s) (.body 0) runCloseWrite s

/-! ### OPEN_READ (R187) -/

/-- OPEN_READ's micro-program: both channels are loaded before the busy wait; after an accepted response, one raw clock byte. -/
def runOpenRead (s : State) : State :=
  openSession s.params.cmdReadBlock (uWrite clockByte)
    (uLoad .tx 0x00000000 sectorSize true (uLoad .rx s.larg1 sectorSize false (recordSession .read s)))

/-- OPEN_READ's statements. 0: s; 1: q; 2: SECTOR; 3: SDIR; 4: DATA_ACCEPTED; 5: uLoad(RX); 6: uLoad(TX); then `uWaitNotBusy`; 7: if; 8, 9:
CardBusyTimeout; then `uCommand`; 10: if; 11 to 13: CommandRejected; 14: raw clock byte; 15: PHASE; 16: finish. -/
def microOpenRead (s : State) : Option State :=
  match s.pos with
  | .body 0 => some { s with locals.s := sectorOperand s.larg0, pos := .body 1 }
  | .body 1 => some { s with locals.q := s.larg1, pos := .body 2 }
  | .body 2 => some { s with sector := s.locals.s, pos := .body 3 }
  | .body 3 => some { s with sdir := .read, pos := .body 4 }
  | .body 4 => some { s with dataAccepted := false, pos := .body 5 }
  | .body 5 => some (goto (.body 6) (uLoad .rx s.locals.q sectorSize false s))
  | .body 6 => some (goto (.wait 0) (uLoad .tx 0x00000000 sectorSize true s))
  | .wait n => microWait s.params.openBusyBudget (.body 7) s n
  | .body 7 => some (goto (if s.locals.ok then .cmd 0 else .body 8) s)
  | .body 8 => some { s with phase := .failed, pos := .body 9 }
  | .body 9 => some (finish .cardBusyTimeout 0x00 s)
  | .cmd n => microCommand s.params.cmdReadBlock (sectorAddress s.locals.s) (.body 10) s n
  | .body 10 => some (goto (if accepted s.locals.r then .body 14 else .body 11) s)
  | .body 11 => some (goto (.body 12) (uDeselect s))
  | .body 12 => some { s with phase := .failed, pos := .body 13 }
  | .body 13 => some (finish .commandRejected s.locals.r s)
  | .body 14 => some (goto (.body 15) (uWrite clockByte s))
  | .body 15 => some { s with phase := .opened, pos := .body 16 }
  | .body 16 => some (finish .ok s.locals.r s)
  | _ => none

/-- OPEN_READ s, q (R187): open a read session into the buffer at q. -/
def execOpenRead (s : State) : Host.Outcome State Fault Refusal :=
  request .openRead (checkOpenRead s) (.body 0) runOpenRead s

/-! ### CLOSE_READ (R188) -/

/-- CLOSE_READ's micro-program: two CRC bytes received and discarded, then deselect. -/
def runCloseRead (s : State) : State :=
  let received := (uRead (uRead { s with phase := .closing }).2).2
  finish .ok 0x00 { uDeselect received with phase := .closed }

/-- CLOSE_READ's statements. 0: PHASE; 1, 2: CRC; 3: CS; 4: PHASE; 5: finish. -/
def microCloseRead (s : State) : Option State :=
  match s.pos with
  | .body 0 => some { s with phase := .closing, pos := .body 1 }
  | .body 1 => some (goto (.body 2) (uRead s).2)
  | .body 2 => some (goto (.body 3) (uRead s).2)
  | .body 3 => some (goto (.body 4) (uDeselect s))
  | .body 4 => some { s with phase := .closed, pos := .body 5 }
  | .body 5 => some (finish .ok 0x00 s)
  | _ => none

/-- CLOSE_READ (R188): close a read session. -/
def execCloseRead (s : State) : Host.Outcome State Fault Refusal :=
  request .closeRead (checkCloseRead s) (.body 0) runCloseRead s

end Sys2Proof.Machine
end

