-- ==== Sys2Proof/Machine/Sequencer.lean ====
section
/-! DEFINITION. The sequencer's step (10_state.md R21, R42), the checks and the first statement of every operation, the issue step of a CMD
word (30_encoding.md R107), and the step the SBT takes when the schedule names no agent. -/

namespace Sys2Proof.Machine

/-- The checks of each operation at issue (30_encoding.md R107; 60_exceptions.md R224). -/
def issueCheck (i : Instr) (s : State) : Option FaultCode :=
  match i with
  | .nop => checkNop s
  | .select => checkSelect s
  | .deselect => checkDeselect s
  | .writeByte _ => checkWriteByte s
  | .readByte => checkReadByte s
  | .sendCommand _ => checkSendCommand s
  | .waitNotBusy => checkWaitNotBusy s
  | .dmaConfigure ch => checkDmaConfigure ch s
  | .dmaConfigureFill => checkDmaConfigureFill s
  | .dmaEnable ch => checkDmaEnable ch s
  | .dmaIsComplete ch => checkDmaIsComplete ch s
  | .dmaDisable ch => checkDmaDisable ch s
  | .openWrite => checkOpenWrite s
  | .transfer => checkTransfer s
  | .closeWrite => checkCloseWrite s
  | .openRead => checkOpenRead s
  | .closeRead => checkCloseRead s

/-- The first statement of each operation's micro-program (30_encoding.md R107). -/
def firstStatement (i : Instr) (s : State) : Pos :=
  match i with
  | .sendCommand _ => .cmd 0
  | .waitNotBusy => .wait 0
  | .transfer => transferFirst s
  | .nop | .select | .deselect | .writeByte _ | .readByte | .dmaConfigure _ | .dmaConfigureFill | .dmaEnable _
  | .dmaIsComplete _ | .dmaDisable _ | .openWrite | .closeWrite | .openRead | .closeRead => .body 0

/-- One statement of the micro-program of each operation. -/
def microStep (i : Instr) (s : State) : Option State :=
  match i with
  | .nop => microNop s
  | .select => microSelect s
  | .deselect => microDeselect s
  | .writeByte b => microWriteByte b s
  | .readByte => microReadByte s
  | .sendCommand o => microSendCommand o s
  | .waitNotBusy => microWaitNotBusy s
  | .dmaConfigure ch => microDmaConfigure ch s
  | .dmaConfigureFill => microDmaConfigureFill s
  | .dmaEnable ch => microDmaEnable ch s
  | .dmaIsComplete ch => microDmaIsComplete ch s
  | .dmaDisable ch => microDmaDisable ch s
  | .openWrite => microOpenWrite s
  | .transfer => microTransfer s
  | .closeWrite => microCloseWrite s
  | .openRead => microOpenRead s
  | .closeRead => microCloseRead s

/-- The micro-program of each operation as one whole. -/
def wholeRun (i : Instr) (s : State) : State :=
  match i with
  | .nop => runNop s
  | .select => runSelect s
  | .deselect => runDeselect s
  | .writeByte b => runWriteByte b s
  | .readByte => runReadByte s
  | .sendCommand o => runSendCommand o s
  | .waitNotBusy => runWaitNotBusy s
  | .dmaConfigure ch => runDmaConfigure ch s
  | .dmaConfigureFill => runDmaConfigureFill s
  | .dmaEnable ch => runDmaEnable ch s
  | .dmaIsComplete ch => runDmaIsComplete ch s
  | .dmaDisable ch => runDmaDisable ch s
  | .openWrite => runOpenWrite s
  | .transfer => runTransfer s
  | .closeWrite => runCloseWrite s
  | .openRead => runOpenRead s
  | .closeRead => runCloseRead s

/-- The sequencer's step, if it has one: none when faulted (60_exceptions.md R227), when idle, and at an await that does not hold
(00_scope.md R9). -/
def sequencerStep? (s : State) : Option State :=
  if s.faulted then none
  else match s.lop with
    | none => none
    | some i => microStep i s

/-- `Issue(w)` (30_encoding.md R107): the host's write of word `w` to CMD, one atomic step. -/
def issueWord (w : Word) (s : State) : State :=
  match decode w with
  | .error _ => rejectWord w s
  | .ok i => issueThen i (issueCheck i s) (firstStatement i s) id s

/-- The SBT's own step, when the schedule is empty or names its own turn: the sequencer's if it has one, else the DMA engine's, else the machine stays as it is
(20_memory.md R78; notes/assumptions/2.md). -/
def ownStep (s : State) : State :=
  match sequencerStep? s with
  | some t => t
  | none => (dmaStep? s).getD s

end Sys2Proof.Machine
end

