-- ==== Sys2Proof/Machine/Host.lean ====
section
/-! DEFINITION. The host's side: the register window (spec/10_state.md R23, R24), the atomic steps the schedule can name (20_memory.md R70),
and the textual requests of 30_encoding.md R104 with their expansion R105. -/

namespace Sys2Proof.Machine

/-! ### The register window (R23, R24) -/

/-- What a 32-bit read at an offset of the window returns (10_state.md R23). -/
def windowValue (s : State) (off : Nat) : Word :=
  match off with
  | 0x04 => s.arg0
  | 0x08 => s.arg1
  | 0x0C => resultWord s
  | 0x10 => statusWord s
  | 0x14 => faultWord s
  | 0x18 => s.faultCmd
  | 0x1C => s.tx.ptr
  | 0x20 => s.tx.countWord
  | 0x24 => s.rx.ptr
  | 0x28 => s.rx.countWord
  | 0x2C => sectorWord s
  | _ => 0

/-- A 32-bit write at an offset of the window: CMD issues, ARG0 and ARG1 are stored, any other offset ignores it
(10_state.md R24). -/
def windowStore (off : Nat) (v : Word) (s : State) : State :=
  match off with
  | 0x00 => issueWord v s
  | 0x04 => { s with arg0 := v }
  | 0x08 => { s with arg1 := v }
  | _ => s

/-- The offset of an absolute address from SBT_BASE, if the access is 32 bits wide, 4-byte aligned and inside the window
(10_state.md R24). -/
def windowOffset (p : Params) (width : Nat) (addr : Word) : Option Nat :=
  let off := (addr - p.sbtBase).toNat
  if width = 32 ∧ off % 4 = 0 ∧ off < 0x100 then some off else none

/-- One atomic step of the agent the schedule names (20_memory.md R70). An agent that has no step lets its turn pass
(notes/assumptions/2.md). -/
def atomicStep (a : Atomic) (s : State) : Host.Outcome State Fault Refusal :=
  match a with
  | .windowWrite width addr v =>
    match windowOffset s.params width addr with
    | some off => .next (windowStore off v s)
    | none => .refused .windowAccess
  | .windowRead width addr =>
    match windowOffset s.params width addr with
    | some off => .next { s with hostData := windowValue s off }
    | none => .refused .windowAccess
  | .memoryStore addr b =>
    if admits s.params addr then .next (memWriteByte addr b s) else .fault .hostAccessUnbacked
  | .memoryLoad addr =>
    if admits s.params addr then .next { s with hostData := (memReadByte s addr).setWidth 32 } else .fault .hostAccessUnbacked
  | .sequencer => .next ((sequencerStep? s).getD s)
  | .dma => .next ((dmaStep? s).getD s)
  | .own => .next (ownStep s)
  | .reset => .next (resetSbt s)
  | .otherAgent => .refused .secondAgent

/-! ### POLL (30_encoding.md R105) -/

/-- The step is the host's own: a host that polls takes none of these. -/
def Atomic.byHost : Atomic → Bool
  | .windowWrite _ _ _ | .windowRead _ _ | .memoryStore _ _ | .memoryLoad _ => true
  | .sequencer | .dma | .own | .reset | .otherAgent => false

/-- POLL goes on: before its next read comes the turn of another agent, the one the schedule names next, or else the SBT's own
(notes/assumptions/25.md). -/
def pollAgain (rest : List Move) : List Move :=
  match rest with
  | .atomic a :: later => if a.byHost then .atomic .own :: .poll :: rest else .atomic a :: .poll :: later
  | _ => .atomic .own :: .poll :: rest

/-- One round of POLL, taken off the schedule: `R32 0x10 -> st`, and POLL goes on while `st[0]` is not 0 (30_encoding.md R105). -/
def pollRound (s : State) : State :=
  { s with hostData := windowValue s 0x10
           agenda := if (windowValue s 0x10).getLsbD 0 then pollAgain s.agenda else s.agenda }

/-! ### Textual requests and their expansion (R104, R105) -/

/-- A request of 30_encoding.md R104: an operation with the values of the argument registers it reads. -/
structure Request where
  op   : Instr
  arg0 : Option Word
  arg1 : Option Word
  deriving DecidableEq, Repr

/-- The operation reads ARG0 (30_encoding.md R104). -/
def readsArg0 : Instr → Bool
  | .sendCommand _ | .waitNotBusy | .dmaConfigure _ | .openWrite | .transfer | .openRead => true
  | .nop | .select | .deselect | .writeByte _ | .readByte | .dmaConfigureFill | .dmaEnable _ | .dmaIsComplete _ | .dmaDisable _
  | .closeWrite | .closeRead => false

/-- The operation reads ARG1 (30_encoding.md R104). -/
def readsArg1 : Instr → Bool
  | .dmaConfigure _ | .dmaConfigureFill | .openRead => true
  | .nop | .select | .deselect | .writeByte _ | .readByte | .sendCommand _ | .waitNotBusy | .dmaEnable _ | .dmaIsComplete _
  | .dmaDisable _ | .openWrite | .transfer | .closeWrite | .closeRead => false

/-- `W32 off, v` (30_encoding.md R105). -/
def w32 (p : Params) (off : Word) (v : Word) : Move := .atomic (.windowWrite 32 (p.sbtBase + off) v)

/-- The expansion of a request: W32 of ARG0 and of ARG1 where the operation reads them, then W32 of CMD, then POLL
(30_encoding.md R105). -/
def Request.moves (p : Params) (r : Request) : List Move :=
  (r.arg0.map (w32 p 0x04)).toList ++ (r.arg1.map (w32 p 0x08)).toList ++ [w32 p 0x00 (encode r.op), .poll]

/-- The value of a decimal or hexadecimal digit. -/
def digitValue (c : Char) : Option Nat :=
  if '0' ≤ c ∧ c ≤ '9' then some (c.toNat - '0'.toNat)
  else if 'a' ≤ c ∧ c ≤ 'f' then some (c.toNat - 'a'.toNat + 10)
  else if 'A' ≤ c ∧ c ≤ 'F' then some (c.toNat - 'A'.toNat + 10)
  else none

/-- Digits in a base, after those already read. -/
def parseDigits (base : Nat) : Nat → List Char → Option Nat
  | acc, [] => some acc
  | acc, c :: cs =>
    match digitValue c with
    | some d => if d < base then parseDigits base (acc * base + d) cs else none
    | none => none

/-- A number, decimal or with `0x` hexadecimal, that fits `width` bits (30_encoding.md R104). -/
def parseNumber (width : Nat) (cs : List Char) : Option (BitVec width) :=
  let n := match cs with
    | [] => none
    | '0' :: 'x' :: d :: ds => parseDigits 16 0 (d :: ds)
    | ds => parseDigits 10 0 ds
  match n with
  | some v => if v < 2 ^ width then some (BitVec.ofNat width v) else none
  | none => none

/-- A channel, `TX` or `RX` (30_encoding.md R104). -/
def parseChan (cs : List Char) : Option Chan :=
  if cs = ['T', 'X'] then some .tx else if cs = ['R', 'X'] then some .rx else none

/-- Split a text at every separator. -/
def splitAt (sep : Char → Bool) : List Char → List (List Char)
  | [] => [[]]
  | c :: cs =>
    if sep c then [] :: splitAt sep cs
    else match splitAt sep cs with
      | w :: ws => (c :: w) :: ws
      | [] => [[c]]

/-- The words of a request: split at spaces and commas, empty words dropped (30_encoding.md R104). -/
def requestWords (cs : List Char) : List (List Char) :=
  (splitAt (fun c => c == ' ' || c == ',') cs).filter (· ≠ [])

/-- The operation, ARG0 and ARG1 of a mnemonic and its operands (30_encoding.md R104). -/
def requestOf (name : String) (ops : List (List Char)) : Option Request :=
  match name, ops with
  | "NOP", [] => some ⟨.nop, none, none⟩
  | "SELECT", [] => some ⟨.select, none, none⟩
  | "DESELECT", [] => some ⟨.deselect, none, none⟩
  | "WRITE_BYTE", [b] => (parseNumber 8 b).map fun b => ⟨.writeByte b, none, none⟩
  | "READ_BYTE", [] => some ⟨.readByte, none, none⟩
  | "SEND_COMMAND", [o, a] =>
    (parseNumber 8 o).bind fun o => (parseNumber 32 a).map fun a => ⟨.sendCommand o, some a, none⟩
  | "WAIT_NOT_BUSY", [n] => (parseNumber 32 n).map fun n => ⟨.waitNotBusy, some n, none⟩
  | "DMA_CONFIGURE", [ch, p, c] =>
    (parseChan ch).bind fun ch => (parseNumber 32 p).bind fun p => (parseNumber 32 c).map fun c =>
      ⟨.dmaConfigure ch, some p, some c⟩
  | "DMA_CONFIGURE_FILL", [ch, c] =>
    if parseChan ch = some .tx then (parseNumber 32 c).map fun c => ⟨.dmaConfigureFill, none, some c⟩ else none
  | "DMA_ENABLE", [ch] => (parseChan ch).map fun ch => ⟨.dmaEnable ch, none, none⟩
  | "DMA_IS_COMPLETE", [ch] => (parseChan ch).map fun ch => ⟨.dmaIsComplete ch, none, none⟩
  | "DMA_DISABLE", [ch] => (parseChan ch).map fun ch => ⟨.dmaDisable ch, none, none⟩
  | "OPEN_WRITE", [s] => (parseNumber 32 s).map fun s => ⟨.openWrite, some s, none⟩
  | "TRANSFER", [p] => (parseNumber 32 p).map fun p => ⟨.transfer, some p, none⟩
  | "CLOSE_WRITE", [] => some ⟨.closeWrite, none, none⟩
  | "OPEN_READ", [s, q] =>
    (parseNumber 32 s).bind fun s => (parseNumber 32 q).map fun q => ⟨.openRead, some s, some q⟩
  | "CLOSE_READ", [] => some ⟨.closeRead, none, none⟩
  | _, _ => none

/-- Read a request `MNEMONIC operands` (30_encoding.md R104; notes/assumptions/21.md). -/
def parseRequest (text : List Char) : Option Request :=
  match requestWords text with
  | [] => none
  | name :: ops => requestOf (String.ofList name) ops

end Sys2Proof.Machine
end

