-- ==== Sys2Proof/Machine/Dispatch.lean ====
section
/-! DEFINITION. exec: one arm per constructor of Instr, each one direct call of its meaning. -/

namespace Sys2Proof.Machine

def exec (i : Instr) (s : State) : Host.Outcome State Fault Refusal :=
  match i with
  -- the block transport (40_transport.md)
  | .nop => Sys2Proof.Machine.execNop s
  | .select => Sys2Proof.Machine.execSelect s
  | .deselect => Sys2Proof.Machine.execDeselect s
  | .writeByte b => Sys2Proof.Machine.execWriteByte b s
  | .readByte => Sys2Proof.Machine.execReadByte s
  | .sendCommand o => Sys2Proof.Machine.execSendCommand o s
  | .waitNotBusy => Sys2Proof.Machine.execWaitNotBusy s
  -- the DMA sector channel (41_dma.md)
  | .dmaConfigure ch => Sys2Proof.Machine.execDmaConfigure ch s
  | .dmaConfigureFill => Sys2Proof.Machine.execDmaConfigureFill s
  | .dmaEnable ch => Sys2Proof.Machine.execDmaEnable ch s
  | .dmaIsComplete ch => Sys2Proof.Machine.execDmaIsComplete ch s
  | .dmaDisable ch => Sys2Proof.Machine.execDmaDisable ch s
  -- the sector session (42_session.md)
  | .openWrite => Sys2Proof.Machine.execOpenWrite s
  | .transfer => Sys2Proof.Machine.execTransfer s
  | .closeWrite => Sys2Proof.Machine.execCloseWrite s
  | .openRead => Sys2Proof.Machine.execOpenRead s
  | .closeRead => Sys2Proof.Machine.execCloseRead s

end Sys2Proof.Machine
end

