-- ==== Sys2Proof/Machine/Step.lean ====
section
/-! DEFINITION. One step of the machine: the next move of the agenda is taken. A request decodes its CMD word and is `exec` of the operation;
an atomic move is one step of the agent it names; POLL is one read of STATUS a step; with an empty agenda the SBT takes its own step. -/

namespace Sys2Proof.Machine

/-- One step (20_memory.md R70; notes/assumptions/1.md, 2.md). -/
def step (s : State) : Host.Outcome State Fault Refusal :=
  match s.agenda with
  | [] => .next (ownStep s)
  | .request w :: rest =>
    match decode w with
    | .ok i => exec i { s with agenda := rest }
    | .error _ => .next (rejectWord w { s with agenda := rest })
  | .atomic a :: rest => atomicStep a { s with agenda := rest }
  | .poll :: rest => .next (pollRound { s with agenda := rest })

/-- `s` with the request of the CMD word whose bits are `w` placed as the very next move. The SBT fetches no instruction: a host writes
CMD, and the placed request stands for that write (notes/assumptions/3.md). -/
def State.withFetchWord (s : State) (nbits w : Nat) : State :=
  { s with agenda := .request (BitVec.ofNat 32 (w % 2 ^ nbits)) :: s.agenda }

end Sys2Proof.Machine
end

