-- ==== Sys2Proof/Safety.lean ====
section
/-! DEFINITION. The terms claims are stated in: when a request is accepted (30_encoding.md R107), the state a finished operation leaves, what
stands on the wire for a command, a busy poll and a close (30_encoding.md R96 to R102), the fault table (60_exceptions.md R222, R224), how
a run ends (70_reset_and_hazards.md R278; 60_exceptions.md R227), and the invariants of the machine. -/

namespace Sys2Proof.Machine

/-! ### When a request is accepted, and what it leaves -/

/-- Neither faulted nor busy: a CMD word is decoded and checked (30_encoding.md R107). -/
abbrev State.accepts (s : State) : Prop := s.faulted = false ∧ s.busy = false

/-- A transport operation passes its checks (40_transport.md R128). -/
abbrev State.quiet (s : State) : Prop := s.accepts ∧ sessionOpen s = false ∧ dmaOwnsBus s = false

/-- An OPEN passes its checks (42_session.md R181). -/
abbrev State.mayOpen (s : State) : Prop :=
  s.accepts ∧ sessionOpen s = false ∧ s.arg0.extractLsb' 23 9 = 0 ∧ s.tx.en = false ∧ s.rx.en = false

/-- `s` after an operation that took its operands from ARG0 and ARG1 has finished: RESULT is written, BUSY is 0, and the sequencer is idle
(00_scope.md R9; 10_state.md R21, R42). -/
def State.completed (s : State) (code : ResultCode) (data : Byte) : State :=
  { s with resultCode := code, resultData := data, busy := false, lop := none, pos := .idle, locals := Locals.zero,
           larg0 := s.arg0, larg1 := s.arg1 }

/-- `s` after the exchanges `h`: they are appended to the history and have used up as many scripted answers. -/
def State.exchanged (s : State) (h : List Exchange) : State :=
  { s with history := s.history ++ h, cardScript := s.cardScript.drop h.length }

/-- `s` after fault entry with code `code` at the CMD word `w` (60_exceptions.md R226). -/
def State.withFault (s : State) (code : FaultCode) (w : Word) : State :=
  { s with fcode := code, faultCmd := w, faulted := true, busy := false, lop := none, pos := .halted }

/-! ### What stands on the wire -/

/-- What the SBT drove: chip-select and byte out of each exchange. -/
def wireOut (h : List Exchange) : List (Bool × Byte) := h.map fun e => (e.cs, e.out)

/-- The inbound bytes of exchanges made from `s` are the scripted answers, as far as the script goes. -/
def answersScripted (s : State) (h : List Exchange) : Prop :=
  ∀ j, (hj : j < h.length) → ∀ x, s.cardScript[j]? = some x → h[j].inp = x

/-- The exchanges of one busy poll of at most `n` exchanges: CLOCK_BYTE with CS = 1, until READY_BYTE comes (`ok`) or `n` have been made
(40_transport.md R120; 30_encoding.md R102). -/
def BusyPoll (p : Params) (n : Nat) (ok : Bool) (h : List Exchange) : Prop :=
  (∀ e ∈ h, e.cs = true ∧ e.out = 0xFF) ∧
  if ok then h.length ≤ n ∧ ∃ busy last, h = busy ++ [last] ∧ last.inp = p.readyByte ∧ ∀ e ∈ busy, e.inp ≠ p.readyByte
  else h.length = n ∧ ∀ e ∈ h, e.inp ≠ p.readyByte

/-- The exchanges of a response poll that finds response `r`: CLOCK_BYTE with CS = 1, the first inbound byte other than IDLE_BYTE, or
IDLE_BYTE after N_RESP of them (30_encoding.md R98). -/
def ResponsePoll (p : Params) (r : Byte) (h : List Exchange) : Prop :=
  (∀ e ∈ h, e.cs = true ∧ e.out = 0xFF) ∧
  ((r = p.idleByte ∧ h.length = p.nResp.toNat ∧ ∀ e ∈ h, e.inp = p.idleByte) ∨
   (r ≠ p.idleByte ∧ h.length ≤ p.nResp.toNat ∧ ∃ idle last, h = idle ++ [last] ∧ last.inp = r ∧ ∀ e ∈ idle, e.inp = p.idleByte))

/-- The exchanges of a command with wire opcode `o` and byte address `a` that is answered `r`: the six frame bytes and then the response
poll, all with CS = 1 (30_encoding.md R96, R98). -/
def CommandExchanges (p : Params) (o : Byte) (a : Word) (r : Byte) (h : List Exchange) : Prop :=
  ∃ frame polls, h = frame ++ polls ∧
    wireOut frame = [(true, o), (true, a.extractLsb' 24 8), (true, a.extractLsb' 16 8), (true, a.extractLsb' 8 8),
      (true, a.extractLsb' 0 8), (true, p.cmdTrailer)] ∧
    ResponsePoll p r polls

/-- The post-write polls of CLOSE_WRITE: at most CLOSE_RETRIES busy polls of CLOSE_BUSY_BUDGET exchanges, ending with the first that finds
the card not busy (`ok`), or all of them in vain (42_session.md R186). -/
def ClosePolls (p : Params) (ok : Bool) (h : List Exchange) : Prop :=
  ∃ vain : List (List Exchange), (∀ l ∈ vain, BusyPoll p p.closeBusyBudget.toNat false l) ∧
    if ok then vain.length < p.closeRetries.toNat ∧ ∃ last, BusyPoll p p.closeBusyBudget.toNat true last ∧ h = vain.flatten ++ last
    else vain.length = p.closeRetries.toNat ∧ h = vain.flatten

/-- The outcomes of an OPEN with command code `o`, from the busy wait on: the result code and data, the phase, chip-select, and the exchanges
`h`, where an accepted command is followed by exchanges that drive `tail` (42_session.md R182, R187). -/
def OpenOutcome (p : Params) (o : Byte) (a : Word) (tail : List Byte)
    (code : ResultCode) (data : Byte) (phase : Phase) (cs : Bool) (h : List Exchange) : Prop :=
  (code = .cardBusyTimeout ∧ data = 0 ∧ phase = .failed ∧ cs = false ∧ BusyPoll p p.openBusyBudget.toNat false h) ∨
  (code = .commandRejected ∧ data ≠ 0 ∧ phase = .failed ∧ cs = false ∧
    ∃ wait cmd, h = wait ++ cmd ∧ BusyPoll p p.openBusyBudget.toNat true wait ∧ CommandExchanges p o a data cmd) ∨
  (code = .ok ∧ data = 0 ∧ phase = .opened ∧ cs = true ∧
    ∃ wait cmd last, h = wait ++ cmd ++ last ∧ BusyPoll p p.openBusyBudget.toNat true wait ∧ CommandExchanges p o a 0 cmd ∧
      wireOut last = tail.map fun b => (true, b))

/-! ### The fault table (60_exceptions.md R222, R224) -/

/-- The transport operations that check the phase and the bus (40_transport.md R128). -/
def isTransport : Instr → Bool
  | .select | .deselect | .writeByte _ | .readByte | .sendCommand _ | .waitNotBusy => true
  | .nop | .dmaConfigure _ | .dmaConfigureFill | .dmaEnable _ | .dmaIsComplete _ | .dmaDisable _ | .openWrite | .transfer
  | .closeWrite | .openRead | .closeRead => false

/-- The session phase forbids the operation (60_exceptions.md R222 code 3; 42_session.md R180, R181). -/
def phaseForbids (i : Instr) (s : State) : Bool :=
  match i with
  | .nop | .dmaIsComplete _ => false
  | .select | .deselect | .writeByte _ | .readByte | .sendCommand _ | .waitNotBusy
  | .dmaConfigure _ | .dmaConfigureFill | .dmaEnable _ | .dmaDisable _
  | .openWrite | .openRead => s.phase == .opened || s.phase == .transferring
  | .transfer => s.phase != .opened
  | .closeWrite => s.phase != .transferring || s.sdir != .write
  | .closeRead => s.phase != .transferring || s.sdir != .read

/-- An operand is out of range (60_exceptions.md R222 code 4). -/
def operandOutOfRange (i : Instr) (s : State) : Bool :=
  match i with
  | .dmaConfigure _ | .dmaConfigureFill => 0x10000 ≤ s.arg1.toNat
  | .openWrite | .openRead => 0x800000 ≤ s.arg0.toNat
  | _ => false

/-- A descriptor of an enabled channel would be reloaded (60_exceptions.md R222 code 5). -/
def reloadsEnabled (i : Instr) (s : State) : Bool :=
  match i with
  | .dmaConfigure .tx | .dmaConfigureFill => s.tx.en
  | .dmaConfigure .rx => s.rx.en
  | .openWrite | .openRead => s.tx.en || s.rx.en
  | _ => false

/-- An enabled channel would be enabled (60_exceptions.md R222 code 6). -/
def enablesEnabled (i : Instr) (s : State) : Bool :=
  match i with
  | .dmaEnable .tx => s.tx.en
  | .dmaEnable .rx => s.rx.en
  | _ => false

/-- A channel never loaded since reset would be enabled (60_exceptions.md R222 code 7). -/
def enablesUnloaded (i : Instr) (s : State) : Bool :=
  match i with
  | .dmaEnable .tx => !s.tx.cfg
  | .dmaEnable .rx => !s.rx.cfg
  | _ => false

/-- A transport operation while the DMA engine owns the bus (60_exceptions.md R222 code 8). -/
def conflictsWithDma (i : Instr) (s : State) : Bool :=
  isTransport i && ((s.tx.en && s.tx.rem != 0) || (s.rx.en && s.rx.rem != 0))

/-- A read-session TRANSFER names another buffer than its OPEN_READ (60_exceptions.md R222 code 9). -/
def namesOtherBuffer (i : Instr) (s : State) : Bool :=
  match i with
  | .transfer => s.sdir == .read && s.arg0 != s.rx.ptr
  | _ => false

/-- The causes a decoded request can fault on, in the order of 60_exceptions.md R224. -/
def faultCauses (i : Instr) (s : State) : List (Bool × FaultCode) :=
  [(s.busy, .requestWhileBusy), (phaseForbids i s, .phaseError), (operandOutOfRange i s, .operandRange),
   (reloadsEnabled i s, .reloadWhileEnabled), (enablesEnabled i s, .enableWhileEnabled), (enablesUnloaded i s, .notConfigured),
   (conflictsWithDma i s, .busConflict), (namesOtherBuffer i s, .bufferMismatch)]

/-- The code of the first cause that holds. -/
def faultOf (i : Instr) (s : State) : Option FaultCode := ((faultCauses i s).find? (·.1)).map (·.2)

/-! ### How a run ends -/

/-- A run ends well: no more moves, not busy, not faulted, no DMA run under way (70_reset_and_hazards.md R278). -/
def State.goodEnd (s : State) : Bool := s.agenda.isEmpty && !s.busy && !s.faulted && !dmaOwnsBus s

/-- A reached state with FAULTED = 1 is a failed run (60_exceptions.md R227). -/
def State.failedRun (s : State) : Bool := s.faulted

/-! ### Invariants -/

/-- BUSY, LOP, the position and the fault record agree (10_state.md R30, R35 to R37, R42; 60_exceptions.md R226). -/
def ControlInv (s : State) : Prop :=
  (s.busy = s.lop.isSome) ∧
  (s.faulted = true → s.busy = false ∧ s.fcode ≠ .none) ∧
  (s.faulted = false → s.fcode = .none ∧ s.faultCmd = 0) ∧
  (s.lop = none → s.pos = .idle ∨ s.pos = .halted)

/-- A channel record is consistent: REM never exceeds COUNT, DONE is 1 only when REM is 0, a channel loaded since its last enable has been
loaded, and a channel never loaded since reset has its reset descriptor (10_state.md R38 to R40). -/
def ChannelOk (c : Channel) : Prop :=
  c.rem ≤ c.count ∧ (c.done = true → c.rem = 0) ∧ (c.loaded = true → c.cfg = true) ∧ (c.cfg = false → c.ptr = 0 ∧ c.count = 0)

/-- Both channel records are consistent. -/
def ChannelInv (s : State) : Prop := ChannelOk s.tx ∧ ChannelOk s.rx

/-- Both descriptors are as OPEN_READ loads them (42_session.md R187). -/
def readLoaded (s : State) : Prop := s.rx.count = 512 ∧ s.tx.count = 512 ∧ s.txFill = true

/-- What holds of the phase, chip-select and the channels at each point of an operation (40_transport.md R130; 42_session.md R180, R181).
Between operations: the phase is never closing, and an open session has CS = 1, both channels disabled, and in a read session both
descriptors as OPEN_READ loaded them. -/
def SessionAt (s : State) : Prop :=
  match s.lop with
  | none | some .nop | some (.dmaIsComplete _) =>
    s.phase ≠ .closing ∧
    (sessionOpen s = true → s.cs = true ∧ s.tx.en = false ∧ s.rx.en = false ∧ (s.sdir = .read → readLoaded s))
  | some .select | some .deselect | some (.writeByte _) | some .readByte | some (.sendCommand _) | some .waitNotBusy
  | some (.dmaConfigure _) | some .dmaConfigureFill | some (.dmaEnable _) | some (.dmaDisable _) =>
    s.phase ≠ .closing ∧ sessionOpen s = false
  | some .openWrite =>
    s.phase ≠ .closing ∧ s.tx.en = false ∧ s.rx.en = false ∧
    match s.pos with
    | .cmd n => sessionOpen s = false ∧ s.sdir = .write ∧ (n ≠ 0 → s.cs = true)
    | .body n => (n ≠ 14 → sessionOpen s = false) ∧ (3 ≤ n → s.sdir = .write) ∧ (n = 7 ∨ 11 ≤ n → s.cs = true)
    | _ => sessionOpen s = false ∧ s.sdir = .write
  | some .openRead =>
    s.phase ≠ .closing ∧ s.tx.en = false ∧ s.rx.en = false ∧
    match s.pos with
    | .cmd n => sessionOpen s = false ∧ readLoaded s ∧ (n ≠ 0 → s.cs = true)
    | .body n => (n ≠ 16 → sessionOpen s = false) ∧ (n = 6 → s.rx.count = 512) ∧ (7 ≤ n → readLoaded s) ∧
        (n = 10 ∨ 14 ≤ n → s.cs = true)
    | _ => sessionOpen s = false ∧ readLoaded s
  | some .transfer =>
    sessionOpen s = true ∧ s.cs = true ∧
    match s.pos with
    | .body n => s.sdir = .write ∧ s.rx.en = false ∧ (n = 6 → s.tx.en = false)
    | .readPath n => readLoaded s ∧ (5 ≤ n → s.tx.en = false) ∧ (6 ≤ n → s.rx.en = false)
    | _ => True
  | some .closeWrite =>
    s.tx.en = false ∧ s.rx.en = false ∧ (sessionOpen s = true → s.pos = .body 0) ∧
    (s.pos = .body 10 ∨ s.pos = .body 17 ∨ s.pos = .body 19 → s.phase ≠ .closing)
  | some .closeRead =>
    s.tx.en = false ∧ s.rx.en = false ∧ (sessionOpen s = true → s.pos = .body 0) ∧
    (s.pos = .body 5 → s.phase ≠ .closing)

/-- Outside the faulted state, `SessionAt` holds (a fault abandons an operation where it stood, 60_exceptions.md R226). -/
def SessionInv (s : State) : Prop := s.faulted = false → SessionAt s

end Sys2Proof.Machine
end

