-- ==== Sys2Proof/Certificates/Slice0/Obligations.lean ====
section
/-! DEFINITION. The statements for the provers, from the numbered rules of spec/. Each docstring names the rules it formalises; every
statement holds for every value of the parameters and every card, since both stand in the state or are opaque. -/

open Sys2Proof Sys2Proof.Machine

/-! ### The request encoding (30_encoding.md) -/

/-- The decoder reads the words of 95_test_vectors.md section 2.1 as listed there: one of each operation, and the illegal ones. -/
def Obligations.DecodeReadsVectorWords : Prop :=
  (decode 0x00000000 = .ok .nop ∧ decode 0x00000001 = .ok .select ∧ decode 0x00000002 = .ok .deselect ∧
   decode 0x0000A503 = .ok (.writeByte 0xA5) ∧ decode 0x00000003 = .ok (.writeByte 0x00) ∧ decode 0x00000004 = .ok .readByte ∧
   decode 0x00005105 = .ok (.sendCommand 0x51) ∧ decode 0x00000006 = .ok .waitNotBusy) ∧
  (decode 0x00000010 = .ok (.dmaConfigure .tx) ∧ decode 0x00000050 = .ok (.dmaConfigure .rx) ∧
   decode 0x00000090 = .ok .dmaConfigureFill ∧ decode 0x00000011 = .ok (.dmaEnable .tx) ∧ decode 0x00000051 = .ok (.dmaEnable .rx) ∧
   decode 0x00000012 = .ok (.dmaIsComplete .tx) ∧ decode 0x00000052 = .ok (.dmaIsComplete .rx) ∧
   decode 0x00000013 = .ok (.dmaDisable .tx) ∧ decode 0x00000053 = .ok (.dmaDisable .rx)) ∧
  (decode 0x00000020 = .ok .openWrite ∧ decode 0x00000021 = .ok .transfer ∧ decode 0x00000022 = .ok .closeWrite ∧
   decode 0x00000023 = .ok .openRead ∧ decode 0x00000024 = .ok .closeRead) ∧
  (∀ w ∈ ([0x00000007, 0x0000000F, 0x00000014, 0x0000001F, 0x00000025, 0x0000003F, 0x00010000, 0x80000020, 0x00000041,
      0x00000083, 0x000000D0, 0x00000091, 0x00000101, 0x00000160] : List Word), ∃ r, decode w = .error r)

/-- Every operation, with every value of its operands, is read back from its word (R91, R92, R106). -/
def Obligations.DecodeInvertsEncode : Prop := ∀ i : Instr, decode (encode i) = .ok i

/-- A word that decodes is the word of the operation it decodes to, so each operation has one word (R91, R106). -/
def Obligations.EncodeInvertsDecode : Prop := ∀ (w : Word) (i : Instr), decode w = .ok i → encode i = w

/-- The match and mask table (R93): a word spells a row exactly when it decodes to an operation of the row's mnemonic (with the free fields
taken from the word), and no two rows match the same word. -/
def Obligations.DecodeAgreesWithTable : Prop :=
  (∀ (w : Word), ∀ row ∈ matchMaskTable,
    w &&& row.2.2 = row.2.1 ↔ ∃ i, decode w = .ok i ∧ mnemonic i = row.1 ∧ encode i = w) ∧
  (∀ (w : Word), ∀ row ∈ matchMaskTable, ∀ row' ∈ matchMaskTable,
    w &&& row.2.2 = row.2.1 → w &&& row'.2.2 = row'.2.1 → row = row')

/-- A word is illegal exactly in the five cases R94 lists. -/
def Obligations.IllegalWordsAreListed : Prop :=
  ∀ w : Word, (∃ r, decode w = .error r) ↔
    (w.extractLsb' 16 16 ≠ 0 ∨
     ((0x07 ≤ w.extractLsb' 0 6 ∧ w.extractLsb' 0 6 ≤ 0x0F) ∨ (0x14 ≤ w.extractLsb' 0 6 ∧ w.extractLsb' 0 6 ≤ 0x1F) ∨
      0x25 ≤ w.extractLsb' 0 6) ∨
     (w.getLsbD 6 = true ∧ ¬ (0x10 ≤ w.extractLsb' 0 6 ∧ w.extractLsb' 0 6 ≤ 0x13)) ∨
     (w.getLsbD 7 = true ∧ ¬ (w.extractLsb' 0 6 = 0x10 ∧ w.getLsbD 6 = false)) ∨
     (w.extractLsb' 8 8 ≠ 0 ∧ w.extractLsb' 0 6 ≠ 0x03 ∧ w.extractLsb' 0 6 ≠ 0x05))

/-! ### Stepping and issuing (30_encoding.md R107, 60_exceptions.md) -/

/-- A step runs the decoded operation: with a request of a word that decodes to `i` next on the agenda, the step is `exec i` of the state with
the request taken off; and `withFetchWord` places just that request. The request as one step and its placing are the model's choices
(notes/assumptions/1.md, 3.md). -/
def Obligations.StepRunsDecodedRequest : Prop :=
  (∀ (s : State) (w : Word) (rest : List Move) (i : Instr),
    s.agenda = .request w :: rest → decode w = .ok i → step s = exec i { s with agenda := rest }) ∧
  (∀ (s : State) (w : Word) (i : Instr), decode w = .ok i → step (s.withFetchWord 32 w.toNat) = exec i s)

/-- The host's write of any word to CMD, as one atomic step (R107, with the order of R224 and the fault entry of R226): ignored when faulted;
RequestWhileBusy when busy; IllegalRequest when the word spells no operation; the first failing check; or the operation is latched. That
issue zeroes the locals is the model's choice (notes/assumptions/9.md). -/
def Obligations.CmdWriteIssues : Prop :=
  ∀ (s : State) (w : Word) (rest : List Move),
    s.agenda = .atomic (.windowWrite 32 s.params.sbtBase w) :: rest →
    step s = .next (
      if s.faulted then { s with agenda := rest }
      else if s.busy then { s with agenda := rest }.withFault .requestWhileBusy w
      else match decode w with
        | .error _ => { s with agenda := rest }.withFault .illegalRequest w
        | .ok i => match faultOf i s with
          | some code => { s with agenda := rest }.withFault code w
          | none => { s with agenda := rest, lop := some i, larg0 := s.arg0, larg1 := s.arg1, busy := true,
                             pos := firstStatement i s, locals := Locals.zero })

/-- A request reports the first cause of R222 that holds, in the order of R224, and does nothing else (R226); when none holds it does not
fault. A request of a word that spells no operation faults IllegalRequest, or RequestWhileBusy when busy. Running the request whole is the
model's choice (notes/assumptions/1.md); that FAULT_CMD is then the one word that encodes the operation is deduced from R91 and R106
(notes/assumptions/17.md). -/
def Obligations.RequestFaultsInOrder : Prop :=
  (∀ (i : Instr) (s : State), s.faulted = false →
    match faultOf i s with
    | some code => exec i s = .next (s.withFault code (encode i))
    | none => ∃ t, exec i s = .next t ∧ t.faulted = false ∧ t.fcode = s.fcode ∧ t.faultCmd = s.faultCmd) ∧
  (∀ (s : State) (w : Word) (rest : List Move) (r : Reject),
    s.agenda = .request w :: rest → decode w = .error r → s.faulted = false →
    step s = .next ({ s with agenda := rest }.withFault (if s.busy then .requestWhileBusy else .illegalRequest) w))

/-- In the faulted state every request is ignored (CmdWriteIssues says so of the bare CMD write), and ARG0 and ARG1 are still written (R227).
Running the request whole is the model's choice (notes/assumptions/1.md). -/
def Obligations.FaultedIgnoresRequests : Prop :=
  ∀ (s : State), s.faulted = true →
    (∀ i, exec i s = .next s) ∧
    (∀ (w : Word) (rest : List Move), s.agenda = .request w :: rest → step s = .next { s with agenda := rest }) ∧
    (∀ (w : Word) (rest : List Move), s.agenda = .atomic (.windowWrite 32 (s.params.sbtBase + 0x04) w) :: rest →
      step s = .next { s with agenda := rest, arg0 := w }) ∧
    (∀ (w : Word) (rest : List Move), s.agenda = .atomic (.windowWrite 32 (s.params.sbtBase + 0x08) w) :: rest →
      step s = .next { s with agenda := rest, arg1 := w })

/-! ### The block transport (40_transport.md) -/

/-- NOP (R121) completes in every phase and while DMA runs: RESULT is cleared and no other register changes. SELECT and DESELECT (R122, R123) set
chip-select, whatever it was, and exchange nothing. The request run whole, and what `completed` leaves in the hidden sequencer state, are
the model's choices (notes/assumptions/1.md, 9.md, 10.md). -/
def Obligations.NopSelectDeselectComplete : Prop :=
  ∀ s : State,
    (s.accepts → exec .nop s = .next (s.completed .ok 0)) ∧
    (s.quiet → exec .select s = .next ({ s with cs := true }.completed .ok 0)) ∧
    (s.quiet → exec .deselect s = .next ({ s with cs := false }.completed .ok 0))

/-- WRITE_BYTE b (R124) makes one exchange of b at the present chip-select and discards the answer. The request run whole, and what
`completed` leaves in the hidden sequencer state, are the model's choices (notes/assumptions/1.md, 9.md, 10.md). The scripted answers, of
which the exchange uses up one, are the model's form of the card oracle (notes/assumptions/5.md). -/
def Obligations.WriteByteCompletes : Prop :=
  ∀ (s : State) (b : Byte), s.quiet →
    exec (.writeByte b) s = .next ((s.exchanged [⟨s.cs, b, cardAnswer b s⟩]).completed .ok 0)

/-- READ_BYTE (R125) makes one exchange of CLOCK_BYTE at the present chip-select and returns the answer. The request run whole, and what
`completed` leaves in the hidden sequencer state, are the model's choices (notes/assumptions/1.md, 9.md, 10.md). The scripted answers, of
which the exchange uses up one, are the model's form of the card oracle (notes/assumptions/5.md). -/
def Obligations.ReadByteCompletes : Prop :=
  ∀ s : State, s.quiet →
    exec .readByte s = .next ((s.exchanged [⟨s.cs, 0xFF, cardAnswer 0xFF s⟩]).completed .ok (cardAnswer 0xFF s))

/-- What the card answers is the next scripted answer, or else the oracle's of the history, chip-select and byte out (00_scope.md R9). The
scripted answers are the model's form of the card oracle (notes/assumptions/5.md). -/
def Obligations.CardAnswersExchange : Prop :=
  ∀ (s : State) (b : Byte),
    (∀ x xs, s.cardScript = x :: xs → cardAnswer b s = x) ∧
    (s.cardScript = [] → cardAnswer b s = Config.card s.history s.cs b) ∧
    (exchange b s).1 = cardAnswer b s ∧
    (exchange b s).2 = s.exchanged [⟨s.cs, b, cardAnswer b s⟩]

/-- SEND_COMMAND o, A (R126): the six bytes of the frame and the response poll of R98, CS left at 1, RESULT.DATA the response. The request
run whole, and what `completed` leaves in the hidden sequencer state, are the model's choices (notes/assumptions/1.md, 9.md, 10.md). The
scripted answers are the model's form of the card oracle (notes/assumptions/5.md). -/
def Obligations.SendCommandCompletes : Prop :=
  ∀ (s : State) (o : Byte), s.quiet →
    ∃ r h, exec (.sendCommand o) s = .next (({ s with cs := true }.exchanged h).completed .ok r) ∧
      CommandExchanges s.params o s.arg0 r h ∧ answersScripted s h

/-- WAIT_NOT_BUSY n (R127): one busy poll of at most n exchanges, DATA 1 if READY_BYTE came and else 0, CS 0 at the end. The request run
whole, and what `completed` leaves in the hidden sequencer state, are the model's choices (notes/assumptions/1.md, 9.md, 10.md). The
scripted answers are the model's form of the card oracle (notes/assumptions/5.md). -/
def Obligations.WaitNotBusyCompletes : Prop :=
  ∀ s : State, s.quiet →
    ∃ ok h, exec .waitNotBusy s =
        .next (({ s with cs := false }.exchanged h).completed .ok (if ok = true then 1 else 0)) ∧
      BusyPoll s.params s.arg0.toNat ok h ∧ answersScripted s h

/-- What the transport operations leave unchanged on every path (R121 to R127; 10_state.md R45): the channels, the session fields, every byte
of memory; chip-select where the operation is NOP, WRITE_BYTE or READ_BYTE; the history where it is NOP, SELECT or DESELECT; the fault
record unless a fault is taken. Running the request whole is the model's choice (notes/assumptions/1.md). -/
def Obligations.TransportFrame : Prop :=
  ∀ (i : Instr) (s t : State), i = .nop ∨ isTransport i = true → exec i s = .next t →
    (t.tx = s.tx ∧ t.rx = s.rx ∧ t.txFill = s.txFill) ∧
    (t.phase = s.phase ∧ t.sdir = s.sdir ∧ t.dataAccepted = s.dataAccepted ∧ t.sector = s.sector) ∧
    (∀ a, t.mem.read a = s.mem.read a) ∧
    (i = .nop ∨ i = .readByte ∨ (∃ b, i = .writeByte b) → t.cs = s.cs) ∧
    (i = .nop ∨ i = .select ∨ i = .deselect → t.history = s.history) ∧
    (t.faulted = s.faulted → t.fcode = s.fcode ∧ t.faultCmd = s.faultCmd)

/-! ### The DMA channels (41_dma.md) -/

/-- DMA_CONFIGURE ch, p, c (R155) loads the descriptor of a disabled channel; for TX it clears FILL. DMA_CONFIGURE_FILL TX, c (R156) loads TX with
the filler; ARG0 plays no part. The request run whole, and what `completed` leaves in the hidden sequencer state, are the model's choices
(notes/assumptions/1.md, 9.md, 10.md). -/
def Obligations.DmaConfigureCompletes : Prop :=
  ∀ s : State, s.accepts → sessionOpen s = false → s.arg1.extractLsb' 16 16 = 0 →
    (s.tx.en = false → exec (.dmaConfigure .tx) s = .next ({ s with txFill := false, tx :=
      { s.tx with ptr := s.arg0, count := s.arg1.extractLsb' 0 16, rem := s.arg1.extractLsb' 0 16,
                  done := false, loaded := true, cfg := true } }.completed .ok 0)) ∧
    (s.rx.en = false → exec (.dmaConfigure .rx) s = .next ({ s with rx :=
      { s.rx with ptr := s.arg0, count := s.arg1.extractLsb' 0 16, rem := s.arg1.extractLsb' 0 16,
                  done := false, loaded := true, cfg := true } }.completed .ok 0)) ∧
    (s.tx.en = false → exec .dmaConfigureFill s = .next ({ s with txFill := true, tx :=
      { s.tx with ptr := 0, count := s.arg1.extractLsb' 0 16, rem := s.arg1.extractLsb' 0 16,
                  done := false, loaded := true, cfg := true } }.completed .ok 0))

/-- DMA_ENABLE ch (R157) starts a loaded and disabled channel from its COUNT, with LOADED = 0 a stale run too (R161); COUNT = 0 is DONE at
once. The request run whole, and what `completed` leaves in the hidden sequencer state, are the model's choices (notes/assumptions/1.md,
9.md, 10.md). -/
def Obligations.DmaEnableCompletes : Prop :=
  ∀ s : State, s.accepts → sessionOpen s = false →
    (s.tx.en = false → s.tx.cfg = true → exec (.dmaEnable .tx) s = .next ({ s with tx :=
      { s.tx with en := true, rem := s.tx.count, done := decide (s.tx.count = 0), loaded := false } }.completed .ok 0)) ∧
    (s.rx.en = false → s.rx.cfg = true → exec (.dmaEnable .rx) s = .next ({ s with rx :=
      { s.rx with en := true, rem := s.rx.count, done := decide (s.rx.count = 0), loaded := false } }.completed .ok 0))

/-- DMA_IS_COMPLETE ch (R158) returns DONE, in every phase and while DMA runs. The request run whole, and what `completed` leaves in the
hidden sequencer state, are the model's choices (notes/assumptions/1.md, 9.md, 10.md). -/
def Obligations.DmaIsCompleteCompletes : Prop :=
  ∀ s : State, s.accepts →
    exec (.dmaIsComplete .tx) s = .next (s.completed .ok (if s.tx.done then 1 else 0)) ∧
    exec (.dmaIsComplete .rx) s = .next (s.completed .ok (if s.rx.done then 1 else 0))

/-- DMA_DISABLE ch (R159) clears EN; REM and DONE keep their values. The request run whole, and what `completed` leaves in the hidden
sequencer state, are the model's choices (notes/assumptions/1.md, 9.md, 10.md). -/
def Obligations.DmaDisableCompletes : Prop :=
  ∀ s : State, s.accepts → sessionOpen s = false →
    exec (.dmaDisable .tx) s = .next ({ s with tx := { s.tx with en := false } }.completed .ok 0) ∧
    exec (.dmaDisable .rx) s = .next ({ s with rx := { s.rx with en := false } }.completed .ok 0)

/-- What the DMA operations leave unchanged on every path (R154 to R159): chip-select, the session fields, every byte of memory, the history;
the other channel; and the fault record unless a fault is taken. Running the request whole is the model's choice (notes/assumptions/1.md).
The scripted answers, which they leave too, are the model's form of the card oracle (notes/assumptions/5.md). -/
def Obligations.DmaFrame : Prop :=
  ∀ (i : Instr) (s t : State) (ch : Chan),
    i = .dmaConfigure ch ∨ (i = .dmaConfigureFill ∧ ch = .tx) ∨ i = .dmaEnable ch ∨ i = .dmaIsComplete ch ∨ i = .dmaDisable ch →
    exec i s = .next t →
    (t.cs = s.cs ∧ t.phase = s.phase ∧ t.sdir = s.sdir ∧ t.dataAccepted = s.dataAccepted ∧ t.sector = s.sector) ∧
    (t.history = s.history ∧ t.cardScript = s.cardScript ∧ ∀ a, t.mem.read a = s.mem.read a) ∧
    (ch = .tx → t.rx = s.rx) ∧ (ch = .rx → t.tx = s.tx ∧ t.txFill = s.txFill) ∧
    (i = .dmaIsComplete ch → t.tx = s.tx ∧ t.rx = s.rx ∧ t.txFill = s.txFill) ∧
    (t.faulted = s.faulted → t.fcode = s.fcode ∧ t.faultCmd = s.faultCmd)

/-- The DMA step (R152): when TX is enabled with bytes left, nothing is faulted and the addresses are admitted, it sends one byte, counts TX
down, and stores and counts the answer if RX is enabled with bytes left; otherwise the engine has no step. That a turn without a step
passes, and the card's script, are the model's choices (notes/assumptions/2.md, 5.md). -/
def Obligations.DmaStepMovesOneByte : Prop :=
  ∀ (s : State) (rest : List Move), s.agenda = .atomic .dma :: rest →
    let ta : Word := s.tx.ptr + (s.tx.count - s.tx.rem).setWidth 32
    let ra : Word := s.rx.ptr + (s.rx.count - s.rx.rem).setWidth 32
    let cap : Prop := s.rx.en = true ∧ s.rx.rem ≠ 0
    let out : Byte := if s.txFill then 0xFF else s.mem.read ta.toNat
    let inp : Byte := cardAnswer out s
    let sent : State :=
      { s with agenda := rest, history := s.history ++ [⟨s.cs, out, inp⟩], cardScript := s.cardScript.tail,
               tx := { s.tx with rem := s.tx.rem - 1, done := s.tx.done || decide (s.tx.rem - 1 = 0) } }
    let enabled : Prop := s.faulted = false ∧ s.tx.en = true ∧ s.tx.rem ≠ 0 ∧
      (s.txFill = true ∨ admits s.params ta = true) ∧ (cap → admits s.params ra = true)
    (enabled → cap → step s = .next { sent with
        mem := s.mem.write ra.toNat inp
        rx := { s.rx with rem := s.rx.rem - 1, done := s.rx.done || decide (s.rx.rem - 1 = 0) } }) ∧
    (enabled → ¬ cap → step s = .next sent) ∧
    (¬ enabled → step s = .next { s with agenda := rest })

/-- Payload order (20_memory.md R62, R67): a TX run that no RX run accompanies sends the bytes at PTR, PTR + 1, … in that order, modulo 2^32,
one a DMA turn, and ends with REM = 0 and DONE = 1. The schedule in the state and the card's script are the model's choices
(notes/assumptions/2.md, 5.md). -/
def Obligations.DmaRunSendsInOrder : Prop :=
  ∀ s : State, s.faulted = false → s.tx.en = true → s.tx.rem = s.tx.count → s.tx.count ≠ 0 → s.txFill = false → s.rx.en = false →
    (∀ j < s.tx.count.toNat, admits s.params (s.tx.ptr + BitVec.ofNat 32 j) = true) →
    s.agenda = List.replicate s.tx.count.toNat (.atomic .dma) →
    ∃ h, core.run s.tx.count.toNat s =
        .next ({ s with agenda := [], tx := { s.tx with rem := 0, done := true } }.exchanged h) ∧
      wireOut h = (List.range s.tx.count.toNat).map (fun j => (s.cs, s.mem.read (s.tx.ptr + BitVec.ofNat 32 j).toNat)) ∧
      answersScripted s h

/-- Payload order inward (20_memory.md R62, R67; 41_dma.md R153): over n DMA turns in which both channels run, from any point of their runs on,
the answers are stored in order at RX's working addresses, modulo 2^32, and no other byte changes; each channel counts n down and is DONE
if it reaches 0. TX sends the filler or its bytes in order, each as the earlier answers of these turns have left it (70_reset_and_hazards.md
R280). The schedule in the state and the card's script are the model's choices (notes/assumptions/2.md, 5.md). -/
def Obligations.DmaRunStoresInOrder : Prop :=
  ∀ (s : State) (n : Nat), s.faulted = false → s.tx.en = true → s.rx.en = true → s.tx.rem ≤ s.tx.count → s.rx.rem ≤ s.rx.count →
    n ≠ 0 → n ≤ s.tx.rem.toNat → n ≤ s.rx.rem.toNat → s.mem.wf = true →
    let ta : Nat → Word := fun j => s.tx.ptr + (s.tx.count - s.tx.rem).setWidth 32 + BitVec.ofNat 32 j
    let ra : Nat → Word := fun j => s.rx.ptr + (s.rx.count - s.rx.rem).setWidth 32 + BitVec.ofNat 32 j
    (s.txFill = true ∨ ∀ j < n, admits s.params (ta j) = true) → (∀ j < n, admits s.params (ra j) = true) →
    s.agenda = List.replicate n (.atomic .dma) →
    ∃ h m, core.run n s = .next ({ s with
          agenda := []
          mem := m
          tx := { s.tx with rem := s.tx.rem - BitVec.ofNat 16 n, done := s.tx.done || decide (s.tx.rem.toNat = n) }
          rx := { s.rx with rem := s.rx.rem - BitVec.ofNat 16 n, done := s.rx.done || decide (s.rx.rem.toNat = n) }
        }.exchanged h) ∧
      h.length = n ∧ (∀ e ∈ h, e.cs = s.cs) ∧ answersScripted s h ∧
      (∀ j < n, h[j]?.map Exchange.inp = some (m.read (ra j).toNat)) ∧
      (∀ a, (∀ j < n, a ≠ (ra j).toNat) → m.read a = s.mem.read a) ∧
      (s.txFill = true → ∀ e ∈ h, e.out = 0xFF) ∧
      (s.txFill = false → ∀ j < n, (∀ i < j, ta j ≠ ra i) → h[j]?.map Exchange.out = some (s.mem.read (ta j).toNat)) ∧
      (s.txFill = false → ∀ j < n, ∀ i < j, ta j = ra i → h[j]?.map Exchange.out = h[i]?.map Exchange.inp)

/-! ### The sector session (42_session.md) -/

/-- The card byte address of a session (30_encoding.md R97): sector index times 512, with no bit lost. -/
def Obligations.SectorAddressIsIndexTimes512 : Prop :=
  ∀ index : BitVec 23, (sectorAddress index).toNat = index.toNat * 512 ∧
    (sectorAddress index).extractLsb' 0 9 = 0 ∧ (sectorAddress index).extractLsb' 9 23 = index

/-- A data-response token is accepted exactly when its low nibble is DR_ACCEPT; bits [7:4] are ignored (30_encoding.md R101). -/
def Obligations.TokenAcceptedByLowNibble : Prop :=
  ∀ (p : Params) (t : Byte), tokenAccepted p t = true ↔ t.extractLsb' 0 4 = p.drAccept

/-- OPEN_WRITE s (R182): SECTOR, SDIR and DATA_ACCEPTED are written; then one of its three outcomes, with the exchanges of each; on success
one synchronization byte and the data-start token follow the command. The request run whole, and what `completed` leaves in the hidden
sequencer state, are the model's choices (notes/assumptions/1.md, 9.md, 10.md). The scripted answers are the model's form of the card oracle
(notes/assumptions/5.md). -/
def Obligations.OpenWriteCompletes : Prop :=
  ∀ s : State, s.mayOpen →
    ∃ code data phase cs h,
      exec .openWrite s = .next (({ s with sector := s.arg0.extractLsb' 0 23, sdir := .write, dataAccepted := false,
                                           phase := phase, cs := cs }.exchanged h).completed code data) ∧
      OpenOutcome s.params s.params.cmdWriteBlock (sectorAddress (s.arg0.extractLsb' 0 23)) [0xFF, s.params.startToken]
        code data phase cs h ∧ answersScripted s h

/-- OPEN_READ s, q (R187): as OPEN_WRITE with the read command, but both channels are loaded first (RX with q, TX with the filler), and on
success one raw clock byte follows. The request run whole, and what `completed` leaves in the hidden sequencer state, are the model's
choices (notes/assumptions/1.md, 9.md, 10.md). The scripted answers are the model's form of the card oracle (notes/assumptions/5.md). -/
def Obligations.OpenReadCompletes : Prop :=
  ∀ s : State, s.mayOpen →
    ∃ code data phase cs h,
      exec .openRead s = .next (({ s with
          sector := s.arg0.extractLsb' 0 23, sdir := .read, dataAccepted := false, phase := phase, cs := cs, txFill := true,
          rx := { ptr := s.arg1, count := 512, rem := 512, en := false, done := false, loaded := true, cfg := true },
          tx := { ptr := 0, count := 512, rem := 512, en := false, done := false, loaded := true, cfg := true }
        }.exchanged h).completed code data) ∧
      OpenOutcome s.params s.params.cmdReadBlock (sectorAddress (s.arg0.extractLsb' 0 23)) [0xFF] code data phase cs h ∧
      answersScripted s h

/-- The busy-timeout property (R193): an OPEN_WRITE that reports CardBusyTimeout has made exactly OPEN_BUSY_BUDGET exchanges, each of
CLOCK_BYTE, so no command frame; it has not sent the start token unless that is CLOCK_BYTE; and CS is 0. Running the request whole is the
model's choice (notes/assumptions/1.md). -/
def Obligations.OpenWriteBusyTimeoutSendsNothing : Prop :=
  ∀ s t : State, s.mayOpen → exec .openWrite s = .next t → t.resultCode = .cardBusyTimeout →
    ∃ h, t.history = s.history ++ h ∧ h.length = s.params.openBusyBudget.toNat ∧ (∀ e ∈ h, e.out = 0xFF) ∧
      (s.params.startToken ≠ 0xFF → ∀ e ∈ h, e.out ≠ s.params.startToken) ∧ t.cs = false

/-- An OPEN opens its session when the card becomes ready within OPEN_BUSY_BUDGET and answers 0x00 within N_RESP, where IDLE_BYTE is not itself
0x00: with the answers scripted as any busy polls within the budget, a ready poll, the six of the frame, any idle polls short of N_RESP and
0x00, OPEN_WRITE and OPEN_READ report OK after b + 6 + j + 2 and b + 6 + j + 1 exchanges (R182, R187). Running the request whole is the
model's choice (notes/assumptions/1.md). The scripted answers are the model's form of the card oracle (notes/assumptions/5.md). -/
def Obligations.OpenSucceedsWhenCardAccepts : Prop :=
  ∀ (s : State) (busy frame idle rest : List Byte), s.mayOpen →
    busy.length < s.params.openBusyBudget.toNat → (∀ x ∈ busy, x ≠ s.params.readyByte) → frame.length = 6 →
    idle.length < s.params.nResp.toNat → (∀ x ∈ idle, x = s.params.idleByte) → s.params.idleByte ≠ 0 →
    s.cardScript = busy ++ [s.params.readyByte] ++ frame ++ idle ++ [0x00] ++ rest →
    (∃ t, exec .openWrite s = .next t ∧ t.resultCode = .ok ∧ t.resultData = 0 ∧ t.phase = .opened ∧ t.cs = true ∧
      t.history.length = s.history.length + ((busy.length + 1) + 6 + (idle.length + 1) + 2)) ∧
    (∃ t, exec .openRead s = .next t ∧ t.resultCode = .ok ∧ t.resultData = 0 ∧ t.phase = .opened ∧ t.cs = true ∧
      t.history.length = s.history.length + ((busy.length + 1) + 6 + (idle.length + 1) + 1))

/-- TRANSFER in a write session (R184): the 512 bytes of the buffer at ARG0 go out in order, and TX is left disabled, DONE, with REM = 0.
The request run whole, and what `completed` leaves in the hidden sequencer state, are the model's choices (notes/assumptions/1.md, 9.md,
10.md). The scripted answers are the model's form of the card oracle (notes/assumptions/5.md). -/
def Obligations.TransferSendsBuffer : Prop :=
  ∀ s : State, s.accepts → s.phase = .opened → s.sdir = .write → s.rx.en = false →
    (∀ j < 512, admits s.params (s.arg0 + BitVec.ofNat 32 j) = true) →
    ∃ h, exec .transfer s = .next (({ s with
          phase := .transferring
          txFill := false
          tx := { ptr := s.arg0, count := 512, rem := 0, en := false, done := true, loaded := false, cfg := true }
        }.exchanged h).completed .ok 0) ∧
      wireOut h = (List.range 512).map (fun j => (s.cs, s.mem.read (s.arg0 + BitVec.ofNat 32 j).toNat)) ∧ answersScripted s h

/-- TRANSFER in a read session (R185): 512 exchanges of CLOCK_BYTE, whose answers are stored in order from RX.PTR on, no other byte of memory
changed, and both channels left disabled, DONE, with REM = 0. The request run whole, and what `completed` leaves in the hidden sequencer
state, are the model's choices (notes/assumptions/1.md, 9.md, 10.md). The scripted answers are the model's form of the card oracle
(notes/assumptions/5.md). -/
def Obligations.TransferReceivesBuffer : Prop :=
  ∀ s : State, s.accepts → s.phase = .opened → s.sdir = .read → s.arg0 = s.rx.ptr →
    s.rx.count = 512 → s.tx.count = 512 → s.txFill = true → s.mem.wf = true →
    (∀ j < 512, admits s.params (s.rx.ptr + BitVec.ofNat 32 j) = true) →
    ∃ h m, exec .transfer s = .next (({ s with
          phase := .transferring
          mem := m
          tx := { s.tx with rem := 0, en := false, done := true, loaded := false }
          rx := { s.rx with rem := 0, en := false, done := true, loaded := false } }.exchanged h).completed .ok 0) ∧
      wireOut h = List.replicate 512 (s.cs, 0xFF) ∧ answersScripted s h ∧
      (∀ j < 512, h[j]?.map Exchange.inp = some (m.read (s.rx.ptr + BitVec.ofNat 32 j).toNat)) ∧
      (∀ a, (∀ j < 512, a ≠ (s.rx.ptr + BitVec.ofNat 32 j).toNat) → m.read a = s.mem.read a)

/-- An unbacked buffer (R183; 70_reset_and_hazards.md R276), in a write session and in a read session: where byte k of the buffer is the first
that is not admitted, TRANSFER sends the k bytes before it, or receives and stores k bytes, and then holds with BUSY = 1 and the channels
enabled with DONE = 0, and no further step of the SBT's own changes the state. A hold as a next state with BUSY = 1 is the model's choice
(notes/assumptions/18.md), and so are the scripted answers (notes/assumptions/5.md). -/
def Obligations.TransferHoldsOnUnbackedBuffer : Prop :=
  ∀ (s : State) (k : Nat), s.accepts → s.phase = .opened → k < 512 →
    (s.sdir = .write → s.rx.en = false →
      (∀ j < k, admits s.params (s.arg0 + BitVec.ofNat 32 j) = true) →
      admits s.params (s.arg0 + BitVec.ofNat 32 k) = false →
      ∃ t h, exec .transfer s = .next t ∧ t.busy = true ∧ t.lop = some .transfer ∧ t.phase = .transferring ∧
        t.tx.en = true ∧ t.tx.done = false ∧ t.tx.rem.toNat = 512 - k ∧ t.mem = s.mem ∧
        t.history = s.history ++ h ∧ answersScripted s h ∧
        wireOut h = (List.range k).map (fun j => (s.cs, s.mem.read (s.arg0 + BitVec.ofNat 32 j).toNat)) ∧
        ∀ n, core.run n { t with agenda := [] } = .next { t with agenda := [] }) ∧
    (s.sdir = .read → s.arg0 = s.rx.ptr → s.rx.count = 512 → s.tx.count = 512 → s.txFill = true → s.mem.wf = true →
      (∀ j < k, admits s.params (s.rx.ptr + BitVec.ofNat 32 j) = true) →
      admits s.params (s.rx.ptr + BitVec.ofNat 32 k) = false →
      ∃ t h, exec .transfer s = .next t ∧ t.busy = true ∧ t.lop = some .transfer ∧ t.phase = .transferring ∧
        t.tx.en = true ∧ t.tx.done = false ∧ t.tx.rem.toNat = 512 - k ∧ t.rx.en = true ∧ t.rx.done = false ∧ t.rx.rem.toNat = 512 - k ∧
        t.history = s.history ++ h ∧ answersScripted s h ∧ wireOut h = List.replicate k (s.cs, 0xFF) ∧
        (∀ j < k, h[j]?.map Exchange.inp = some (t.mem.read (s.rx.ptr + BitVec.ofNat 32 j).toNat)) ∧
        (∀ a, (∀ j < k, a ≠ (s.rx.ptr + BitVec.ofNat 32 j).toNat) → t.mem.read a = s.mem.read a) ∧
        ∀ n, core.run n { t with agenda := [] } = .next { t with agenda := [] })

/-- CLOSE_WRITE (R186): five exchanges of CLOCK_BYTE, the third answer being the token; then chip-select drops. A rejected token ends in
WriteRejected with no poll; an accepted one in the post-write polls, OK or CardBusyTimeout, the phase closed and DATA_ACCEPTED = 1. The
request run whole, and what `completed` leaves in the hidden sequencer state, are the model's choices (notes/assumptions/1.md, 9.md, 10.md).
The scripted answers are the model's form of the card oracle (notes/assumptions/5.md). -/
def Obligations.CloseWriteCompletes : Prop :=
  ∀ s : State, s.accepts → s.phase = .transferring → s.sdir = .write →
    ∃ five token polls ok, wireOut five = List.replicate 5 (s.cs, 0xFF) ∧ five[2]?.map Exchange.inp = some token ∧
      answersScripted s (five ++ polls) ∧
      if token &&& 0x0F = s.params.drAccept.setWidth 8 then
        ClosePolls s.params ok polls ∧
        exec .closeWrite s = .next (({ s with phase := .closed, cs := false, dataAccepted := true }.exchanged
          (five ++ polls)).completed (if ok = true then .ok else .cardBusyTimeout) token)
      else
        polls = [] ∧
        exec .closeWrite s = .next (({ s with phase := .failed, cs := false, dataAccepted := false }.exchanged
          five).completed .writeRejected token)

/-- CLOSE_READ (R188): two exchanges of CLOCK_BYTE, discarded; then the card is deselected and the phase closed; always OK. The request run
whole, and what `completed` leaves in the hidden sequencer state, are the model's choices (notes/assumptions/1.md, 9.md, 10.md). The
scripted answers are the model's form of the card oracle (notes/assumptions/5.md). -/
def Obligations.CloseReadCompletes : Prop :=
  ∀ s : State, s.accepts → s.phase = .transferring → s.sdir = .read →
    ∃ h, exec .closeRead s = .next (({ s with phase := .closed, cs := false }.exchanged h).completed .ok 0) ∧
      wireOut h = List.replicate 2 (s.cs, 0xFF) ∧ answersScripted s h

/-- What the session operations leave unchanged on every path (R182 to R188): only the OPENs write SECTOR and SDIR; only TRANSFER writes memory
(TransferStoresReceivedBytesOnly says where); OPEN_WRITE and the CLOSEs leave the channels, OPEN_READ their EN; TRANSFER leaves
chip-select, and its write path RX where RX does not run; the fault record stays unless a fault is taken. Running the request whole is the model's choice
(notes/assumptions/1.md). -/
def Obligations.SessionFrame : Prop :=
  ∀ (i : Instr) (s t : State),
    i = .openWrite ∨ i = .openRead ∨ i = .transfer ∨ i = .closeWrite ∨ i = .closeRead → exec i s = .next t →
    (i ≠ .openWrite ∧ i ≠ .openRead → t.sector = s.sector ∧ t.sdir = s.sdir) ∧
    (i ≠ .transfer → ∀ a, t.mem.read a = s.mem.read a) ∧
    (i = .openWrite ∨ i = .closeWrite ∨ i = .closeRead → t.tx = s.tx ∧ t.rx = s.rx ∧ t.txFill = s.txFill) ∧
    (i = .openRead → t.tx.en = s.tx.en ∧ t.rx.en = s.rx.en) ∧
    (i = .transfer → t.cs = s.cs ∧ t.dataAccepted = s.dataAccepted) ∧
    (i = .transfer → s.sdir = .write → s.rx.running = false → t.rx = s.rx) ∧
    (i = .closeRead → t.dataAccepted = s.dataAccepted) ∧
    (t.faulted = s.faulted → t.fcode = s.fcode ∧ t.faultCmd = s.faultCmd)

/-- Where TRANSFER stores (R184, R185; 41_dma.md R152): RX's record when the bytes move is the present one in a write session, and in a read
session the present one started from its COUNT; every byte of memory outside the working addresses of that record's bytes left to move
reads as before, and all of memory where that record does not run. Running the request whole is the model's choice (notes/assumptions/1.md).
-/
def Obligations.TransferStoresReceivedBytesOnly : Prop :=
  ∀ s t : State, exec .transfer s = .next t →
    let rx : Channel := match s.sdir with
      | .write => s.rx
      | .read => { s.rx with en := true, rem := s.rx.count }
    (rx.running = false → ∀ a, t.mem.read a = s.mem.read a) ∧
    (∀ a, (∀ n : BitVec 16, n ≠ 0 → n ≤ rx.rem → a ≠ ({ rx with rem := n }.address).toNat) → t.mem.read a = s.mem.read a)

/-- The phase transitions of R180: each session operation in its phase ends in the phase of its row, by its outcome; in any other phase it
faults PhaseError and leaves the phase unchanged; every other operation leaves the phase. Of an OPEN in the phase closing nothing is said: no
run reaches it between operations (StepKeepsSessionInv). Running the request whole is the model's choice (notes/assumptions/1.md). A TRANSFER that
holds stands in the phase transferring (notes/assumptions/18.md). -/
def Obligations.PhaseTransitions : Prop :=
  ∀ (s t : State), s.accepts →
    (exec .openWrite s = .next t ∨ exec .openRead s = .next t →
      (sessionOpen s = true → t.fcode = .phaseError ∧ t.faulted = true ∧ t.phase = s.phase) ∧
      (s.phase = .idle ∨ s.phase = .closed ∨ s.phase = .failed → t.faulted = false →
        (t.resultCode = .ok ∧ t.phase = .opened) ∨
        ((t.resultCode = .cardBusyTimeout ∨ t.resultCode = .commandRejected) ∧ t.phase = .failed))) ∧
    (exec .transfer s = .next t →
      (s.phase ≠ .opened → t.fcode = .phaseError ∧ t.faulted = true ∧ t.phase = s.phase) ∧
      (s.phase = .opened → t.faulted = false → t.phase = .transferring ∧ (t.busy = false → t.resultCode = .ok))) ∧
    (exec .closeWrite s = .next t →
      (s.phase ≠ .transferring ∨ s.sdir ≠ .write → t.fcode = .phaseError ∧ t.faulted = true ∧ t.phase = s.phase) ∧
      (s.phase = .transferring → s.sdir = .write →
        (t.resultCode = .ok ∧ t.phase = .closed) ∨
        (t.resultCode = .cardBusyTimeout ∧ t.dataAccepted = true ∧ t.phase = .closed) ∨
        (t.resultCode = .writeRejected ∧ t.phase = .failed))) ∧
    (exec .closeRead s = .next t →
      (s.phase ≠ .transferring ∨ s.sdir ≠ .read → t.fcode = .phaseError ∧ t.faulted = true ∧ t.phase = s.phase) ∧
      (s.phase = .transferring → s.sdir = .read → t.resultCode = .ok ∧ t.phase = .closed)) ∧
    (∀ i, i ≠ .openWrite → i ≠ .openRead → i ≠ .transfer → i ≠ .closeWrite → i ≠ .closeRead → exec i s = .next t →
      t.phase = s.phase)

/-- The round-trip law on the data path (R192): what a read TRANSFER stores is what a write TRANSFER sent, when the card answers the read's 512
exchanges with the bytes it was sent (assumptions 6 and 7 of R192), whatever else happened in between. Running the request whole is the
model's choice (notes/assumptions/1.md). The scripted answers are the model's form of the card oracle (notes/assumptions/5.md). -/
def Obligations.RoundTripReturnsWrittenBytes : Prop :=
  ∀ s t u v : State,
    s.accepts → s.phase = .opened → s.sdir = .write → s.rx.en = false →
    (∀ j < 512, admits s.params (s.arg0 + BitVec.ofNat 32 j) = true) → exec .transfer s = .next t →
    u.accepts → u.phase = .opened → u.sdir = .read → u.arg0 = u.rx.ptr → u.rx.count = 512 → u.tx.count = 512 → u.txFill = true →
    u.mem.wf = true → (∀ j < 512, admits u.params (u.rx.ptr + BitVec.ofNat 32 j) = true) →
    u.cardScript.take 512 = (t.history.drop s.history.length).map Exchange.out → exec .transfer u = .next v →
    ∀ j < 512, v.mem.read (u.rx.ptr + BitVec.ofNat 32 j).toNat = s.mem.read (s.arg0 + BitVec.ofNat 32 j).toNat

/-! ### The window, memory and the host (10_state.md, 20_memory.md, 60_exceptions.md) -/

/-- A 32-bit read returns each register of R23 and has no other effect (R24); CMD, the reserved offsets and the reserved bits read 0.
RESULT.CODE reads as the number of R221 and FAULT.FCODE as the number of R222; StatusBits gives the bits of STATUS. Where the host puts what
it read is the model's choice (notes/assumptions/12.md). -/
def Obligations.WindowReadsRegisters : Prop :=
  ∀ (s : State) (off : Nat) (rest : List Move), off % 4 = 0 → off < 0x100 →
    s.agenda = .atomic (.windowRead 32 (s.params.sbtBase + BitVec.ofNat 32 off)) :: rest →
    let code : Word := match s.resultCode with
      | .ok => 0
      | .cardBusyTimeout => 1
      | .commandRejected => 2
      | .writeRejected => 3
    let fcode : Word := match s.fcode with
      | .none => 0
      | .illegalRequest => 1
      | .requestWhileBusy => 2
      | .phaseError => 3
      | .operandRange => 4
      | .reloadWhileEnabled => 5
      | .enableWhileEnabled => 6
      | .notConfigured => 7
      | .busConflict => 8
      | .bufferMismatch => 9
    step s = .next { s with agenda := rest, hostData :=
      if off = 0x04 then s.arg0
      else if off = 0x08 then s.arg1
      else if off = 0x0C then s.resultData.setWidth 32 + 0x100 * code
      else if off = 0x10 then statusWord s
      else if off = 0x14 then fcode
      else if off = 0x18 then s.faultCmd
      else if off = 0x1C then s.tx.ptr
      else if off = 0x20 then s.tx.count.setWidth 32 + 0x10000 * (s.tx.rem.setWidth 32)
      else if off = 0x24 then s.rx.ptr
      else if off = 0x28 then s.rx.count.setWidth 32 + 0x10000 * (s.rx.rem.setWidth 32)
      else if off = 0x2C then s.sector.setWidth 32
      else 0 }

/-- The bits of STATUS (R29), with the number of each phase (R32) and of each direction (R33). -/
def Obligations.StatusBits : Prop :=
  ∀ s : State,
    let phase : Nat := match s.phase with
      | .idle => 0
      | .opened => 1
      | .transferring => 2
      | .closing => 3
      | .closed => 4
      | .failed => 5
    let sdir : Nat := match s.sdir with
      | .write => 0
      | .read => 1
    (statusWord s).toNat =
    s.busy.toNat + 2 * s.cs.toNat + 4 * s.faulted.toNat + 16 * phase + 128 * sdir +
    256 * s.dataAccepted.toNat + 65536 * (s.tx.en.toNat + 2 * s.tx.done.toNat + 4 * s.tx.loaded.toNat + 8 * s.tx.cfg.toNat +
    16 * s.txFill.toNat) + 16777216 * (s.rx.en.toNat + 2 * s.rx.done.toNat + 4 * s.rx.loaded.toNat + 8 * s.rx.cfg.toNat)

/-- A 32-bit write stores ARG0 and ARG1 at any time (R26, R27), and a write of a read-only register or a reserved offset has no effect
(R24). -/
def Obligations.WindowWrites : Prop :=
  ∀ (s : State) (off : Nat) (v : Word) (rest : List Move), off % 4 = 0 → off < 0x100 → off ≠ 0 →
    s.agenda = .atomic (.windowWrite 32 (s.params.sbtBase + BitVec.ofNat 32 off) v) :: rest →
    step s = .next (if off = 0x04 then { s with agenda := rest, arg0 := v }
      else if off = 0x08 then { s with agenda := rest, arg1 := v }
      else { s with agenda := rest })

/-- Any other access of the window is refused: another width, a misaligned offset, or an offset of 0x100 or more (R24); and so is a second
agent (60_exceptions.md R235). Taking the offset modulo 2^32 and both refusals' names are the model's choices (notes/assumptions/13.md,
14.md). -/
def Obligations.OtherWindowAccessRefused : Prop :=
  ∀ (s : State) (width : Nat) (addr v : Word) (rest : List Move),
    (width ≠ 32 ∨ (addr - s.params.sbtBase).toNat % 4 ≠ 0 ∨ 0x100 ≤ (addr - s.params.sbtBase).toNat →
      (s.agenda = .atomic (.windowWrite width addr v) :: rest → step s = .refused .windowAccess) ∧
      (s.agenda = .atomic (.windowRead width addr) :: rest → step s = .refused .windowAccess)) ∧
    (s.agenda = .atomic .otherAgent :: rest → step s = .refused .secondAgent)

/-- The host's own byte accesses of system memory (20_memory.md R70; 00_scope.md R9): an admitted store is what a later load of that address
returns and leaves every other byte; the model stops at an address that is not admitted (its own choice, notes/assumptions/11.md), and
what a load delivers goes, zero-extended, to the host's variable `hostData` (its own choice, notes/assumptions/12.md). -/
def Obligations.HostMemoryAccesses : Prop :=
  ∀ (s : State) (addr : Word) (b : Byte) (rest : List Move),
    (s.mem.wf = true → admits s.params addr = true → s.agenda = .atomic (.memoryStore addr b) :: rest →
      ∃ t, step s = .next t ∧ t.mem.read addr.toNat = b ∧ (∀ a, a ≠ addr.toNat → t.mem.read a = s.mem.read a) ∧
        t = { s with agenda := rest, mem := t.mem }) ∧
    (admits s.params addr = true → s.agenda = .atomic (.memoryLoad addr) :: rest →
      step s = .next { s with agenda := rest, hostData := (s.mem.read addr.toNat).setWidth 32 }) ∧
    (admits s.params addr = false → s.agenda = .atomic (.memoryStore addr b) :: rest ∨ s.agenda = .atomic (.memoryLoad addr) :: rest →
      step s = .fault .hostAccessUnbacked)

/-- POLL and the expansion of a request (30_encoding.md R105). A round of POLL delivers STATUS; it is the last if BUSY is 0, else another
agent's turn comes and then POLL again: the turn the schedule names next, or the SBT's own. The expansion writes the argument registers it
gives values for and CMD, and polls: it reaches the very state `exec` answers for the operation, with STATUS delivered, where that has
BUSY = 0; where it has BUSY = 1 (a TRANSFER that holds, 70_reset_and_hazards.md R276) POLL never ends and changes nothing of the SBT. The turn
between two reads is the model's choice (notes/assumptions/25.md), and so are `exec` as a whole request (notes/assumptions/1.md) and the
host's variable (notes/assumptions/12.md). -/
def Obligations.ExpansionRunsOperation : Prop :=
  (∀ (s : State) (rest : List Move), s.agenda = .poll :: rest →
    (s.busy = false → step s = .next { s with agenda := rest, hostData := statusWord s }) ∧
    (s.busy = true →
      (∀ a later, rest = .atomic a :: later → a.byHost = false →
        step s = .next { s with agenda := .atomic a :: .poll :: later, hostData := statusWord s }) ∧
      ((∀ a later, rest = .atomic a :: later → a.byHost = true) →
        step s = .next { s with agenda := .atomic .own :: .poll :: rest, hostData := statusWord s }))) ∧
  (∀ (s : State) (r : Request),
    ∃ t, exec r.op { s with agenda := [], arg0 := r.arg0.getD s.arg0, arg1 := r.arg1.getD s.arg1 } = .next t ∧
      (t.busy = false →
        ∃ n, core.run n { s with agenda := r.moves s.params } = .next { t with hostData := statusWord t }) ∧
      (t.busy = true →
        ∃ n, ∀ m, ∃ l v, core.run (n + m) { s with agenda := r.moves s.params } = .next { t with agenda := l, hostData := v } ∧
          .poll ∈ l))

/-! ### Reset and the faulted state (70_reset_and_hazards.md, 60_exceptions.md) -/

/-- The reset values the spec gives (R260). -/
def Obligations.ResetValues : Prop :=
  State.reset.arg0 = 0 ∧ State.reset.arg1 = 0 ∧ resultWord State.reset = 0 ∧ statusWord State.reset = 0 ∧
  faultWord State.reset = 0 ∧ State.reset.faultCmd = 0 ∧ State.reset.tx.ptr = 0 ∧ State.reset.rx.ptr = 0 ∧
  State.reset.tx.countWord = 0 ∧ State.reset.rx.countWord = 0 ∧ sectorWord State.reset = 0 ∧
  State.reset.lop = none ∧ State.reset.larg0 = 0 ∧ State.reset.larg1 = 0 ∧ State.reset.pos = .idle ∧
  State.reset.locals = Locals.zero

/-- Reset at any point, also in the faulted state or in the middle of an operation, gives every SBT field its reset value and changes neither
memory, nor the history, nor the card, nor what the model holds beside them (R260, R262, R264). That reset keeps the model's own fields is
its choice (notes/assumptions/20.md). -/
def Obligations.ResetMoveRestoresReset : Prop :=
  ∀ (s : State) (rest : List Move), s.agenda = .atomic .reset :: rest →
    step s = .next { State.reset with mem := s.mem, history := s.history, cardScript := s.cardScript, params := s.params,
                                      agenda := rest, hostData := s.hostData }

/-- Only reset leaves the faulted state: any other step keeps FAULTED, FCODE and FAULT_CMD, the record of the first fault (10_state.md R35 to R37;
60_exceptions.md R228, R229). -/
def Obligations.OnlyResetClearsFault : Prop :=
  ∀ s t : State, s.faulted = true → (∀ rest, s.agenda ≠ .atomic .reset :: rest) → step s = .next t →
    t.faulted = true ∧ t.fcode = s.fcode ∧ t.faultCmd = s.faultCmd

/-- The faulted state is quiescent (60_exceptions.md R227): the sequencer and the DMA engine have no step, and with an empty agenda nothing
changes. That an agent without a step lets its turn pass is the model's choice (notes/assumptions/2.md). -/
def Obligations.FaultedIsQuiescent : Prop :=
  ∀ (s : State) (rest : List Move), s.faulted = true →
    (s.agenda = .atomic .sequencer :: rest ∨ s.agenda = .atomic .dma :: rest ∨ s.agenda = .atomic .own :: rest →
      step s = .next { s with agenda := rest }) ∧
    (s.agenda = [] → step s = .next s)

/-- Faults arise only in a CMD write (60_exceptions.md R222, R225): a step that is neither a request nor a write at offset 0 of the window never
enters the faulted state nor changes the fault record, unless it is reset. -/
def Obligations.OnlyCmdWritesFault : Prop :=
  ∀ s t : State, step s = .next t →
    (∀ w rest, s.agenda ≠ .request w :: rest) → (∀ w rest, s.agenda ≠ .atomic (.windowWrite 32 s.params.sbtBase w) :: rest) →
    (∀ rest, s.agenda ≠ .atomic .reset :: rest) →
    t.faulted = s.faulted ∧ t.fcode = s.fcode ∧ t.faultCmd = s.faultCmd

/-! ### The whole machine -/

/-- No step changes the parameters (00_scope.md R7), takes an entry out of the history (10_state.md R44; reset does not clear it), or writes
memory the host did not store to and no DMA step stored to: a step that leaves the history as it was and is no host store leaves memory.
Parameters held in the state are the model's choice (notes/assumptions/4.md). -/
def Obligations.HistoryOnlyGrows : Prop :=
  ∀ s t : State, step s = .next t →
    t.params = s.params ∧ s.history <+: t.history ∧
    (t.history = s.history → (∀ a b rest, s.agenda ≠ .atomic (.memoryStore a b) :: rest) → t.mem = s.mem)

/-- An operation leaves the host's registers, the schedule and what the host has read alone (10_state.md R26, R27). The schedule, the host's
variable and the parameters in the state are the model's own fields (notes/assumptions/2.md, 4.md, 12.md). -/
def Obligations.RequestKeepsHostState : Prop :=
  ∀ (i : Instr) (s t : State), exec i s = .next t →
    t.arg0 = s.arg0 ∧ t.arg1 = s.arg1 ∧ t.params = s.params ∧ t.agenda = s.agenda ∧ t.hostData = s.hostData

/-- A write of ARG0 or ARG1 has no effect on the running operation (10_state.md R26): neither the SBT's own step nor a turn of the sequencer or
of the DMA engine reads them. Turns named by the schedule, and the own step, are the model's form of R70 (notes/assumptions/2.md). -/
def Obligations.RunningOperationIgnoresArgs : Prop :=
  ∀ (s : State) (a0 a1 : Word),
    ownStep { s with arg0 := a0, arg1 := a1 } = { ownStep s with arg0 := a0, arg1 := a1 } ∧
    ∀ rest, s.agenda = .atomic .sequencer :: rest ∨ s.agenda = .atomic .dma :: rest ∨ s.agenda = .atomic .own :: rest →
      ∃ t, step s = .next t ∧ step { s with arg0 := a0, arg1 := a1 } = .next { t with arg0 := a0, arg1 := a1 }

/-- Every operation but TRANSFER finishes, whatever the card answers: a request that does not fault ends with BUSY = 0 and the sequencer idle
(42_session.md R190; 20_memory.md R78; 10_state.md R21, R42). Running the request whole is the model's choice (notes/assumptions/1.md); that
LOP is none and the position idle at the end is deduced (notes/assumptions/10.md). -/
def Obligations.OperationsFinish : Prop :=
  ∀ (i : Instr) (s : State), s.accepts → i ≠ .transfer → faultOf i s = none →
    ∃ t, exec i s = .next t ∧ t.busy = false ∧ t.lop = none ∧ t.pos = .idle ∧ t.faulted = false

/-- A request is its micro-steps: issuing the CMD word and then letting the SBT take its own steps, one statement or one DMA byte each, reaches
the very state `exec` answers (10_state.md R21; 30_encoding.md R107). What one micro-step is, which statements take one, and the order of
own steps (the sequencer's first) are the model's choices (notes/assumptions/1.md, 2.md, 8.md). -/
def Obligations.RequestIsItsMicroSteps : Prop :=
  ∀ (i : Instr) (s : State), s.agenda = [] →
    ∃ n t, exec i s = .next t ∧ core.run n (issueWord (encode i) s) = .next t

/-- Every step keeps memory in its canonical form. The form, and the 0x00 an unlisted byte reads as, are the model's choices
(notes/assumptions/6.md). -/
def Obligations.StepKeepsMemoryCanonical : Prop :=
  ∀ s t : State, s.mem.wf = true → step s = .next t → t.mem.wf = true

/-- Every step keeps BUSY, LOP, the position and the fault record in agreement (10_state.md R30, R35 to R37, R42; 60_exceptions.md R226). -/
def Obligations.StepKeepsControlInv : Prop :=
  ∀ s t : State, ControlInv s → step s = .next t → ControlInv t

/-- Every step keeps the channel records consistent (10_state.md R39, R40). -/
def Obligations.StepKeepsChannelInv : Prop :=
  ∀ s t : State, ChannelInv s → step s = .next t → ChannelInv t

/-- Every step keeps the session discipline (10_state.md R32; 40_transport.md R130; 42_session.md R181): between operations the phase is not
closing, and an open session has the card selected, both channels disabled, and for a read both descriptors as OPEN_READ loads them. It says
at each micro-step what a session relies on (notes/assumptions/8.md says what a micro-step is). -/
def Obligations.StepKeepsSessionInv : Prop :=
  ∀ s t : State, ControlInv s → SessionInv s → step s = .next t → SessionInv t

/-- The machine after reset meets the invariants. What the state outside the SBT holds in State.reset is the model's choice
(notes/assumptions/19.md). -/
def Obligations.ResetMeetsInvariants : Prop :=
  State.reset.mem.wf = true ∧ ControlInv State.reset ∧ ChannelInv State.reset ∧ SessionInv State.reset
end

