-- ==== Sys2Proof/Laws/Memory.lean ====
section
/-! SUPPORT. The laws of system memory: a read after a write, and the canonical form under every memory operation. -/

namespace Sys2Proof.Machine

@[simp] theorem Memory.read_nil (a : Nat) : Memory.read [] a = Memory.unlisted := rfl

theorem Memory.read_listed (b : Nat) (v : Byte) (m : Memory) (a : Nat) :
    Memory.read ((b, v) :: m) a = if a = b then v else Memory.read m a := rfl

/-- Putting a cell in front decides its own address and no other, if that address is not listed already. -/
theorem Memory.read_cons (a : Nat) (v : Byte) (m : Memory) (c : Nat) (h : Memory.read m a = Memory.unlisted) :
    Memory.read (Memory.cons a v m) c = if c = a then v else Memory.read m c := by
  unfold Memory.cons
  split
  · next hv => split
               · next hc => rw [hc, h, hv]
               · rfl
  · rfl

/-- The address every listed one is above. -/
theorem Memory.read_below {lo : Nat} {m : Memory} (h : Memory.wfAbove (some lo) m = true) {a : Nat} (ha : a ≤ lo) :
    Memory.read m a = Memory.unlisted := by
  induction m generalizing lo with
  | nil => rfl
  | cons cell m ih =>
    obtain ⟨b, v⟩ := cell
    simp only [Memory.wfAbove, Option.all_some, Bool.and_eq_true, decide_eq_true_eq] at h
    rw [Memory.read_listed, if_neg (by omega), ih h.2 (by omega)]

theorem Memory.wfAbove_none {lo : Option Nat} {m : Memory} (h : Memory.wfAbove lo m = true) : Memory.wf m = true := by
  cases m with
  | nil => rfl
  | cons cell m =>
    obtain ⟨b, v⟩ := cell
    simp only [Memory.wf, Memory.wfAbove, Bool.and_eq_true] at h ⊢
    exact ⟨⟨⟨rfl, h.1.1.2⟩, h.1.2⟩, h.2⟩

/-- A read after a write: the byte written at that address, the old byte at every other. -/
theorem Memory.read_write {m : Memory} (h : Memory.wf m = true) (a : Nat) (v : Byte) (c : Nat) :
    Memory.read (Memory.write m a v) c = if c = a then v else Memory.read m c := by
  suffices ∀ lo, Memory.wfAbove lo m = true →
      Memory.read (Memory.write m a v) c = if c = a then v else Memory.read m c from this none h
  clear h
  induction m with
  | nil => intro _ _; exact Memory.read_cons a v [] c rfl
  | cons cell m ih =>
    obtain ⟨b, w⟩ := cell
    intro lo h
    simp only [Memory.wfAbove, Bool.and_eq_true, decide_eq_true_eq] at h
    unfold Memory.write
    split
    · next hab =>
      refine Memory.read_cons a v _ c ?_
      rw [Memory.read_listed, if_neg (by omega), Memory.read_below h.2 (by omega)]
    · split
      · next _ hab =>
        subst hab
        rw [Memory.read_cons a v m c (Memory.read_below h.2 (le_refl a)), Memory.read_listed]
        split <;> rfl
      · next _ hab =>
        rw [Memory.read_listed, Memory.read_listed, ih _ h.2]
        by_cases hcb : c = b
        · subst hcb; rw [if_pos rfl, if_pos rfl, if_neg (Ne.symm hab)]
        · rw [if_neg hcb, if_neg hcb]

/-- A write leaves every other address as it was, in any memory. -/
theorem Memory.read_write_ne (m : Memory) {a c : Nat} (v : Byte) (h : c ≠ a) :
    Memory.read (Memory.write m a v) c = Memory.read m c := by
  have hcons : ∀ m : Memory, Memory.read (Memory.cons a v m) c = Memory.read m c := by
    intro m
    unfold Memory.cons
    split
    · rfl
    · rw [Memory.read_listed, if_neg h]
  induction m with
  | nil => exact hcons []
  | cons cell m ih =>
    obtain ⟨b, w⟩ := cell
    unfold Memory.write
    split
    · exact hcons _
    · split
      · next _ hab => subst hab; rw [hcons, Memory.read_listed, if_neg h]
      · rw [Memory.read_listed, Memory.read_listed, ih]

theorem Memory.wfAbove_cons {lo : Option Nat} {a : Nat} {v : Byte} {m : Memory} (hlo : lo.all (· < a) = true)
    (ha : a < 2 ^ 32) (h : Memory.wfAbove (some a) m = true) (hm : Memory.wfAbove lo m = true) :
    Memory.wfAbove lo (Memory.cons a v m) = true := by
  unfold Memory.cons
  split
  · exact hm
  · next hv => simp only [Memory.wfAbove, Bool.and_eq_true, decide_eq_true_eq]; exact ⟨⟨⟨hlo, ha⟩, hv⟩, h⟩

theorem Memory.wfAbove_mono {lo lo' : Option Nat} {m : Memory} (h : Memory.wfAbove lo m = true)
    (hlo : ∀ n, lo.all (· < n) = true → lo'.all (· < n) = true) : Memory.wfAbove lo' m = true := by
  cases m with
  | nil => rfl
  | cons cell m =>
    obtain ⟨b, v⟩ := cell
    simp only [Memory.wfAbove, Bool.and_eq_true] at h ⊢
    exact ⟨⟨⟨hlo _ h.1.1.1, h.1.1.2⟩, h.1.2⟩, h.2⟩

theorem Memory.wfAbove_write {lo : Option Nat} {m : Memory} {a : Nat} {v : Byte} (hlo : lo.all (· < a) = true)
    (ha : a < 2 ^ 32) (h : Memory.wfAbove lo m = true) : Memory.wfAbove lo (Memory.write m a v) = true := by
  induction m generalizing lo with
  | nil => exact Memory.wfAbove_cons hlo ha rfl rfl
  | cons cell m ih =>
    obtain ⟨b, w⟩ := cell
    have hcell := h
    simp only [Memory.wfAbove, Bool.and_eq_true, decide_eq_true_eq] at h
    unfold Memory.write
    split
    · next hab =>
      refine Memory.wfAbove_cons hlo ha ?_ hcell
      simp only [Memory.wfAbove, Option.all_some, Bool.and_eq_true, decide_eq_true_eq]
      exact ⟨⟨⟨hab, h.1.1.2⟩, h.1.2⟩, h.2⟩
    · split
      · next _ hab =>
        subst hab
        refine Memory.wfAbove_cons hlo ha h.2 (Memory.wfAbove_mono h.2 ?_)
        intro n hn
        cases lo with
        | none => rfl
        | some l => simp only [Option.all_some, decide_eq_true_eq] at hn hlo ⊢; omega
      · next hab hne =>
        simp only [Memory.wfAbove, Bool.and_eq_true, decide_eq_true_eq]
        refine ⟨⟨⟨h.1.1.1, h.1.1.2⟩, h.1.2⟩, ih ?_ h.2⟩
        simp only [Option.all_some, decide_eq_true_eq]; omega

/-- A write keeps the canonical form. -/
theorem Memory.wf_write {m : Memory} {a : Nat} (v : Byte) (ha : a < 2 ^ 32) (h : Memory.wf m = true) :
    Memory.wf (Memory.write m a v) = true := Memory.wfAbove_write rfl ha h

@[simp] theorem Memory.wf_nil : Memory.wf [] = true := rfl

end Sys2Proof.Machine
end

