-- ==== Sys2Proof/Laws/State.lean ====
section
/-! SUPPORT. What each named update of the state does to each field: one lemma per field per update. -/

namespace Sys2Proof.Machine

/-! `goto p s` -/

@[simp] theorem goto_arg0 (p : Pos) (s : State) : (goto p s).arg0 = s.arg0 := rfl
@[simp] theorem goto_arg1 (p : Pos) (s : State) : (goto p s).arg1 = s.arg1 := rfl
@[simp] theorem goto_resultData (p : Pos) (s : State) : (goto p s).resultData = s.resultData := rfl
@[simp] theorem goto_resultCode (p : Pos) (s : State) : (goto p s).resultCode = s.resultCode := rfl
@[simp] theorem goto_busy (p : Pos) (s : State) : (goto p s).busy = s.busy := rfl
@[simp] theorem goto_cs (p : Pos) (s : State) : (goto p s).cs = s.cs := rfl
@[simp] theorem goto_faulted (p : Pos) (s : State) : (goto p s).faulted = s.faulted := rfl
@[simp] theorem goto_phase (p : Pos) (s : State) : (goto p s).phase = s.phase := rfl
@[simp] theorem goto_sdir (p : Pos) (s : State) : (goto p s).sdir = s.sdir := rfl
@[simp] theorem goto_dataAccepted (p : Pos) (s : State) : (goto p s).dataAccepted = s.dataAccepted := rfl
@[simp] theorem goto_tx (p : Pos) (s : State) : (goto p s).tx = s.tx := rfl
@[simp] theorem goto_rx (p : Pos) (s : State) : (goto p s).rx = s.rx := rfl
@[simp] theorem goto_txFill (p : Pos) (s : State) : (goto p s).txFill = s.txFill := rfl
@[simp] theorem goto_fcode (p : Pos) (s : State) : (goto p s).fcode = s.fcode := rfl
@[simp] theorem goto_faultCmd (p : Pos) (s : State) : (goto p s).faultCmd = s.faultCmd := rfl
@[simp] theorem goto_sector (p : Pos) (s : State) : (goto p s).sector = s.sector := rfl
@[simp] theorem goto_lop (p : Pos) (s : State) : (goto p s).lop = s.lop := rfl
@[simp] theorem goto_larg0 (p : Pos) (s : State) : (goto p s).larg0 = s.larg0 := rfl
@[simp] theorem goto_larg1 (p : Pos) (s : State) : (goto p s).larg1 = s.larg1 := rfl
@[simp] theorem goto_pos (p : Pos) (s : State) : (goto p s).pos = p := rfl
@[simp] theorem goto_locals (p : Pos) (s : State) : (goto p s).locals = s.locals := rfl
@[simp] theorem goto_mem (p : Pos) (s : State) : (goto p s).mem = s.mem := rfl
@[simp] theorem goto_history (p : Pos) (s : State) : (goto p s).history = s.history := rfl
@[simp] theorem goto_cardScript (p : Pos) (s : State) : (goto p s).cardScript = s.cardScript := rfl
@[simp] theorem goto_params (p : Pos) (s : State) : (goto p s).params = s.params := rfl
@[simp] theorem goto_agenda (p : Pos) (s : State) : (goto p s).agenda = s.agenda := rfl
@[simp] theorem goto_hostData (p : Pos) (s : State) : (goto p s).hostData = s.hostData := rfl

/-! `finish c d s` -/

@[simp] theorem finish_arg0 (c : ResultCode) (d : Byte) (s : State) : (finish c d s).arg0 = s.arg0 := rfl
@[simp] theorem finish_arg1 (c : ResultCode) (d : Byte) (s : State) : (finish c d s).arg1 = s.arg1 := rfl
@[simp] theorem finish_resultData (c : ResultCode) (d : Byte) (s : State) : (finish c d s).resultData = d := rfl
@[simp] theorem finish_resultCode (c : ResultCode) (d : Byte) (s : State) : (finish c d s).resultCode = c := rfl
@[simp] theorem finish_busy (c : ResultCode) (d : Byte) (s : State) : (finish c d s).busy = false := rfl
@[simp] theorem finish_cs (c : ResultCode) (d : Byte) (s : State) : (finish c d s).cs = s.cs := rfl
@[simp] theorem finish_faulted (c : ResultCode) (d : Byte) (s : State) : (finish c d s).faulted = s.faulted := rfl
@[simp] theorem finish_phase (c : ResultCode) (d : Byte) (s : State) : (finish c d s).phase = s.phase := rfl
@[simp] theorem finish_sdir (c : ResultCode) (d : Byte) (s : State) : (finish c d s).sdir = s.sdir := rfl
@[simp] theorem finish_dataAccepted (c : ResultCode) (d : Byte) (s : State) : (finish c d s).dataAccepted = s.dataAccepted := rfl
@[simp] theorem finish_tx (c : ResultCode) (d : Byte) (s : State) : (finish c d s).tx = s.tx := rfl
@[simp] theorem finish_rx (c : ResultCode) (d : Byte) (s : State) : (finish c d s).rx = s.rx := rfl
@[simp] theorem finish_txFill (c : ResultCode) (d : Byte) (s : State) : (finish c d s).txFill = s.txFill := rfl
@[simp] theorem finish_fcode (c : ResultCode) (d : Byte) (s : State) : (finish c d s).fcode = s.fcode := rfl
@[simp] theorem finish_faultCmd (c : ResultCode) (d : Byte) (s : State) : (finish c d s).faultCmd = s.faultCmd := rfl
@[simp] theorem finish_sector (c : ResultCode) (d : Byte) (s : State) : (finish c d s).sector = s.sector := rfl
@[simp] theorem finish_lop (c : ResultCode) (d : Byte) (s : State) : (finish c d s).lop = none := rfl
@[simp] theorem finish_larg0 (c : ResultCode) (d : Byte) (s : State) : (finish c d s).larg0 = s.larg0 := rfl
@[simp] theorem finish_larg1 (c : ResultCode) (d : Byte) (s : State) : (finish c d s).larg1 = s.larg1 := rfl
@[simp] theorem finish_pos (c : ResultCode) (d : Byte) (s : State) : (finish c d s).pos = .idle := rfl
@[simp] theorem finish_locals (c : ResultCode) (d : Byte) (s : State) : (finish c d s).locals = Locals.zero := rfl
@[simp] theorem finish_mem (c : ResultCode) (d : Byte) (s : State) : (finish c d s).mem = s.mem := rfl
@[simp] theorem finish_history (c : ResultCode) (d : Byte) (s : State) : (finish c d s).history = s.history := rfl
@[simp] theorem finish_cardScript (c : ResultCode) (d : Byte) (s : State) : (finish c d s).cardScript = s.cardScript := rfl
@[simp] theorem finish_params (c : ResultCode) (d : Byte) (s : State) : (finish c d s).params = s.params := rfl
@[simp] theorem finish_agenda (c : ResultCode) (d : Byte) (s : State) : (finish c d s).agenda = s.agenda := rfl
@[simp] theorem finish_hostData (c : ResultCode) (d : Byte) (s : State) : (finish c d s).hostData = s.hostData := rfl

/-! `raiseFault c w s` -/

@[simp] theorem raiseFault_arg0 (c : FaultCode) (w : Word) (s : State) : (raiseFault c w s).arg0 = s.arg0 := rfl
@[simp] theorem raiseFault_arg1 (c : FaultCode) (w : Word) (s : State) : (raiseFault c w s).arg1 = s.arg1 := rfl
@[simp] theorem raiseFault_resultData (c : FaultCode) (w : Word) (s : State) : (raiseFault c w s).resultData = s.resultData := rfl
@[simp] theorem raiseFault_resultCode (c : FaultCode) (w : Word) (s : State) : (raiseFault c w s).resultCode = s.resultCode := rfl
@[simp] theorem raiseFault_busy (c : FaultCode) (w : Word) (s : State) : (raiseFault c w s).busy = false := rfl
@[simp] theorem raiseFault_cs (c : FaultCode) (w : Word) (s : State) : (raiseFault c w s).cs = s.cs := rfl
@[simp] theorem raiseFault_faulted (c : FaultCode) (w : Word) (s : State) : (raiseFault c w s).faulted = true := rfl
@[simp] theorem raiseFault_phase (c : FaultCode) (w : Word) (s : State) : (raiseFault c w s).phase = s.phase := rfl
@[simp] theorem raiseFault_sdir (c : FaultCode) (w : Word) (s : State) : (raiseFault c w s).sdir = s.sdir := rfl
@[simp] theorem raiseFault_dataAccepted (c : FaultCode) (w : Word) (s : State) : (raiseFault c w s).dataAccepted = s.dataAccepted := rfl
@[simp] theorem raiseFault_tx (c : FaultCode) (w : Word) (s : State) : (raiseFault c w s).tx = s.tx := rfl
@[simp] theorem raiseFault_rx (c : FaultCode) (w : Word) (s : State) : (raiseFault c w s).rx = s.rx := rfl
@[simp] theorem raiseFault_txFill (c : FaultCode) (w : Word) (s : State) : (raiseFault c w s).txFill = s.txFill := rfl
@[simp] theorem raiseFault_fcode (c : FaultCode) (w : Word) (s : State) : (raiseFault c w s).fcode = c := rfl
@[simp] theorem raiseFault_faultCmd (c : FaultCode) (w : Word) (s : State) : (raiseFault c w s).faultCmd = w := rfl
@[simp] theorem raiseFault_sector (c : FaultCode) (w : Word) (s : State) : (raiseFault c w s).sector = s.sector := rfl
@[simp] theorem raiseFault_lop (c : FaultCode) (w : Word) (s : State) : (raiseFault c w s).lop = none := rfl
@[simp] theorem raiseFault_larg0 (c : FaultCode) (w : Word) (s : State) : (raiseFault c w s).larg0 = s.larg0 := rfl
@[simp] theorem raiseFault_larg1 (c : FaultCode) (w : Word) (s : State) : (raiseFault c w s).larg1 = s.larg1 := rfl
@[simp] theorem raiseFault_pos (c : FaultCode) (w : Word) (s : State) : (raiseFault c w s).pos = .halted := rfl
@[simp] theorem raiseFault_locals (c : FaultCode) (w : Word) (s : State) : (raiseFault c w s).locals = s.locals := rfl
@[simp] theorem raiseFault_mem (c : FaultCode) (w : Word) (s : State) : (raiseFault c w s).mem = s.mem := rfl
@[simp] theorem raiseFault_history (c : FaultCode) (w : Word) (s : State) : (raiseFault c w s).history = s.history := rfl
@[simp] theorem raiseFault_cardScript (c : FaultCode) (w : Word) (s : State) : (raiseFault c w s).cardScript = s.cardScript := rfl
@[simp] theorem raiseFault_params (c : FaultCode) (w : Word) (s : State) : (raiseFault c w s).params = s.params := rfl
@[simp] theorem raiseFault_agenda (c : FaultCode) (w : Word) (s : State) : (raiseFault c w s).agenda = s.agenda := rfl
@[simp] theorem raiseFault_hostData (c : FaultCode) (w : Word) (s : State) : (raiseFault c w s).hostData = s.hostData := rfl

/-! `latch i p s` -/

@[simp] theorem latch_arg0 (i : Instr) (p : Pos) (s : State) : (latch i p s).arg0 = s.arg0 := rfl
@[simp] theorem latch_arg1 (i : Instr) (p : Pos) (s : State) : (latch i p s).arg1 = s.arg1 := rfl
@[simp] theorem latch_resultData (i : Instr) (p : Pos) (s : State) : (latch i p s).resultData = s.resultData := rfl
@[simp] theorem latch_resultCode (i : Instr) (p : Pos) (s : State) : (latch i p s).resultCode = s.resultCode := rfl
@[simp] theorem latch_busy (i : Instr) (p : Pos) (s : State) : (latch i p s).busy = true := rfl
@[simp] theorem latch_cs (i : Instr) (p : Pos) (s : State) : (latch i p s).cs = s.cs := rfl
@[simp] theorem latch_faulted (i : Instr) (p : Pos) (s : State) : (latch i p s).faulted = s.faulted := rfl
@[simp] theorem latch_phase (i : Instr) (p : Pos) (s : State) : (latch i p s).phase = s.phase := rfl
@[simp] theorem latch_sdir (i : Instr) (p : Pos) (s : State) : (latch i p s).sdir = s.sdir := rfl
@[simp] theorem latch_dataAccepted (i : Instr) (p : Pos) (s : State) : (latch i p s).dataAccepted = s.dataAccepted := rfl
@[simp] theorem latch_tx (i : Instr) (p : Pos) (s : State) : (latch i p s).tx = s.tx := rfl
@[simp] theorem latch_rx (i : Instr) (p : Pos) (s : State) : (latch i p s).rx = s.rx := rfl
@[simp] theorem latch_txFill (i : Instr) (p : Pos) (s : State) : (latch i p s).txFill = s.txFill := rfl
@[simp] theorem latch_fcode (i : Instr) (p : Pos) (s : State) : (latch i p s).fcode = s.fcode := rfl
@[simp] theorem latch_faultCmd (i : Instr) (p : Pos) (s : State) : (latch i p s).faultCmd = s.faultCmd := rfl
@[simp] theorem latch_sector (i : Instr) (p : Pos) (s : State) : (latch i p s).sector = s.sector := rfl
@[simp] theorem latch_lop (i : Instr) (p : Pos) (s : State) : (latch i p s).lop = some i := rfl
@[simp] theorem latch_larg0 (i : Instr) (p : Pos) (s : State) : (latch i p s).larg0 = s.arg0 := rfl
@[simp] theorem latch_larg1 (i : Instr) (p : Pos) (s : State) : (latch i p s).larg1 = s.arg1 := rfl
@[simp] theorem latch_pos (i : Instr) (p : Pos) (s : State) : (latch i p s).pos = p := rfl
@[simp] theorem latch_locals (i : Instr) (p : Pos) (s : State) : (latch i p s).locals = Locals.zero := rfl
@[simp] theorem latch_mem (i : Instr) (p : Pos) (s : State) : (latch i p s).mem = s.mem := rfl
@[simp] theorem latch_history (i : Instr) (p : Pos) (s : State) : (latch i p s).history = s.history := rfl
@[simp] theorem latch_cardScript (i : Instr) (p : Pos) (s : State) : (latch i p s).cardScript = s.cardScript := rfl
@[simp] theorem latch_params (i : Instr) (p : Pos) (s : State) : (latch i p s).params = s.params := rfl
@[simp] theorem latch_agenda (i : Instr) (p : Pos) (s : State) : (latch i p s).agenda = s.agenda := rfl
@[simp] theorem latch_hostData (i : Instr) (p : Pos) (s : State) : (latch i p s).hostData = s.hostData := rfl

/-! `uSelect s` -/

@[simp] theorem uSelect_arg0 (s : State) : (uSelect s).arg0 = s.arg0 := rfl
@[simp] theorem uSelect_arg1 (s : State) : (uSelect s).arg1 = s.arg1 := rfl
@[simp] theorem uSelect_resultData (s : State) : (uSelect s).resultData = s.resultData := rfl
@[simp] theorem uSelect_resultCode (s : State) : (uSelect s).resultCode = s.resultCode := rfl
@[simp] theorem uSelect_busy (s : State) : (uSelect s).busy = s.busy := rfl
@[simp] theorem uSelect_cs (s : State) : (uSelect s).cs = true := rfl
@[simp] theorem uSelect_faulted (s : State) : (uSelect s).faulted = s.faulted := rfl
@[simp] theorem uSelect_phase (s : State) : (uSelect s).phase = s.phase := rfl
@[simp] theorem uSelect_sdir (s : State) : (uSelect s).sdir = s.sdir := rfl
@[simp] theorem uSelect_dataAccepted (s : State) : (uSelect s).dataAccepted = s.dataAccepted := rfl
@[simp] theorem uSelect_tx (s : State) : (uSelect s).tx = s.tx := rfl
@[simp] theorem uSelect_rx (s : State) : (uSelect s).rx = s.rx := rfl
@[simp] theorem uSelect_txFill (s : State) : (uSelect s).txFill = s.txFill := rfl
@[simp] theorem uSelect_fcode (s : State) : (uSelect s).fcode = s.fcode := rfl
@[simp] theorem uSelect_faultCmd (s : State) : (uSelect s).faultCmd = s.faultCmd := rfl
@[simp] theorem uSelect_sector (s : State) : (uSelect s).sector = s.sector := rfl
@[simp] theorem uSelect_lop (s : State) : (uSelect s).lop = s.lop := rfl
@[simp] theorem uSelect_larg0 (s : State) : (uSelect s).larg0 = s.larg0 := rfl
@[simp] theorem uSelect_larg1 (s : State) : (uSelect s).larg1 = s.larg1 := rfl
@[simp] theorem uSelect_pos (s : State) : (uSelect s).pos = s.pos := rfl
@[simp] theorem uSelect_locals (s : State) : (uSelect s).locals = s.locals := rfl
@[simp] theorem uSelect_mem (s : State) : (uSelect s).mem = s.mem := rfl
@[simp] theorem uSelect_history (s : State) : (uSelect s).history = s.history := rfl
@[simp] theorem uSelect_cardScript (s : State) : (uSelect s).cardScript = s.cardScript := rfl
@[simp] theorem uSelect_params (s : State) : (uSelect s).params = s.params := rfl
@[simp] theorem uSelect_agenda (s : State) : (uSelect s).agenda = s.agenda := rfl
@[simp] theorem uSelect_hostData (s : State) : (uSelect s).hostData = s.hostData := rfl

/-! `uDeselect s` -/

@[simp] theorem uDeselect_arg0 (s : State) : (uDeselect s).arg0 = s.arg0 := rfl
@[simp] theorem uDeselect_arg1 (s : State) : (uDeselect s).arg1 = s.arg1 := rfl
@[simp] theorem uDeselect_resultData (s : State) : (uDeselect s).resultData = s.resultData := rfl
@[simp] theorem uDeselect_resultCode (s : State) : (uDeselect s).resultCode = s.resultCode := rfl
@[simp] theorem uDeselect_busy (s : State) : (uDeselect s).busy = s.busy := rfl
@[simp] theorem uDeselect_cs (s : State) : (uDeselect s).cs = false := rfl
@[simp] theorem uDeselect_faulted (s : State) : (uDeselect s).faulted = s.faulted := rfl
@[simp] theorem uDeselect_phase (s : State) : (uDeselect s).phase = s.phase := rfl
@[simp] theorem uDeselect_sdir (s : State) : (uDeselect s).sdir = s.sdir := rfl
@[simp] theorem uDeselect_dataAccepted (s : State) : (uDeselect s).dataAccepted = s.dataAccepted := rfl
@[simp] theorem uDeselect_tx (s : State) : (uDeselect s).tx = s.tx := rfl
@[simp] theorem uDeselect_rx (s : State) : (uDeselect s).rx = s.rx := rfl
@[simp] theorem uDeselect_txFill (s : State) : (uDeselect s).txFill = s.txFill := rfl
@[simp] theorem uDeselect_fcode (s : State) : (uDeselect s).fcode = s.fcode := rfl
@[simp] theorem uDeselect_faultCmd (s : State) : (uDeselect s).faultCmd = s.faultCmd := rfl
@[simp] theorem uDeselect_sector (s : State) : (uDeselect s).sector = s.sector := rfl
@[simp] theorem uDeselect_lop (s : State) : (uDeselect s).lop = s.lop := rfl
@[simp] theorem uDeselect_larg0 (s : State) : (uDeselect s).larg0 = s.larg0 := rfl
@[simp] theorem uDeselect_larg1 (s : State) : (uDeselect s).larg1 = s.larg1 := rfl
@[simp] theorem uDeselect_pos (s : State) : (uDeselect s).pos = s.pos := rfl
@[simp] theorem uDeselect_locals (s : State) : (uDeselect s).locals = s.locals := rfl
@[simp] theorem uDeselect_mem (s : State) : (uDeselect s).mem = s.mem := rfl
@[simp] theorem uDeselect_history (s : State) : (uDeselect s).history = s.history := rfl
@[simp] theorem uDeselect_cardScript (s : State) : (uDeselect s).cardScript = s.cardScript := rfl
@[simp] theorem uDeselect_params (s : State) : (uDeselect s).params = s.params := rfl
@[simp] theorem uDeselect_agenda (s : State) : (uDeselect s).agenda = s.agenda := rfl
@[simp] theorem uDeselect_hostData (s : State) : (uDeselect s).hostData = s.hostData := rfl

/-! `afterExchange b s` -/

@[simp] theorem afterExchange_arg0 (b : Byte) (s : State) : (afterExchange b s).arg0 = s.arg0 := rfl
@[simp] theorem afterExchange_arg1 (b : Byte) (s : State) : (afterExchange b s).arg1 = s.arg1 := rfl
@[simp] theorem afterExchange_resultData (b : Byte) (s : State) : (afterExchange b s).resultData = s.resultData := rfl
@[simp] theorem afterExchange_resultCode (b : Byte) (s : State) : (afterExchange b s).resultCode = s.resultCode := rfl
@[simp] theorem afterExchange_busy (b : Byte) (s : State) : (afterExchange b s).busy = s.busy := rfl
@[simp] theorem afterExchange_cs (b : Byte) (s : State) : (afterExchange b s).cs = s.cs := rfl
@[simp] theorem afterExchange_faulted (b : Byte) (s : State) : (afterExchange b s).faulted = s.faulted := rfl
@[simp] theorem afterExchange_phase (b : Byte) (s : State) : (afterExchange b s).phase = s.phase := rfl
@[simp] theorem afterExchange_sdir (b : Byte) (s : State) : (afterExchange b s).sdir = s.sdir := rfl
@[simp] theorem afterExchange_dataAccepted (b : Byte) (s : State) : (afterExchange b s).dataAccepted = s.dataAccepted := rfl
@[simp] theorem afterExchange_tx (b : Byte) (s : State) : (afterExchange b s).tx = s.tx := rfl
@[simp] theorem afterExchange_rx (b : Byte) (s : State) : (afterExchange b s).rx = s.rx := rfl
@[simp] theorem afterExchange_txFill (b : Byte) (s : State) : (afterExchange b s).txFill = s.txFill := rfl
@[simp] theorem afterExchange_fcode (b : Byte) (s : State) : (afterExchange b s).fcode = s.fcode := rfl
@[simp] theorem afterExchange_faultCmd (b : Byte) (s : State) : (afterExchange b s).faultCmd = s.faultCmd := rfl
@[simp] theorem afterExchange_sector (b : Byte) (s : State) : (afterExchange b s).sector = s.sector := rfl
@[simp] theorem afterExchange_lop (b : Byte) (s : State) : (afterExchange b s).lop = s.lop := rfl
@[simp] theorem afterExchange_larg0 (b : Byte) (s : State) : (afterExchange b s).larg0 = s.larg0 := rfl
@[simp] theorem afterExchange_larg1 (b : Byte) (s : State) : (afterExchange b s).larg1 = s.larg1 := rfl
@[simp] theorem afterExchange_pos (b : Byte) (s : State) : (afterExchange b s).pos = s.pos := rfl
@[simp] theorem afterExchange_locals (b : Byte) (s : State) : (afterExchange b s).locals = s.locals := rfl
@[simp] theorem afterExchange_mem (b : Byte) (s : State) : (afterExchange b s).mem = s.mem := rfl
@[simp] theorem afterExchange_history (b : Byte) (s : State) : (afterExchange b s).history = s.history ++ [{ cs := s.cs, out := b, inp := cardAnswer b s }] := rfl
@[simp] theorem afterExchange_cardScript (b : Byte) (s : State) : (afterExchange b s).cardScript = s.cardScript.tail := rfl
@[simp] theorem afterExchange_params (b : Byte) (s : State) : (afterExchange b s).params = s.params := rfl
@[simp] theorem afterExchange_agenda (b : Byte) (s : State) : (afterExchange b s).agenda = s.agenda := rfl
@[simp] theorem afterExchange_hostData (b : Byte) (s : State) : (afterExchange b s).hostData = s.hostData := rfl

/-! `uWrite b s` -/

@[simp] theorem uWrite_arg0 (b : Byte) (s : State) : (uWrite b s).arg0 = s.arg0 := rfl
@[simp] theorem uWrite_arg1 (b : Byte) (s : State) : (uWrite b s).arg1 = s.arg1 := rfl
@[simp] theorem uWrite_resultData (b : Byte) (s : State) : (uWrite b s).resultData = s.resultData := rfl
@[simp] theorem uWrite_resultCode (b : Byte) (s : State) : (uWrite b s).resultCode = s.resultCode := rfl
@[simp] theorem uWrite_busy (b : Byte) (s : State) : (uWrite b s).busy = s.busy := rfl
@[simp] theorem uWrite_cs (b : Byte) (s : State) : (uWrite b s).cs = s.cs := rfl
@[simp] theorem uWrite_faulted (b : Byte) (s : State) : (uWrite b s).faulted = s.faulted := rfl
@[simp] theorem uWrite_phase (b : Byte) (s : State) : (uWrite b s).phase = s.phase := rfl
@[simp] theorem uWrite_sdir (b : Byte) (s : State) : (uWrite b s).sdir = s.sdir := rfl
@[simp] theorem uWrite_dataAccepted (b : Byte) (s : State) : (uWrite b s).dataAccepted = s.dataAccepted := rfl
@[simp] theorem uWrite_tx (b : Byte) (s : State) : (uWrite b s).tx = s.tx := rfl
@[simp] theorem uWrite_rx (b : Byte) (s : State) : (uWrite b s).rx = s.rx := rfl
@[simp] theorem uWrite_txFill (b : Byte) (s : State) : (uWrite b s).txFill = s.txFill := rfl
@[simp] theorem uWrite_fcode (b : Byte) (s : State) : (uWrite b s).fcode = s.fcode := rfl
@[simp] theorem uWrite_faultCmd (b : Byte) (s : State) : (uWrite b s).faultCmd = s.faultCmd := rfl
@[simp] theorem uWrite_sector (b : Byte) (s : State) : (uWrite b s).sector = s.sector := rfl
@[simp] theorem uWrite_lop (b : Byte) (s : State) : (uWrite b s).lop = s.lop := rfl
@[simp] theorem uWrite_larg0 (b : Byte) (s : State) : (uWrite b s).larg0 = s.larg0 := rfl
@[simp] theorem uWrite_larg1 (b : Byte) (s : State) : (uWrite b s).larg1 = s.larg1 := rfl
@[simp] theorem uWrite_pos (b : Byte) (s : State) : (uWrite b s).pos = s.pos := rfl
@[simp] theorem uWrite_locals (b : Byte) (s : State) : (uWrite b s).locals = s.locals := rfl
@[simp] theorem uWrite_mem (b : Byte) (s : State) : (uWrite b s).mem = s.mem := rfl
@[simp] theorem uWrite_history (b : Byte) (s : State) : (uWrite b s).history = s.history ++ [{ cs := s.cs, out := b, inp := cardAnswer b s }] := rfl
@[simp] theorem uWrite_cardScript (b : Byte) (s : State) : (uWrite b s).cardScript = s.cardScript.tail := rfl
@[simp] theorem uWrite_params (b : Byte) (s : State) : (uWrite b s).params = s.params := rfl
@[simp] theorem uWrite_agenda (b : Byte) (s : State) : (uWrite b s).agenda = s.agenda := rfl
@[simp] theorem uWrite_hostData (b : Byte) (s : State) : (uWrite b s).hostData = s.hostData := rfl

/-! `memWriteByte a v s` -/

@[simp] theorem memWriteByte_arg0 (a : Word) (v : Byte) (s : State) : (memWriteByte a v s).arg0 = s.arg0 := rfl
@[simp] theorem memWriteByte_arg1 (a : Word) (v : Byte) (s : State) : (memWriteByte a v s).arg1 = s.arg1 := rfl
@[simp] theorem memWriteByte_resultData (a : Word) (v : Byte) (s : State) : (memWriteByte a v s).resultData = s.resultData := rfl
@[simp] theorem memWriteByte_resultCode (a : Word) (v : Byte) (s : State) : (memWriteByte a v s).resultCode = s.resultCode := rfl
@[simp] theorem memWriteByte_busy (a : Word) (v : Byte) (s : State) : (memWriteByte a v s).busy = s.busy := rfl
@[simp] theorem memWriteByte_cs (a : Word) (v : Byte) (s : State) : (memWriteByte a v s).cs = s.cs := rfl
@[simp] theorem memWriteByte_faulted (a : Word) (v : Byte) (s : State) : (memWriteByte a v s).faulted = s.faulted := rfl
@[simp] theorem memWriteByte_phase (a : Word) (v : Byte) (s : State) : (memWriteByte a v s).phase = s.phase := rfl
@[simp] theorem memWriteByte_sdir (a : Word) (v : Byte) (s : State) : (memWriteByte a v s).sdir = s.sdir := rfl
@[simp] theorem memWriteByte_dataAccepted (a : Word) (v : Byte) (s : State) : (memWriteByte a v s).dataAccepted = s.dataAccepted := rfl
@[simp] theorem memWriteByte_tx (a : Word) (v : Byte) (s : State) : (memWriteByte a v s).tx = s.tx := rfl
@[simp] theorem memWriteByte_rx (a : Word) (v : Byte) (s : State) : (memWriteByte a v s).rx = s.rx := rfl
@[simp] theorem memWriteByte_txFill (a : Word) (v : Byte) (s : State) : (memWriteByte a v s).txFill = s.txFill := rfl
@[simp] theorem memWriteByte_fcode (a : Word) (v : Byte) (s : State) : (memWriteByte a v s).fcode = s.fcode := rfl
@[simp] theorem memWriteByte_faultCmd (a : Word) (v : Byte) (s : State) : (memWriteByte a v s).faultCmd = s.faultCmd := rfl
@[simp] theorem memWriteByte_sector (a : Word) (v : Byte) (s : State) : (memWriteByte a v s).sector = s.sector := rfl
@[simp] theorem memWriteByte_lop (a : Word) (v : Byte) (s : State) : (memWriteByte a v s).lop = s.lop := rfl
@[simp] theorem memWriteByte_larg0 (a : Word) (v : Byte) (s : State) : (memWriteByte a v s).larg0 = s.larg0 := rfl
@[simp] theorem memWriteByte_larg1 (a : Word) (v : Byte) (s : State) : (memWriteByte a v s).larg1 = s.larg1 := rfl
@[simp] theorem memWriteByte_pos (a : Word) (v : Byte) (s : State) : (memWriteByte a v s).pos = s.pos := rfl
@[simp] theorem memWriteByte_locals (a : Word) (v : Byte) (s : State) : (memWriteByte a v s).locals = s.locals := rfl
@[simp] theorem memWriteByte_mem (a : Word) (v : Byte) (s : State) : (memWriteByte a v s).mem = s.mem.write a.toNat v := rfl
@[simp] theorem memWriteByte_history (a : Word) (v : Byte) (s : State) : (memWriteByte a v s).history = s.history := rfl
@[simp] theorem memWriteByte_cardScript (a : Word) (v : Byte) (s : State) : (memWriteByte a v s).cardScript = s.cardScript := rfl
@[simp] theorem memWriteByte_params (a : Word) (v : Byte) (s : State) : (memWriteByte a v s).params = s.params := rfl
@[simp] theorem memWriteByte_agenda (a : Word) (v : Byte) (s : State) : (memWriteByte a v s).agenda = s.agenda := rfl
@[simp] theorem memWriteByte_hostData (a : Word) (v : Byte) (s : State) : (memWriteByte a v s).hostData = s.hostData := rfl

/-! `rxStore x s` -/

@[simp] theorem rxStore_arg0 (x : Byte) (s : State) : (rxStore x s).arg0 = s.arg0 := rfl
@[simp] theorem rxStore_arg1 (x : Byte) (s : State) : (rxStore x s).arg1 = s.arg1 := rfl
@[simp] theorem rxStore_resultData (x : Byte) (s : State) : (rxStore x s).resultData = s.resultData := rfl
@[simp] theorem rxStore_resultCode (x : Byte) (s : State) : (rxStore x s).resultCode = s.resultCode := rfl
@[simp] theorem rxStore_busy (x : Byte) (s : State) : (rxStore x s).busy = s.busy := rfl
@[simp] theorem rxStore_cs (x : Byte) (s : State) : (rxStore x s).cs = s.cs := rfl
@[simp] theorem rxStore_faulted (x : Byte) (s : State) : (rxStore x s).faulted = s.faulted := rfl
@[simp] theorem rxStore_phase (x : Byte) (s : State) : (rxStore x s).phase = s.phase := rfl
@[simp] theorem rxStore_sdir (x : Byte) (s : State) : (rxStore x s).sdir = s.sdir := rfl
@[simp] theorem rxStore_dataAccepted (x : Byte) (s : State) : (rxStore x s).dataAccepted = s.dataAccepted := rfl
@[simp] theorem rxStore_tx (x : Byte) (s : State) : (rxStore x s).tx = s.tx := rfl
@[simp] theorem rxStore_rx (x : Byte) (s : State) : (rxStore x s).rx = s.rx.countDown := rfl
@[simp] theorem rxStore_txFill (x : Byte) (s : State) : (rxStore x s).txFill = s.txFill := rfl
@[simp] theorem rxStore_fcode (x : Byte) (s : State) : (rxStore x s).fcode = s.fcode := rfl
@[simp] theorem rxStore_faultCmd (x : Byte) (s : State) : (rxStore x s).faultCmd = s.faultCmd := rfl
@[simp] theorem rxStore_sector (x : Byte) (s : State) : (rxStore x s).sector = s.sector := rfl
@[simp] theorem rxStore_lop (x : Byte) (s : State) : (rxStore x s).lop = s.lop := rfl
@[simp] theorem rxStore_larg0 (x : Byte) (s : State) : (rxStore x s).larg0 = s.larg0 := rfl
@[simp] theorem rxStore_larg1 (x : Byte) (s : State) : (rxStore x s).larg1 = s.larg1 := rfl
@[simp] theorem rxStore_pos (x : Byte) (s : State) : (rxStore x s).pos = s.pos := rfl
@[simp] theorem rxStore_locals (x : Byte) (s : State) : (rxStore x s).locals = s.locals := rfl
@[simp] theorem rxStore_mem (x : Byte) (s : State) : (rxStore x s).mem = s.mem.write s.rx.address.toNat x := rfl
@[simp] theorem rxStore_history (x : Byte) (s : State) : (rxStore x s).history = s.history := rfl
@[simp] theorem rxStore_cardScript (x : Byte) (s : State) : (rxStore x s).cardScript = s.cardScript := rfl
@[simp] theorem rxStore_params (x : Byte) (s : State) : (rxStore x s).params = s.params := rfl
@[simp] theorem rxStore_agenda (x : Byte) (s : State) : (rxStore x s).agenda = s.agenda := rfl
@[simp] theorem rxStore_hostData (x : Byte) (s : State) : (rxStore x s).hostData = s.hostData := rfl

/-! `recordSession d s` -/

@[simp] theorem recordSession_arg0 (d : SDir) (s : State) : (recordSession d s).arg0 = s.arg0 := rfl
@[simp] theorem recordSession_arg1 (d : SDir) (s : State) : (recordSession d s).arg1 = s.arg1 := rfl
@[simp] theorem recordSession_resultData (d : SDir) (s : State) : (recordSession d s).resultData = s.resultData := rfl
@[simp] theorem recordSession_resultCode (d : SDir) (s : State) : (recordSession d s).resultCode = s.resultCode := rfl
@[simp] theorem recordSession_busy (d : SDir) (s : State) : (recordSession d s).busy = s.busy := rfl
@[simp] theorem recordSession_cs (d : SDir) (s : State) : (recordSession d s).cs = s.cs := rfl
@[simp] theorem recordSession_faulted (d : SDir) (s : State) : (recordSession d s).faulted = s.faulted := rfl
@[simp] theorem recordSession_phase (d : SDir) (s : State) : (recordSession d s).phase = s.phase := rfl
@[simp] theorem recordSession_sdir (d : SDir) (s : State) : (recordSession d s).sdir = d := rfl
@[simp] theorem recordSession_dataAccepted (d : SDir) (s : State) : (recordSession d s).dataAccepted = false := rfl
@[simp] theorem recordSession_tx (d : SDir) (s : State) : (recordSession d s).tx = s.tx := rfl
@[simp] theorem recordSession_rx (d : SDir) (s : State) : (recordSession d s).rx = s.rx := rfl
@[simp] theorem recordSession_txFill (d : SDir) (s : State) : (recordSession d s).txFill = s.txFill := rfl
@[simp] theorem recordSession_fcode (d : SDir) (s : State) : (recordSession d s).fcode = s.fcode := rfl
@[simp] theorem recordSession_faultCmd (d : SDir) (s : State) : (recordSession d s).faultCmd = s.faultCmd := rfl
@[simp] theorem recordSession_sector (d : SDir) (s : State) : (recordSession d s).sector = sectorOperand s.larg0 := rfl
@[simp] theorem recordSession_lop (d : SDir) (s : State) : (recordSession d s).lop = s.lop := rfl
@[simp] theorem recordSession_larg0 (d : SDir) (s : State) : (recordSession d s).larg0 = s.larg0 := rfl
@[simp] theorem recordSession_larg1 (d : SDir) (s : State) : (recordSession d s).larg1 = s.larg1 := rfl
@[simp] theorem recordSession_pos (d : SDir) (s : State) : (recordSession d s).pos = s.pos := rfl
@[simp] theorem recordSession_locals (d : SDir) (s : State) : (recordSession d s).locals = s.locals := rfl
@[simp] theorem recordSession_mem (d : SDir) (s : State) : (recordSession d s).mem = s.mem := rfl
@[simp] theorem recordSession_history (d : SDir) (s : State) : (recordSession d s).history = s.history := rfl
@[simp] theorem recordSession_cardScript (d : SDir) (s : State) : (recordSession d s).cardScript = s.cardScript := rfl
@[simp] theorem recordSession_params (d : SDir) (s : State) : (recordSession d s).params = s.params := rfl
@[simp] theorem recordSession_agenda (d : SDir) (s : State) : (recordSession d s).agenda = s.agenda := rfl
@[simp] theorem recordSession_hostData (d : SDir) (s : State) : (recordSession d s).hostData = s.hostData := rfl

/-! `uLoad .tx p c f s` -/

@[simp] theorem uLoad_tx_arg0 (p : Word) (c : BitVec 16) (f : Bool) (s : State) : (uLoad .tx p c f s).arg0 = s.arg0 := rfl
@[simp] theorem uLoad_tx_arg1 (p : Word) (c : BitVec 16) (f : Bool) (s : State) : (uLoad .tx p c f s).arg1 = s.arg1 := rfl
@[simp] theorem uLoad_tx_resultData (p : Word) (c : BitVec 16) (f : Bool) (s : State) : (uLoad .tx p c f s).resultData = s.resultData := rfl
@[simp] theorem uLoad_tx_resultCode (p : Word) (c : BitVec 16) (f : Bool) (s : State) : (uLoad .tx p c f s).resultCode = s.resultCode := rfl
@[simp] theorem uLoad_tx_busy (p : Word) (c : BitVec 16) (f : Bool) (s : State) : (uLoad .tx p c f s).busy = s.busy := rfl
@[simp] theorem uLoad_tx_cs (p : Word) (c : BitVec 16) (f : Bool) (s : State) : (uLoad .tx p c f s).cs = s.cs := rfl
@[simp] theorem uLoad_tx_faulted (p : Word) (c : BitVec 16) (f : Bool) (s : State) : (uLoad .tx p c f s).faulted = s.faulted := rfl
@[simp] theorem uLoad_tx_phase (p : Word) (c : BitVec 16) (f : Bool) (s : State) : (uLoad .tx p c f s).phase = s.phase := rfl
@[simp] theorem uLoad_tx_sdir (p : Word) (c : BitVec 16) (f : Bool) (s : State) : (uLoad .tx p c f s).sdir = s.sdir := rfl
@[simp] theorem uLoad_tx_dataAccepted (p : Word) (c : BitVec 16) (f : Bool) (s : State) : (uLoad .tx p c f s).dataAccepted = s.dataAccepted := rfl
@[simp] theorem uLoad_tx_tx (p : Word) (c : BitVec 16) (f : Bool) (s : State) : (uLoad .tx p c f s).tx = { s.tx with ptr := p, count := c, rem := c, done := false, loaded := true, cfg := true } := rfl
@[simp] theorem uLoad_tx_rx (p : Word) (c : BitVec 16) (f : Bool) (s : State) : (uLoad .tx p c f s).rx = s.rx := rfl
@[simp] theorem uLoad_tx_txFill (p : Word) (c : BitVec 16) (f : Bool) (s : State) : (uLoad .tx p c f s).txFill = f := rfl
@[simp] theorem uLoad_tx_fcode (p : Word) (c : BitVec 16) (f : Bool) (s : State) : (uLoad .tx p c f s).fcode = s.fcode := rfl
@[simp] theorem uLoad_tx_faultCmd (p : Word) (c : BitVec 16) (f : Bool) (s : State) : (uLoad .tx p c f s).faultCmd = s.faultCmd := rfl
@[simp] theorem uLoad_tx_sector (p : Word) (c : BitVec 16) (f : Bool) (s : State) : (uLoad .tx p c f s).sector = s.sector := rfl
@[simp] theorem uLoad_tx_lop (p : Word) (c : BitVec 16) (f : Bool) (s : State) : (uLoad .tx p c f s).lop = s.lop := rfl
@[simp] theorem uLoad_tx_larg0 (p : Word) (c : BitVec 16) (f : Bool) (s : State) : (uLoad .tx p c f s).larg0 = s.larg0 := rfl
@[simp] theorem uLoad_tx_larg1 (p : Word) (c : BitVec 16) (f : Bool) (s : State) : (uLoad .tx p c f s).larg1 = s.larg1 := rfl
@[simp] theorem uLoad_tx_pos (p : Word) (c : BitVec 16) (f : Bool) (s : State) : (uLoad .tx p c f s).pos = s.pos := rfl
@[simp] theorem uLoad_tx_locals (p : Word) (c : BitVec 16) (f : Bool) (s : State) : (uLoad .tx p c f s).locals = s.locals := rfl
@[simp] theorem uLoad_tx_mem (p : Word) (c : BitVec 16) (f : Bool) (s : State) : (uLoad .tx p c f s).mem = s.mem := rfl
@[simp] theorem uLoad_tx_history (p : Word) (c : BitVec 16) (f : Bool) (s : State) : (uLoad .tx p c f s).history = s.history := rfl
@[simp] theorem uLoad_tx_cardScript (p : Word) (c : BitVec 16) (f : Bool) (s : State) : (uLoad .tx p c f s).cardScript = s.cardScript := rfl
@[simp] theorem uLoad_tx_params (p : Word) (c : BitVec 16) (f : Bool) (s : State) : (uLoad .tx p c f s).params = s.params := rfl
@[simp] theorem uLoad_tx_agenda (p : Word) (c : BitVec 16) (f : Bool) (s : State) : (uLoad .tx p c f s).agenda = s.agenda := rfl
@[simp] theorem uLoad_tx_hostData (p : Word) (c : BitVec 16) (f : Bool) (s : State) : (uLoad .tx p c f s).hostData = s.hostData := rfl

/-! `uLoad .rx p c f s` -/

@[simp] theorem uLoad_rx_arg0 (p : Word) (c : BitVec 16) (f : Bool) (s : State) : (uLoad .rx p c f s).arg0 = s.arg0 := rfl
@[simp] theorem uLoad_rx_arg1 (p : Word) (c : BitVec 16) (f : Bool) (s : State) : (uLoad .rx p c f s).arg1 = s.arg1 := rfl
@[simp] theorem uLoad_rx_resultData (p : Word) (c : BitVec 16) (f : Bool) (s : State) : (uLoad .rx p c f s).resultData = s.resultData := rfl
@[simp] theorem uLoad_rx_resultCode (p : Word) (c : BitVec 16) (f : Bool) (s : State) : (uLoad .rx p c f s).resultCode = s.resultCode := rfl
@[simp] theorem uLoad_rx_busy (p : Word) (c : BitVec 16) (f : Bool) (s : State) : (uLoad .rx p c f s).busy = s.busy := rfl
@[simp] theorem uLoad_rx_cs (p : Word) (c : BitVec 16) (f : Bool) (s : State) : (uLoad .rx p c f s).cs = s.cs := rfl
@[simp] theorem uLoad_rx_faulted (p : Word) (c : BitVec 16) (f : Bool) (s : State) : (uLoad .rx p c f s).faulted = s.faulted := rfl
@[simp] theorem uLoad_rx_phase (p : Word) (c : BitVec 16) (f : Bool) (s : State) : (uLoad .rx p c f s).phase = s.phase := rfl
@[simp] theorem uLoad_rx_sdir (p : Word) (c : BitVec 16) (f : Bool) (s : State) : (uLoad .rx p c f s).sdir = s.sdir := rfl
@[simp] theorem uLoad_rx_dataAccepted (p : Word) (c : BitVec 16) (f : Bool) (s : State) : (uLoad .rx p c f s).dataAccepted = s.dataAccepted := rfl
@[simp] theorem uLoad_rx_tx (p : Word) (c : BitVec 16) (f : Bool) (s : State) : (uLoad .rx p c f s).tx = s.tx := rfl
@[simp] theorem uLoad_rx_rx (p : Word) (c : BitVec 16) (f : Bool) (s : State) : (uLoad .rx p c f s).rx = { s.rx with ptr := p, count := c, rem := c, done := false, loaded := true, cfg := true } := rfl
@[simp] theorem uLoad_rx_txFill (p : Word) (c : BitVec 16) (f : Bool) (s : State) : (uLoad .rx p c f s).txFill = s.txFill := rfl
@[simp] theorem uLoad_rx_fcode (p : Word) (c : BitVec 16) (f : Bool) (s : State) : (uLoad .rx p c f s).fcode = s.fcode := rfl
@[simp] theorem uLoad_rx_faultCmd (p : Word) (c : BitVec 16) (f : Bool) (s : State) : (uLoad .rx p c f s).faultCmd = s.faultCmd := rfl
@[simp] theorem uLoad_rx_sector (p : Word) (c : BitVec 16) (f : Bool) (s : State) : (uLoad .rx p c f s).sector = s.sector := rfl
@[simp] theorem uLoad_rx_lop (p : Word) (c : BitVec 16) (f : Bool) (s : State) : (uLoad .rx p c f s).lop = s.lop := rfl
@[simp] theorem uLoad_rx_larg0 (p : Word) (c : BitVec 16) (f : Bool) (s : State) : (uLoad .rx p c f s).larg0 = s.larg0 := rfl
@[simp] theorem uLoad_rx_larg1 (p : Word) (c : BitVec 16) (f : Bool) (s : State) : (uLoad .rx p c f s).larg1 = s.larg1 := rfl
@[simp] theorem uLoad_rx_pos (p : Word) (c : BitVec 16) (f : Bool) (s : State) : (uLoad .rx p c f s).pos = s.pos := rfl
@[simp] theorem uLoad_rx_locals (p : Word) (c : BitVec 16) (f : Bool) (s : State) : (uLoad .rx p c f s).locals = s.locals := rfl
@[simp] theorem uLoad_rx_mem (p : Word) (c : BitVec 16) (f : Bool) (s : State) : (uLoad .rx p c f s).mem = s.mem := rfl
@[simp] theorem uLoad_rx_history (p : Word) (c : BitVec 16) (f : Bool) (s : State) : (uLoad .rx p c f s).history = s.history := rfl
@[simp] theorem uLoad_rx_cardScript (p : Word) (c : BitVec 16) (f : Bool) (s : State) : (uLoad .rx p c f s).cardScript = s.cardScript := rfl
@[simp] theorem uLoad_rx_params (p : Word) (c : BitVec 16) (f : Bool) (s : State) : (uLoad .rx p c f s).params = s.params := rfl
@[simp] theorem uLoad_rx_agenda (p : Word) (c : BitVec 16) (f : Bool) (s : State) : (uLoad .rx p c f s).agenda = s.agenda := rfl
@[simp] theorem uLoad_rx_hostData (p : Word) (c : BitVec 16) (f : Bool) (s : State) : (uLoad .rx p c f s).hostData = s.hostData := rfl

/-! `uEnable .tx s` -/

@[simp] theorem uEnable_tx_arg0 (s : State) : (uEnable .tx s).arg0 = s.arg0 := rfl
@[simp] theorem uEnable_tx_arg1 (s : State) : (uEnable .tx s).arg1 = s.arg1 := rfl
@[simp] theorem uEnable_tx_resultData (s : State) : (uEnable .tx s).resultData = s.resultData := rfl
@[simp] theorem uEnable_tx_resultCode (s : State) : (uEnable .tx s).resultCode = s.resultCode := rfl
@[simp] theorem uEnable_tx_busy (s : State) : (uEnable .tx s).busy = s.busy := rfl
@[simp] theorem uEnable_tx_cs (s : State) : (uEnable .tx s).cs = s.cs := rfl
@[simp] theorem uEnable_tx_faulted (s : State) : (uEnable .tx s).faulted = s.faulted := rfl
@[simp] theorem uEnable_tx_phase (s : State) : (uEnable .tx s).phase = s.phase := rfl
@[simp] theorem uEnable_tx_sdir (s : State) : (uEnable .tx s).sdir = s.sdir := rfl
@[simp] theorem uEnable_tx_dataAccepted (s : State) : (uEnable .tx s).dataAccepted = s.dataAccepted := rfl
@[simp] theorem uEnable_tx_tx (s : State) : (uEnable .tx s).tx = { s.tx with en := true, rem := s.tx.count, done := s.tx.count == 0, loaded := false } := rfl
@[simp] theorem uEnable_tx_rx (s : State) : (uEnable .tx s).rx = s.rx := rfl
@[simp] theorem uEnable_tx_txFill (s : State) : (uEnable .tx s).txFill = s.txFill := rfl
@[simp] theorem uEnable_tx_fcode (s : State) : (uEnable .tx s).fcode = s.fcode := rfl
@[simp] theorem uEnable_tx_faultCmd (s : State) : (uEnable .tx s).faultCmd = s.faultCmd := rfl
@[simp] theorem uEnable_tx_sector (s : State) : (uEnable .tx s).sector = s.sector := rfl
@[simp] theorem uEnable_tx_lop (s : State) : (uEnable .tx s).lop = s.lop := rfl
@[simp] theorem uEnable_tx_larg0 (s : State) : (uEnable .tx s).larg0 = s.larg0 := rfl
@[simp] theorem uEnable_tx_larg1 (s : State) : (uEnable .tx s).larg1 = s.larg1 := rfl
@[simp] theorem uEnable_tx_pos (s : State) : (uEnable .tx s).pos = s.pos := rfl
@[simp] theorem uEnable_tx_locals (s : State) : (uEnable .tx s).locals = s.locals := rfl
@[simp] theorem uEnable_tx_mem (s : State) : (uEnable .tx s).mem = s.mem := rfl
@[simp] theorem uEnable_tx_history (s : State) : (uEnable .tx s).history = s.history := rfl
@[simp] theorem uEnable_tx_cardScript (s : State) : (uEnable .tx s).cardScript = s.cardScript := rfl
@[simp] theorem uEnable_tx_params (s : State) : (uEnable .tx s).params = s.params := rfl
@[simp] theorem uEnable_tx_agenda (s : State) : (uEnable .tx s).agenda = s.agenda := rfl
@[simp] theorem uEnable_tx_hostData (s : State) : (uEnable .tx s).hostData = s.hostData := rfl

/-! `uEnable .rx s` -/

@[simp] theorem uEnable_rx_arg0 (s : State) : (uEnable .rx s).arg0 = s.arg0 := rfl
@[simp] theorem uEnable_rx_arg1 (s : State) : (uEnable .rx s).arg1 = s.arg1 := rfl
@[simp] theorem uEnable_rx_resultData (s : State) : (uEnable .rx s).resultData = s.resultData := rfl
@[simp] theorem uEnable_rx_resultCode (s : State) : (uEnable .rx s).resultCode = s.resultCode := rfl
@[simp] theorem uEnable_rx_busy (s : State) : (uEnable .rx s).busy = s.busy := rfl
@[simp] theorem uEnable_rx_cs (s : State) : (uEnable .rx s).cs = s.cs := rfl
@[simp] theorem uEnable_rx_faulted (s : State) : (uEnable .rx s).faulted = s.faulted := rfl
@[simp] theorem uEnable_rx_phase (s : State) : (uEnable .rx s).phase = s.phase := rfl
@[simp] theorem uEnable_rx_sdir (s : State) : (uEnable .rx s).sdir = s.sdir := rfl
@[simp] theorem uEnable_rx_dataAccepted (s : State) : (uEnable .rx s).dataAccepted = s.dataAccepted := rfl
@[simp] theorem uEnable_rx_tx (s : State) : (uEnable .rx s).tx = s.tx := rfl
@[simp] theorem uEnable_rx_rx (s : State) : (uEnable .rx s).rx = { s.rx with en := true, rem := s.rx.count, done := s.rx.count == 0, loaded := false } := rfl
@[simp] theorem uEnable_rx_txFill (s : State) : (uEnable .rx s).txFill = s.txFill := rfl
@[simp] theorem uEnable_rx_fcode (s : State) : (uEnable .rx s).fcode = s.fcode := rfl
@[simp] theorem uEnable_rx_faultCmd (s : State) : (uEnable .rx s).faultCmd = s.faultCmd := rfl
@[simp] theorem uEnable_rx_sector (s : State) : (uEnable .rx s).sector = s.sector := rfl
@[simp] theorem uEnable_rx_lop (s : State) : (uEnable .rx s).lop = s.lop := rfl
@[simp] theorem uEnable_rx_larg0 (s : State) : (uEnable .rx s).larg0 = s.larg0 := rfl
@[simp] theorem uEnable_rx_larg1 (s : State) : (uEnable .rx s).larg1 = s.larg1 := rfl
@[simp] theorem uEnable_rx_pos (s : State) : (uEnable .rx s).pos = s.pos := rfl
@[simp] theorem uEnable_rx_locals (s : State) : (uEnable .rx s).locals = s.locals := rfl
@[simp] theorem uEnable_rx_mem (s : State) : (uEnable .rx s).mem = s.mem := rfl
@[simp] theorem uEnable_rx_history (s : State) : (uEnable .rx s).history = s.history := rfl
@[simp] theorem uEnable_rx_cardScript (s : State) : (uEnable .rx s).cardScript = s.cardScript := rfl
@[simp] theorem uEnable_rx_params (s : State) : (uEnable .rx s).params = s.params := rfl
@[simp] theorem uEnable_rx_agenda (s : State) : (uEnable .rx s).agenda = s.agenda := rfl
@[simp] theorem uEnable_rx_hostData (s : State) : (uEnable .rx s).hostData = s.hostData := rfl

/-! `uDisable .tx s` -/

@[simp] theorem uDisable_tx_arg0 (s : State) : (uDisable .tx s).arg0 = s.arg0 := rfl
@[simp] theorem uDisable_tx_arg1 (s : State) : (uDisable .tx s).arg1 = s.arg1 := rfl
@[simp] theorem uDisable_tx_resultData (s : State) : (uDisable .tx s).resultData = s.resultData := rfl
@[simp] theorem uDisable_tx_resultCode (s : State) : (uDisable .tx s).resultCode = s.resultCode := rfl
@[simp] theorem uDisable_tx_busy (s : State) : (uDisable .tx s).busy = s.busy := rfl
@[simp] theorem uDisable_tx_cs (s : State) : (uDisable .tx s).cs = s.cs := rfl
@[simp] theorem uDisable_tx_faulted (s : State) : (uDisable .tx s).faulted = s.faulted := rfl
@[simp] theorem uDisable_tx_phase (s : State) : (uDisable .tx s).phase = s.phase := rfl
@[simp] theorem uDisable_tx_sdir (s : State) : (uDisable .tx s).sdir = s.sdir := rfl
@[simp] theorem uDisable_tx_dataAccepted (s : State) : (uDisable .tx s).dataAccepted = s.dataAccepted := rfl
@[simp] theorem uDisable_tx_tx (s : State) : (uDisable .tx s).tx = { s.tx with en := false } := rfl
@[simp] theorem uDisable_tx_rx (s : State) : (uDisable .tx s).rx = s.rx := rfl
@[simp] theorem uDisable_tx_txFill (s : State) : (uDisable .tx s).txFill = s.txFill := rfl
@[simp] theorem uDisable_tx_fcode (s : State) : (uDisable .tx s).fcode = s.fcode := rfl
@[simp] theorem uDisable_tx_faultCmd (s : State) : (uDisable .tx s).faultCmd = s.faultCmd := rfl
@[simp] theorem uDisable_tx_sector (s : State) : (uDisable .tx s).sector = s.sector := rfl
@[simp] theorem uDisable_tx_lop (s : State) : (uDisable .tx s).lop = s.lop := rfl
@[simp] theorem uDisable_tx_larg0 (s : State) : (uDisable .tx s).larg0 = s.larg0 := rfl
@[simp] theorem uDisable_tx_larg1 (s : State) : (uDisable .tx s).larg1 = s.larg1 := rfl
@[simp] theorem uDisable_tx_pos (s : State) : (uDisable .tx s).pos = s.pos := rfl
@[simp] theorem uDisable_tx_locals (s : State) : (uDisable .tx s).locals = s.locals := rfl
@[simp] theorem uDisable_tx_mem (s : State) : (uDisable .tx s).mem = s.mem := rfl
@[simp] theorem uDisable_tx_history (s : State) : (uDisable .tx s).history = s.history := rfl
@[simp] theorem uDisable_tx_cardScript (s : State) : (uDisable .tx s).cardScript = s.cardScript := rfl
@[simp] theorem uDisable_tx_params (s : State) : (uDisable .tx s).params = s.params := rfl
@[simp] theorem uDisable_tx_agenda (s : State) : (uDisable .tx s).agenda = s.agenda := rfl
@[simp] theorem uDisable_tx_hostData (s : State) : (uDisable .tx s).hostData = s.hostData := rfl

/-! `uDisable .rx s` -/

@[simp] theorem uDisable_rx_arg0 (s : State) : (uDisable .rx s).arg0 = s.arg0 := rfl
@[simp] theorem uDisable_rx_arg1 (s : State) : (uDisable .rx s).arg1 = s.arg1 := rfl
@[simp] theorem uDisable_rx_resultData (s : State) : (uDisable .rx s).resultData = s.resultData := rfl
@[simp] theorem uDisable_rx_resultCode (s : State) : (uDisable .rx s).resultCode = s.resultCode := rfl
@[simp] theorem uDisable_rx_busy (s : State) : (uDisable .rx s).busy = s.busy := rfl
@[simp] theorem uDisable_rx_cs (s : State) : (uDisable .rx s).cs = s.cs := rfl
@[simp] theorem uDisable_rx_faulted (s : State) : (uDisable .rx s).faulted = s.faulted := rfl
@[simp] theorem uDisable_rx_phase (s : State) : (uDisable .rx s).phase = s.phase := rfl
@[simp] theorem uDisable_rx_sdir (s : State) : (uDisable .rx s).sdir = s.sdir := rfl
@[simp] theorem uDisable_rx_dataAccepted (s : State) : (uDisable .rx s).dataAccepted = s.dataAccepted := rfl
@[simp] theorem uDisable_rx_tx (s : State) : (uDisable .rx s).tx = s.tx := rfl
@[simp] theorem uDisable_rx_rx (s : State) : (uDisable .rx s).rx = { s.rx with en := false } := rfl
@[simp] theorem uDisable_rx_txFill (s : State) : (uDisable .rx s).txFill = s.txFill := rfl
@[simp] theorem uDisable_rx_fcode (s : State) : (uDisable .rx s).fcode = s.fcode := rfl
@[simp] theorem uDisable_rx_faultCmd (s : State) : (uDisable .rx s).faultCmd = s.faultCmd := rfl
@[simp] theorem uDisable_rx_sector (s : State) : (uDisable .rx s).sector = s.sector := rfl
@[simp] theorem uDisable_rx_lop (s : State) : (uDisable .rx s).lop = s.lop := rfl
@[simp] theorem uDisable_rx_larg0 (s : State) : (uDisable .rx s).larg0 = s.larg0 := rfl
@[simp] theorem uDisable_rx_larg1 (s : State) : (uDisable .rx s).larg1 = s.larg1 := rfl
@[simp] theorem uDisable_rx_pos (s : State) : (uDisable .rx s).pos = s.pos := rfl
@[simp] theorem uDisable_rx_locals (s : State) : (uDisable .rx s).locals = s.locals := rfl
@[simp] theorem uDisable_rx_mem (s : State) : (uDisable .rx s).mem = s.mem := rfl
@[simp] theorem uDisable_rx_history (s : State) : (uDisable .rx s).history = s.history := rfl
@[simp] theorem uDisable_rx_cardScript (s : State) : (uDisable .rx s).cardScript = s.cardScript := rfl
@[simp] theorem uDisable_rx_params (s : State) : (uDisable .rx s).params = s.params := rfl
@[simp] theorem uDisable_rx_agenda (s : State) : (uDisable .rx s).agenda = s.agenda := rfl
@[simp] theorem uDisable_rx_hostData (s : State) : (uDisable .rx s).hostData = s.hostData := rfl

/-! `dmaMove s` -/

@[simp] theorem dmaMove_arg0 (s : State) : (dmaMove s).arg0 = s.arg0 := by unfold dmaMove; split <;> rfl
@[simp] theorem dmaMove_arg1 (s : State) : (dmaMove s).arg1 = s.arg1 := by unfold dmaMove; split <;> rfl
@[simp] theorem dmaMove_resultData (s : State) : (dmaMove s).resultData = s.resultData := by unfold dmaMove; split <;> rfl
@[simp] theorem dmaMove_resultCode (s : State) : (dmaMove s).resultCode = s.resultCode := by unfold dmaMove; split <;> rfl
@[simp] theorem dmaMove_busy (s : State) : (dmaMove s).busy = s.busy := by unfold dmaMove; split <;> rfl
@[simp] theorem dmaMove_cs (s : State) : (dmaMove s).cs = s.cs := by unfold dmaMove; split <;> rfl
@[simp] theorem dmaMove_faulted (s : State) : (dmaMove s).faulted = s.faulted := by unfold dmaMove; split <;> rfl
@[simp] theorem dmaMove_phase (s : State) : (dmaMove s).phase = s.phase := by unfold dmaMove; split <;> rfl
@[simp] theorem dmaMove_sdir (s : State) : (dmaMove s).sdir = s.sdir := by unfold dmaMove; split <;> rfl
@[simp] theorem dmaMove_dataAccepted (s : State) : (dmaMove s).dataAccepted = s.dataAccepted := by unfold dmaMove; split <;> rfl
@[simp] theorem dmaMove_tx (s : State) : (dmaMove s).tx = s.tx.countDown := by unfold dmaMove; split <;> rfl
@[simp] theorem dmaMove_rx (s : State) : (dmaMove s).rx = if rxCaptures s then s.rx.countDown else s.rx := by unfold dmaMove; split <;> rfl
@[simp] theorem dmaMove_txFill (s : State) : (dmaMove s).txFill = s.txFill := by unfold dmaMove; split <;> rfl
@[simp] theorem dmaMove_fcode (s : State) : (dmaMove s).fcode = s.fcode := by unfold dmaMove; split <;> rfl
@[simp] theorem dmaMove_faultCmd (s : State) : (dmaMove s).faultCmd = s.faultCmd := by unfold dmaMove; split <;> rfl
@[simp] theorem dmaMove_sector (s : State) : (dmaMove s).sector = s.sector := by unfold dmaMove; split <;> rfl
@[simp] theorem dmaMove_lop (s : State) : (dmaMove s).lop = s.lop := by unfold dmaMove; split <;> rfl
@[simp] theorem dmaMove_larg0 (s : State) : (dmaMove s).larg0 = s.larg0 := by unfold dmaMove; split <;> rfl
@[simp] theorem dmaMove_larg1 (s : State) : (dmaMove s).larg1 = s.larg1 := by unfold dmaMove; split <;> rfl
@[simp] theorem dmaMove_pos (s : State) : (dmaMove s).pos = s.pos := by unfold dmaMove; split <;> rfl
@[simp] theorem dmaMove_locals (s : State) : (dmaMove s).locals = s.locals := by unfold dmaMove; split <;> rfl
@[simp] theorem dmaMove_mem (s : State) : (dmaMove s).mem = if rxCaptures s then s.mem.write s.rx.address.toNat (cardAnswer (dmaOut s) s) else s.mem := by unfold dmaMove; split <;> rfl
@[simp] theorem dmaMove_history (s : State) : (dmaMove s).history = s.history ++ [{ cs := s.cs, out := dmaOut s, inp := cardAnswer (dmaOut s) s }] := by unfold dmaMove; split <;> rfl
@[simp] theorem dmaMove_cardScript (s : State) : (dmaMove s).cardScript = s.cardScript.tail := by unfold dmaMove; split <;> rfl
@[simp] theorem dmaMove_params (s : State) : (dmaMove s).params = s.params := by unfold dmaMove; split <;> rfl
@[simp] theorem dmaMove_agenda (s : State) : (dmaMove s).agenda = s.agenda := by unfold dmaMove; split <;> rfl
@[simp] theorem dmaMove_hostData (s : State) : (dmaMove s).hostData = s.hostData := by unfold dmaMove; split <;> rfl

/-! `pollRound s` -/

@[simp] theorem pollRound_arg0 (s : State) : (pollRound s).arg0 = s.arg0 := rfl
@[simp] theorem pollRound_arg1 (s : State) : (pollRound s).arg1 = s.arg1 := rfl
@[simp] theorem pollRound_resultData (s : State) : (pollRound s).resultData = s.resultData := rfl
@[simp] theorem pollRound_resultCode (s : State) : (pollRound s).resultCode = s.resultCode := rfl
@[simp] theorem pollRound_busy (s : State) : (pollRound s).busy = s.busy := rfl
@[simp] theorem pollRound_cs (s : State) : (pollRound s).cs = s.cs := rfl
@[simp] theorem pollRound_faulted (s : State) : (pollRound s).faulted = s.faulted := rfl
@[simp] theorem pollRound_phase (s : State) : (pollRound s).phase = s.phase := rfl
@[simp] theorem pollRound_sdir (s : State) : (pollRound s).sdir = s.sdir := rfl
@[simp] theorem pollRound_dataAccepted (s : State) : (pollRound s).dataAccepted = s.dataAccepted := rfl
@[simp] theorem pollRound_tx (s : State) : (pollRound s).tx = s.tx := rfl
@[simp] theorem pollRound_rx (s : State) : (pollRound s).rx = s.rx := rfl
@[simp] theorem pollRound_txFill (s : State) : (pollRound s).txFill = s.txFill := rfl
@[simp] theorem pollRound_fcode (s : State) : (pollRound s).fcode = s.fcode := rfl
@[simp] theorem pollRound_faultCmd (s : State) : (pollRound s).faultCmd = s.faultCmd := rfl
@[simp] theorem pollRound_sector (s : State) : (pollRound s).sector = s.sector := rfl
@[simp] theorem pollRound_lop (s : State) : (pollRound s).lop = s.lop := rfl
@[simp] theorem pollRound_larg0 (s : State) : (pollRound s).larg0 = s.larg0 := rfl
@[simp] theorem pollRound_larg1 (s : State) : (pollRound s).larg1 = s.larg1 := rfl
@[simp] theorem pollRound_pos (s : State) : (pollRound s).pos = s.pos := rfl
@[simp] theorem pollRound_locals (s : State) : (pollRound s).locals = s.locals := rfl
@[simp] theorem pollRound_mem (s : State) : (pollRound s).mem = s.mem := rfl
@[simp] theorem pollRound_history (s : State) : (pollRound s).history = s.history := rfl
@[simp] theorem pollRound_cardScript (s : State) : (pollRound s).cardScript = s.cardScript := rfl
@[simp] theorem pollRound_params (s : State) : (pollRound s).params = s.params := rfl
@[simp] theorem pollRound_hostData (s : State) : (pollRound s).hostData = statusWord s := rfl

/-- Bit 0 of STATUS is BUSY (10_state.md R29). -/
@[simp] theorem statusWord_busy (s : State) : (statusWord s).getLsbD 0 = s.busy := by
  unfold statusWord
  rw [BitVec.getLsbD_append]
  simp

/-- One round of POLL delivers STATUS and goes on exactly when BUSY is 1. -/
theorem pollRound_eq (s : State) :
    pollRound s = { s with hostData := statusWord s, agenda := if s.busy then pollAgain s.agenda else s.agenda } := by
  unfold pollRound
  rw [show windowValue s 0x10 = statusWord s from rfl, statusWord_busy]

end Sys2Proof.Machine
end

