-- ==== Sys2Proof/Laws/Wire.lean ====
section
/-! SUPPORT. What each micro-routine puts on the wire: one lemma per routine that says everything it does, in the terms of Safety.lean. -/

namespace Sys2Proof.Machine

/-! ### Exchanges -/

@[simp] theorem State.exchanged_nil (s : State) : s.exchanged [] = s := by simp [State.exchanged]

theorem State.exchanged_append (s : State) (g h : List Exchange) :
    (s.exchanged g).exchanged h = s.exchanged (g ++ h) := by
  simp [State.exchanged, List.append_assoc]

@[simp] theorem State.exchanged_cs (s : State) (h : List Exchange) : (s.exchanged h).cs = s.cs := rfl
@[simp] theorem State.exchanged_params (s : State) (h : List Exchange) : (s.exchanged h).params = s.params := rfl
@[simp] theorem State.exchanged_history (s : State) (h : List Exchange) : (s.exchanged h).history = s.history ++ h := rfl
@[simp] theorem State.exchanged_cardScript (s : State) (h : List Exchange) :
    (s.exchanged h).cardScript = s.cardScript.drop h.length := rfl

theorem afterExchange_eq (b : Byte) (s : State) : afterExchange b s = s.exchanged [⟨s.cs, b, cardAnswer b s⟩] := by
  simp [afterExchange, State.exchanged]

theorem uWrite_eq (b : Byte) (s : State) : uWrite b s = s.exchanged [⟨s.cs, b, cardAnswer b s⟩] := afterExchange_eq b s

@[simp] theorem wireOut_append (g h : List Exchange) : wireOut (g ++ h) = wireOut g ++ wireOut h := List.map_append

@[simp] theorem wireOut_length (h : List Exchange) : (wireOut h).length = h.length := List.length_map _

/-! ### Scripted answers -/

@[simp] theorem answersScripted_nil (s : State) : answersScripted s [] := fun _ hj => absurd hj (Nat.not_lt_zero _)

/-- An exchange is answered by the next scripted answer, if there is one. -/
theorem cardAnswer_scripted {s : State} {x : Byte} (b : Byte) (h : s.cardScript[0]? = some x) : cardAnswer b s = x := by
  unfold cardAnswer
  cases hs : s.cardScript with
  | nil => rw [hs] at h; simp at h
  | cons y ys => rw [hs] at h; simpa using h

theorem answersScripted_one (s : State) (c : Bool) (b : Byte) : answersScripted s [⟨c, b, cardAnswer b s⟩] := by
  intro j hj x hx
  obtain rfl : j = 0 := by simpa using hj
  exact cardAnswer_scripted b hx

/-- Exchanges after exchanges: the later ones are answered by what is left of the script. -/
theorem answersScripted_append {s t : State} {g h : List Exchange} (hg : answersScripted s g)
    (ht : t.cardScript = s.cardScript.drop g.length) (hh : answersScripted t h) : answersScripted s (g ++ h) := by
  intro j hj x hx
  by_cases hlt : j < g.length
  · rw [List.getElem_append_left hlt]; exact hg j hlt x hx
  · rw [List.getElem_append_right (by omega)]
    refine hh (j - g.length) (by simp at hj; omega) x ?_
    rw [ht, List.getElem?_drop, Nat.add_sub_cancel' (by omega)]; exact hx

/-- Only the script matters. -/
theorem answersScripted_congr {s t : State} {h : List Exchange} (ht : t.cardScript = s.cardScript)
    (hh : answersScripted t h) : answersScripted s h := by
  unfold answersScripted at *; rwa [ht] at hh

/-! ### The frame and the polls -/

/-- `sendBytes` drives the bytes in order at the present chip-select and changes nothing but the history and the script. -/
theorem sendBytes_spec (bs : List Byte) (s : State) :
    ∃ h, sendBytes bs s = s.exchanged h ∧ wireOut h = bs.map (fun b => (s.cs, b)) ∧ answersScripted s h := by
  induction bs generalizing s with
  | nil => exact ⟨[], by simp [sendBytes], rfl, answersScripted_nil s⟩
  | cons b bs ih =>
    obtain ⟨h, hs, ho, ha⟩ := ih (uWrite b s)
    refine ⟨⟨s.cs, b, cardAnswer b s⟩ :: h, ?_, ?_, ?_⟩
    · rw [sendBytes, hs, uWrite_eq, State.exchanged_append]; rfl
    · rw [← List.singleton_append, wireOut_append, ho]; simp [wireOut]
    · exact answersScripted_append (answersScripted_one s s.cs b) (by simp) ha

/-- The response poll with `n` exchanges left. -/
theorem pollResponse_spec (n : Nat) (s : State) :
    ∃ h, (pollResponse n s).2 = s.exchanged h ∧ answersScripted s h ∧ (∀ e ∈ h, e.cs = s.cs ∧ e.out = 0xFF) ∧
      (((pollResponse n s).1 = s.params.idleByte ∧ h.length = n ∧ ∀ e ∈ h, e.inp = s.params.idleByte) ∨
       ((pollResponse n s).1 ≠ s.params.idleByte ∧ h.length ≤ n ∧ ∃ idle last, h = idle ++ [last] ∧
          last.inp = (pollResponse n s).1 ∧ ∀ e ∈ idle, e.inp = s.params.idleByte)) := by
  induction n generalizing s with
  | zero => exact ⟨[], by simp [pollResponse]⟩
  | succ n ih =>
    unfold pollResponse
    split
    · next hne =>
      refine ⟨[⟨s.cs, clockByte, cardAnswer clockByte s⟩], afterExchange_eq _ s, answersScripted_one s _ _, ?_, .inr ⟨hne, ?_, ?_⟩⟩
      · simp [clockByte]
      · simp
      · exact ⟨[], _, rfl, rfl, by simp⟩
    · next hidle =>
      have hidle : cardAnswer clockByte s = s.params.idleByte := by simpa using hidle
      obtain ⟨h, hs, ha, hb, hr⟩ := ih (afterExchange clockByte s)
      refine ⟨⟨s.cs, clockByte, cardAnswer clockByte s⟩ :: h, ?_, ?_, ?_, ?_⟩
      · rw [hs, afterExchange_eq, State.exchanged_append]; rfl
      · exact answersScripted_append (answersScripted_one s s.cs clockByte) (by simp) ha
      · simpa [clockByte] using hb
      · simp only [afterExchange_params] at hr
        rcases hr with ⟨h1, h2, h3⟩ | ⟨h1, h2, idle, last, rfl, h4, h5⟩
        · exact .inl ⟨h1, by simp [h2], by simpa [hidle] using h3⟩
        · refine .inr ⟨h1, by simpa using h2, ⟨s.cs, clockByte, cardAnswer clockByte s⟩ :: idle, last, rfl, h4, ?_⟩
          simpa [hidle] using h5

/-- `uCommand` drives the frame and the response poll with CS = 1 and leaves CS at 1. -/
theorem uCommand_spec (o : Byte) (a : Word) (s : State) :
    ∃ h, (uCommand o a s).2 = { s with cs := true }.exchanged h ∧
      CommandExchanges s.params o a (uCommand o a s).1 h ∧ answersScripted s h := by
  obtain ⟨f, hf, hfo, hfa⟩ := sendBytes_spec (frameBytes o a s.params.cmdTrailer) (uSelect s)
  obtain ⟨g, hg, hga, hgb, hgr⟩ := pollResponse_spec s.params.nResp.toNat ((uSelect s).exchanged f)
  unfold uCommand
  rw [hf]
  refine ⟨f ++ g, ?_, ⟨f, g, rfl, hfo, ?_, ?_⟩, ?_⟩
  · rw [hg, State.exchanged_append]; rfl
  · simpa using hgb
  · simpa using hgr
  · exact answersScripted_append (answersScripted_congr rfl hfa) rfl hga

/-- The busy poll with `n` exchanges left. -/
theorem pollReady_spec (n : Nat) (s : State) :
    ∃ h, (pollReady n s).2 = s.exchanged h ∧ answersScripted s h ∧ (∀ e ∈ h, e.cs = s.cs ∧ e.out = 0xFF) ∧
      if (pollReady n s).1 then h.length ≤ n ∧ ∃ busy last, h = busy ++ [last] ∧ last.inp = s.params.readyByte ∧
          ∀ e ∈ busy, e.inp ≠ s.params.readyByte
      else h.length = n ∧ ∀ e ∈ h, e.inp ≠ s.params.readyByte := by
  induction n generalizing s with
  | zero => exact ⟨[], by simp [pollReady]⟩
  | succ n ih =>
    unfold pollReady
    split
    · next hready =>
      have hready : cardAnswer clockByte s = s.params.readyByte := by simpa [isReady] using hready
      refine ⟨[⟨s.cs, clockByte, cardAnswer clockByte s⟩], afterExchange_eq _ s, answersScripted_one s _ _, ?_, ?_⟩
      · simp [clockByte]
      · rw [if_pos rfl]; exact ⟨by simp, [], _, rfl, hready, by simp⟩
    · next hbusy =>
      have hbusy : cardAnswer clockByte s ≠ s.params.readyByte := by simpa [isReady] using hbusy
      obtain ⟨h, hs, ha, hb, hr⟩ := ih (afterExchange clockByte s)
      refine ⟨⟨s.cs, clockByte, cardAnswer clockByte s⟩ :: h, ?_, ?_, ?_, ?_⟩
      · rw [hs, afterExchange_eq, State.exchanged_append]; rfl
      · exact answersScripted_append (answersScripted_one s s.cs clockByte) (by simp) ha
      · simpa [clockByte] using hb
      · simp only [afterExchange_params] at hr
        split at hr
        · next hok =>
          obtain ⟨h2, busy, last, rfl, h4, h5⟩ := hr
          rw [if_pos hok]
          exact ⟨by simpa using h2, ⟨s.cs, clockByte, cardAnswer clockByte s⟩ :: busy, last, rfl, h4, by simpa [hbusy] using h5⟩
        · next hok =>
          rw [if_neg hok]
          exact ⟨by simp [hr.1], by simpa [hbusy] using hr.2⟩

/-- `uWaitNotBusy` is one busy poll with CS = 1, and leaves CS at 0. -/
theorem uWaitNotBusy_spec (n : Word) (s : State) :
    ∃ h, (uWaitNotBusy n s).2 = { s with cs := false }.exchanged h ∧
      BusyPoll s.params n.toNat (uWaitNotBusy n s).1 h ∧ answersScripted s h := by
  obtain ⟨h, hs, ha, hb, hr⟩ := pollReady_spec n.toNat (uSelect s)
  refine ⟨h, ?_, ⟨hb, hr⟩, answersScripted_congr rfl ha⟩
  unfold uWaitNotBusy; rw [hs]; rfl

/-- The post-write polls with `n` retries left. -/
theorem closePolls_spec (n : Nat) (s : State) :
    ∃ h, (closePolls n s).2 = { s with cs := if n = 0 then s.cs else false }.exchanged h ∧ answersScripted s h ∧
      ∃ vain : List (List Exchange), (∀ l ∈ vain, BusyPoll s.params s.params.closeBusyBudget.toNat false l) ∧
        if (closePolls n s).1 then vain.length < n ∧
          ∃ last, BusyPoll s.params s.params.closeBusyBudget.toNat true last ∧ h = vain.flatten ++ last
        else vain.length = n ∧ h = vain.flatten := by
  induction n generalizing s with
  | zero => exact ⟨[], by simp [closePolls], by simp, [], by simp [closePolls]⟩
  | succ n ih =>
    obtain ⟨g, hg, hgb, hga⟩ := uWaitNotBusy_spec s.params.closeBusyBudget s
    unfold closePolls
    split
    · next hok =>
      rw [hok] at hgb
      exact ⟨g, by simpa using hg, hga, [], by simp, by rw [if_pos rfl]; exact ⟨by simp, g, hgb, by simp⟩⟩
    · next hok =>
      rw [Bool.not_eq_true] at hok
      rw [hok] at hgb
      obtain ⟨h, hs, ha, vain, hv, hr⟩ := ih (uWaitNotBusy s.params.closeBusyBudget s).2
      rw [hg] at hs ha hv hr ⊢
      refine ⟨g ++ h, ?_, ?_, g :: vain, ?_, ?_⟩
      · rw [hs]; simp [State.exchanged, List.append_assoc]
      · exact answersScripted_append hga rfl ha
      · intro l hl
        rcases List.mem_cons.mp hl with rfl | hl
        · exact hgb
        · exact hv l hl
      · split
        · next h1 =>
          rw [if_pos h1] at hr
          obtain ⟨hlen, last, hlast, rfl⟩ := hr
          exact ⟨by simpa using hlen, last, hlast, by simp⟩
        · next h1 =>
          rw [if_neg h1] at hr
          exact ⟨by simp [hr.1], by simp [hr.2]⟩

/-! ### Polls of a scripted card -/

/-- A busy poll of a card that is busy for the answers `busy` and then ready, within the budget. -/
theorem pollReady_scripted {n : Nat} {s : State} {busy rest : List Byte} (hn : busy.length < n)
    (hb : ∀ b ∈ busy, b ≠ s.params.readyByte) (hs : s.cardScript = busy ++ s.params.readyByte :: rest) :
    ∃ h, pollReady n s = (true, s.exchanged h) ∧ h.length = busy.length + 1 := by
  induction busy generalizing n s with
  | nil =>
    obtain ⟨n, rfl⟩ : ∃ m, n = m + 1 := ⟨n - 1, by simp at hn; omega⟩
    have hx : cardAnswer clockByte s = s.params.readyByte := cardAnswer_scripted _ (by rw [hs]; rfl)
    refine ⟨[⟨s.cs, clockByte, cardAnswer clockByte s⟩], ?_, rfl⟩
    unfold pollReady
    rw [if_pos (by simp [isReady, hx]), afterExchange_eq]
  | cons b bs ih =>
    obtain ⟨n, rfl⟩ : ∃ m, n = m + 1 := ⟨n - 1, by simp at hn; omega⟩
    have hx : cardAnswer clockByte s = b := cardAnswer_scripted _ (by rw [hs]; rfl)
    obtain ⟨h, h1, h2⟩ := ih (n := n) (s := afterExchange clockByte s) (by simpa using hn) (fun c hc => hb c (List.mem_cons_of_mem _ hc))
      (by rw [afterExchange_eq]; simp [hs])
    refine ⟨⟨s.cs, clockByte, cardAnswer clockByte s⟩ :: h, ?_, by simp [h2]⟩
    unfold pollReady
    rw [if_neg (by simpa [isReady, hx] using hb b List.mem_cons_self), h1, afterExchange_eq, State.exchanged_append]
    rfl

/-- A response poll of a card that sends IDLE_BYTE for the answers `idle` and then another byte, within the budget. -/
theorem pollResponse_scripted {n : Nat} {s : State} {r : Byte} {idle rest : List Byte} (hn : idle.length < n)
    (hi : ∀ b ∈ idle, b = s.params.idleByte) (hr : r ≠ s.params.idleByte) (hs : s.cardScript = idle ++ r :: rest) :
    ∃ h, pollResponse n s = (r, s.exchanged h) ∧ h.length = idle.length + 1 := by
  induction idle generalizing n s with
  | nil =>
    obtain ⟨n, rfl⟩ : ∃ m, n = m + 1 := ⟨n - 1, by simp at hn; omega⟩
    have hx : cardAnswer clockByte s = r := cardAnswer_scripted _ (by rw [hs]; rfl)
    refine ⟨[⟨s.cs, clockByte, cardAnswer clockByte s⟩], ?_, rfl⟩
    unfold pollResponse
    rw [if_pos (by rw [hx]; exact hr)]
    simp only [exchange, afterExchange_eq, hx]
  | cons b bs ih =>
    obtain ⟨n, rfl⟩ : ∃ m, n = m + 1 := ⟨n - 1, by simp at hn; omega⟩
    have hx : cardAnswer clockByte s = b := cardAnswer_scripted _ (by rw [hs]; rfl)
    obtain ⟨h, h1, h2⟩ := ih (n := n) (s := afterExchange clockByte s) (by simpa using hn) (fun c hc => hi c (List.mem_cons_of_mem _ hc))
      hr (by rw [afterExchange_eq]; simp [hs])
    refine ⟨⟨s.cs, clockByte, cardAnswer clockByte s⟩ :: h, ?_, by simp [h2]⟩
    unfold pollResponse
    rw [if_neg (by simp [hx, hi b List.mem_cons_self]), h1, afterExchange_eq, State.exchanged_append]
    rfl

/-! ### The OPEN operations from the busy wait on -/

/-- `openSession` ends in one of its three outcomes, and changes nothing but the phase, chip-select, the wire and what `finish` writes. `tail`
drives the bytes `bytes` after an accepted command. -/
theorem openSession_spec (o : Byte) (tail : State → State) (bytes : List Byte) (s : State)
    (ht : ∀ t, ∃ h, tail t = t.exchanged h ∧ wireOut h = bytes.map (fun b => (t.cs, b)) ∧ answersScripted t h) :
    ∃ code data phase cs h,
      openSession o tail s = finish code data ({ s with phase := phase, cs := cs }.exchanged h) ∧
      OpenOutcome s.params o (sectorAddress (sectorOperand s.larg0)) bytes code data phase cs h ∧ answersScripted s h := by
  obtain ⟨w, hw, hwb, hwa⟩ := uWaitNotBusy_spec s.params.openBusyBudget s
  unfold openSession
  by_cases hok : (uWaitNotBusy s.params.openBusyBudget s).1 = true
  · rw [hok] at hwb
    simp only [hok, if_true]
    rw [hw]
    obtain ⟨c, hc, hcb, hca⟩ :=
      uCommand_spec o (sectorAddress (sectorOperand s.larg0)) ({ s with cs := false }.exchanged w)
    by_cases hacc :
        accepted (uCommand o (sectorAddress (sectorOperand s.larg0)) ({ s with cs := false }.exchanged w)).1 = true
    · rw [if_pos hacc, hc]
      have hz : (uCommand o (sectorAddress (sectorOperand s.larg0)) ({ s with cs := false }.exchanged w)).1 = 0 := by
        simpa [accepted, respOk] using hacc
      obtain ⟨l, hl, hlb, hla⟩ := ht ({ ({ s with cs := false }.exchanged w) with cs := true }.exchanged c)
      rw [hl, hz]
      rw [hz] at hcb
      refine ⟨.ok, 0, .opened, true, w ++ c ++ l, ?_, .inr (.inr ⟨rfl, rfl, rfl, rfl, w, c, l, rfl, hwb, hcb, hlb⟩), ?_⟩
      · simp [State.exchanged, List.append_assoc, Nat.add_assoc]
      · refine answersScripted_append (answersScripted_append hwa rfl hca) ?_ hla
        simp [State.exchanged]
    · rw [if_neg hacc, hc]
      refine ⟨.commandRejected, _, .failed, false, w ++ c, ?_, .inr (.inl ⟨rfl, ?_, rfl, rfl, w, c, rfl, hwb, hcb⟩), ?_⟩
      · simp [State.exchanged, uDeselect, List.append_assoc]
      · simpa [accepted, respOk] using hacc
      · exact answersScripted_append hwa rfl hca
  · rw [Bool.not_eq_true] at hok
    rw [hok] at hwb
    simp only [hok, hw]
    exact ⟨.cardBusyTimeout, 0, .failed, false, w, rfl, .inl ⟨rfl, rfl, rfl, rfl, hwb⟩, hwa⟩

end Sys2Proof.Machine
end

