-- ==== Sys2Proof/Laws/Dma.lean ====
section
/-! SUPPORT. What the DMA engine does over many steps (spec/41_dma.md R152): a run that only sends, and a run that stores what it
receives; and what an await waits through. -/

namespace Sys2Proof.Machine

/-! ### A channel after some bytes of its run -/

/-- The channel after `k` bytes of its run. -/
def Channel.after (c : Channel) (k : Nat) : Channel :=
  { c with rem := c.rem - BitVec.ofNat 16 k, done := c.done || (k != 0 && c.rem - BitVec.ofNat 16 k == 0) }

@[simp] theorem Channel.after_zero (c : Channel) : c.after 0 = c := by simp [Channel.after]

@[simp] theorem Channel.after_ptr (c : Channel) (k : Nat) : (c.after k).ptr = c.ptr := rfl
@[simp] theorem Channel.after_count (c : Channel) (k : Nat) : (c.after k).count = c.count := rfl
@[simp] theorem Channel.after_en (c : Channel) (k : Nat) : (c.after k).en = c.en := rfl
@[simp] theorem Channel.after_rem (c : Channel) (k : Nat) : (c.after k).rem = c.rem - BitVec.ofNat 16 k := rfl

theorem Channel.rem_after_toNat (c : Channel) {k : Nat} (h : k ≤ c.rem.toNat) :
    (c.rem - BitVec.ofNat 16 k).toNat = c.rem.toNat - k := by
  have := c.rem.isLt
  rw [BitVec.toNat_sub, BitVec.toNat_ofNat]; omega

/-- One byte is `countDown`. -/
theorem Channel.countDown_eq (c : Channel) : c.countDown = c.after 1 := rfl

/-- One byte and then `k` more, of a run with that many left. -/
theorem Channel.after_countDown (c : Channel) {k : Nat} (h : k + 1 ≤ c.rem.toNat) :
    c.countDown.after k = c.after (k + 1) := by
  have hrem : c.rem - 1#16 - BitVec.ofNat 16 k = c.rem - BitVec.ofNat 16 (k + 1) := by
    apply BitVec.eq_of_toNat_eq
    have := c.rem.isLt
    simp only [BitVec.toNat_sub, BitVec.toNat_ofNat]; omega
  simp only [Channel.after, Channel.countDown, Channel.mk.injEq, true_and]
  refine ⟨hrem, ?_, trivial⟩
  rw [show (1 : BitVec 16) = 1#16 from rfl, hrem]
  by_cases hk : k = 0
  · subst hk; simp
  · have h1 : (c.rem - 1#16 == 0) = false := by
      rw [beq_eq_false_iff_ne]
      intro h0
      have := congrArg BitVec.toNat h0
      rw [Channel.rem_after_toNat c (k := 1) (by omega)] at this
      simp at this; omega
    have h2 : (k != 0) = true := by simpa using hk
    rw [show (0 : BitVec 16) = 0#16 from rfl] at h1 ⊢
    rw [h1, h2]; simp

/-- The working address moves up by one a byte, within the run of a consistent record. -/
theorem Channel.address_countDown (c : Channel) (h : c.rem ≤ c.count) (h0 : c.rem ≠ 0) :
    c.countDown.address = c.address + 1 := by
  have hc := c.count.isLt
  have hr : c.rem.toNat ≤ c.count.toNat := h
  have h0 : c.rem.toNat ≠ 0 := fun e => h0 (BitVec.eq_of_toNat_eq e)
  have hp := c.ptr.isLt
  apply BitVec.eq_of_toNat_eq
  simp only [Channel.address, Channel.countDown, BitVec.toNat_add, BitVec.toNat_setWidth, BitVec.toNat_sub, BitVec.toNat_ofNat,
    BitVec.ofNat_eq_ofNat]
  omega

theorem Channel.rem_countDown_le (c : Channel) (h : c.rem ≤ c.count) (h0 : c.rem ≠ 0) : c.countDown.rem ≤ c.countDown.count := by
  have hr : c.rem.toNat ≤ c.count.toNat := h
  have h0 : c.rem.toNat ≠ 0 := fun e => h0 (BitVec.eq_of_toNat_eq e)
  show (c.rem - 1#16).toNat ≤ c.count.toNat
  rw [Channel.rem_after_toNat c (k := 1) (by omega)]; omega

theorem Channel.rem_ne_zero {c : Channel} {k : Nat} (h : k + 1 ≤ c.rem.toNat) : c.rem ≠ 0 := by
  intro h0; rw [h0] at h; simp at h

theorem Channel.countDown_rem_toNat (c : Channel) (h : c.rem ≠ 0) : c.countDown.rem.toNat = c.rem.toNat - 1 := by
  have h0 : c.rem.toNat ≠ 0 := fun e => h (BitVec.eq_of_toNat_eq e)
  exact Channel.rem_after_toNat c (k := 1) (by omega)

/-- The working address after `k` bytes. -/
theorem Channel.address_after (c : Channel) {k : Nat} (h : c.rem ≤ c.count) (hk : k ≤ c.rem.toNat) :
    (c.after k).address = c.address + BitVec.ofNat 32 k := by
  have hc := c.count.isLt
  have hr : c.rem.toNat ≤ c.count.toNat := h
  have hrem := Channel.rem_after_toNat c hk
  have h1 : (c.count - (c.rem - BitVec.ofNat 16 k)).toNat = c.count.toNat - c.rem.toNat + k := by
    rw [BitVec.toNat_sub, hrem]; omega
  have h2 : (c.count - c.rem).toNat = c.count.toNat - c.rem.toNat := by
    rw [BitVec.toNat_sub]; omega
  simp only [Channel.address, Channel.after, BitVec.add_assoc]
  congr 1
  apply BitVec.eq_of_toNat_eq
  rw [BitVec.toNat_add, BitVec.toNat_setWidth, BitVec.toNat_setWidth, BitVec.toNat_ofNat, h1, h2]
  omega

/-- The working address of a channel at the start of its run is its pointer. -/
theorem Channel.address_start (c : Channel) (h : c.rem = c.count) : c.address = c.ptr := by
  simp [Channel.address, h]

/-- A run in progress: bytes are left and DONE is not set, if it was not set before. -/
theorem Channel.after_running {c : Channel} {k : Nat} (hen : c.en = true) (hk : k < c.rem.toNat) : (c.after k).running = true := by
  simp only [Channel.running, Channel.after_en, hen, Bool.true_and, bne_iff_ne, Channel.after_rem]
  intro h0
  have := congrArg BitVec.toNat h0
  rw [Channel.rem_after_toNat c (by omega)] at this
  simp at this; omega

theorem Channel.after_not_done {c : Channel} {k : Nat} (hd : c.done = false) (hk : k < c.rem.toNat) : (c.after k).done = false := by
  have : (c.rem - BitVec.ofNat 16 k == 0) = false := by
    rw [beq_eq_false_iff_ne]
    intro h0
    have := congrArg BitVec.toNat h0
    rw [Channel.rem_after_toNat c (by omega)] at this
    simp at this; omega
  simp only [Channel.after, hd, this, Bool.and_false, Bool.or_false]

/-- The end of a run: REM is 0 and DONE is set. -/
theorem Channel.after_all {c : Channel} {k : Nat} (hk : k = c.rem.toNat) (h0 : k ≠ 0) :
    c.after k = { c with rem := 0, done := true } := by
  have : c.rem - BitVec.ofNat 16 k = 0 := by subst hk; simp
  simp [Channel.after, this, h0]

/-! ### Many DMA steps -/

/-- `n` DMA steps, without their guards. -/
def dmaMoves : Nat → State → State
  | 0, s => s
  | n + 1, s => dmaMoves n (dmaMove s)

@[simp] theorem dmaMoves_zero (s : State) : dmaMoves 0 s = s := rfl
theorem dmaMoves_succ (n : Nat) (s : State) : dmaMoves (n + 1) s = dmaMoves n (dmaMove s) := rfl

theorem dmaMoves_add (m n : Nat) (s : State) : dmaMoves (m + n) s = dmaMoves n (dmaMoves m s) := by
  induction m generalizing s with
  | zero => rw [Nat.zero_add]; rfl
  | succ m ih => rw [Nat.succ_add]; exact ih _

/-- An await takes the DMA steps that are enabled while its condition does not hold. -/
theorem awaitDma_eq (cond : State → Bool) (n : Nat) (s : State) :
    ∃ k ≤ n, awaitDma cond n s = dmaMoves k s ∧
      (∀ j < k, cond (dmaMoves j s) = false ∧ dmaEnabled (dmaMoves j s) = true) ∧
      (k = n ∨ cond (dmaMoves k s) = true ∨ dmaEnabled (dmaMoves k s) = false) := by
  induction n generalizing s with
  | zero => exact ⟨0, Nat.le_refl 0, rfl, by simp, .inl rfl⟩
  | succ n ih =>
    unfold awaitDma
    by_cases hc : cond s = true
    · exact ⟨0, by omega, by rw [if_pos hc]; rfl, by simp, .inr (.inl hc)⟩
    · rw [if_neg hc]
      unfold dmaStep?
      by_cases he : dmaEnabled s = true
      · obtain ⟨k, hk, h1, h2, h3⟩ := ih (dmaMove s)
        refine ⟨k + 1, by omega, by rw [if_pos he]; exact h1, ?_, h3.imp (by omega) id⟩
        intro j hj
        cases j with
        | zero => exact ⟨by simpa using hc, he⟩
        | succ j => exact h2 j (by omega)
      · exact ⟨0, by omega, by rw [if_neg he]; rfl, by simp, .inr (.inr (by simpa using he))⟩

/-- An await takes exactly `k` DMA steps when those are enabled, its condition does not hold before, and it then holds or no step is
enabled. -/
theorem awaitDma_of {cond : State → Bool} {n k : Nat} {s : State} (hk : k ≤ n)
    (h : ∀ j < k, cond (dmaMoves j s) = false ∧ dmaEnabled (dmaMoves j s) = true)
    (hend : cond (dmaMoves k s) = true ∨ dmaEnabled (dmaMoves k s) = false) : awaitDma cond n s = dmaMoves k s := by
  induction k generalizing n s with
  | zero =>
    cases n with
    | zero => rfl
    | succ n =>
      unfold awaitDma dmaStep?
      rcases hend with h | h
      · rw [if_pos (show cond s = true from h)]; rfl
      · rw [show dmaEnabled s = false from h]; simp
  | succ k ih =>
    obtain ⟨n, rfl⟩ : ∃ m, n = m + 1 := ⟨n - 1, by omega⟩
    obtain ⟨h0, h1⟩ := h 0 (by omega)
    have h0 : cond s = false := h0
    have h1 : dmaEnabled s = true := h1
    unfold awaitDma dmaStep?
    simp only [h0, h1, if_true, Bool.false_eq_true, if_false]
    exact ih (by omega) (fun j hj => h (j + 1) (by omega)) hend

/-! ### A run that only sends -/

/-- One DMA step without a running RX. -/
theorem dmaMove_send {s : State} (hrx : s.rx.running = false) :
    dmaMove s = { s with tx := s.tx.countDown }.exchanged [⟨s.cs, dmaOut s, cardAnswer (dmaOut s) s⟩] := by
  simp [dmaMove, rxCaptures, hrx, afterExchange, State.exchanged]

/-- `k` steps of a run without a running RX: TX counts down, and the bytes at its working addresses go out in order. -/
theorem dmaMoves_send {s : State} {k : Nat} (hfill : s.txFill = false) (hrx : s.rx.running = false) (hle : s.tx.rem ≤ s.tx.count)
    (hk : k ≤ s.tx.rem.toNat) :
    ∃ h, dmaMoves k s = { s with tx := s.tx.after k }.exchanged h ∧
      wireOut h = (List.range k).map (fun j => (s.cs, s.mem.read (s.tx.address + BitVec.ofNat 32 j).toNat)) ∧
      answersScripted s h := by
  induction k generalizing s with
  | zero => exact ⟨[], by simp, rfl, answersScripted_nil s⟩
  | succ k ih =>
    have h0 := Channel.rem_ne_zero hk
    have hmove := dmaMove_send hrx
    have hout : dmaOut s = s.mem.read s.tx.address.toNat := by simp [dmaOut, hfill, memReadByte]
    obtain ⟨h, h1, h2, h3⟩ := ih (s := dmaMove s) (by rw [hmove]; exact hfill) (by rw [hmove]; exact hrx)
      (by rw [hmove]; exact Channel.rem_countDown_le _ hle h0)
      (by rw [hmove]; show k ≤ s.tx.countDown.rem.toNat; rw [Channel.countDown_rem_toNat _ h0]; omega)
    rw [dmaMoves_succ, h1, hmove]
    rw [hmove] at h2 h3
    refine ⟨⟨s.cs, dmaOut s, cardAnswer (dmaOut s) s⟩ :: h, ?_, ?_, ?_⟩
    · simp only [State.exchanged, Channel.after_countDown _ hk]
      simp
    · have haddr : ∀ j, s.tx.countDown.address + BitVec.ofNat 32 j = s.tx.address + BitVec.ofNat 32 (j + 1) := by
        intro j
        rw [Channel.address_countDown _ hle h0, BitVec.add_assoc]
        congr 1
        apply BitVec.eq_of_toNat_eq; simp; omega
      rw [List.range_succ_eq_map, List.map_cons, List.map_map, wireOut, List.map_cons, ← wireOut, h2, hout]
      simp only [BitVec.add_zero, Function.comp_def, Nat.succ_eq_add_one, ← haddr]
      rfl
    · exact answersScripted_append (g := [_]) (answersScripted_one s s.cs (dmaOut s)) rfl h3

/-- A DMA step is enabled. -/
theorem dmaEnabled_of {s : State} (hf : s.faulted = false) (htx : s.tx.running = true)
    (hout : s.txFill = true ∨ admits s.params s.tx.address = true)
    (hin : s.rx.running = true → admits s.params s.rx.address = true) : dmaEnabled s = true := by
  unfold dmaEnabled rxCaptures
  rw [hf, htx]
  rcases hout with h | h <;> cases hr : s.rx.running <;> simp_all

/-- TX at the start of a run with nothing else under way: it sends from memory, DONE is not set, and RX does not run. -/
structure SendStart (s : State) : Prop where
  notFaulted : s.faulted = false
  enabled    : s.tx.en = true
  notDone    : s.tx.done = false
  fromMemory : s.txFill = false
  alone      : s.rx.running = false
  full       : s.tx.rem = s.tx.count

/-- Before byte `k` of a run that starts, when the first `k` bytes are admitted. -/
theorem SendStart.before {s : State} (hs : SendStart s) {k : Nat} (hk : k ≤ s.tx.count.toNat)
    (ha : ∀ j < k, admits s.params (s.tx.ptr + BitVec.ofNat 32 j) = true) :
    ∀ j < k, (dmaMoves j s).tx.done = false ∧ dmaEnabled (dmaMoves j s) = true := by
  intro j hj
  have hrem : s.tx.rem.toNat = s.tx.count.toNat := by rw [hs.full]
  have hle : s.tx.rem ≤ s.tx.count := Nat.le_of_eq hrem
  obtain ⟨h, h1, -, -⟩ := dmaMoves_send hs.fromMemory hs.alone hle (k := j) (by omega)
  have hrx : (dmaMoves j s).rx.running = false := by rw [h1]; exact hs.alone
  refine ⟨by rw [h1]; exact Channel.after_not_done hs.notDone (by omega), dmaEnabled_of ?_ ?_ (.inr ?_) ?_⟩
  · rw [h1]; exact hs.notFaulted
  · rw [h1]; exact Channel.after_running hs.enabled (by omega)
  · rw [h1]
    show admits s.params (s.tx.after j).address = true
    rw [Channel.address_after _ hle (by omega), Channel.address_start _ hs.full]
    exact ha j hj
  · intro h; rw [hrx] at h; cases h

/-- Awaiting TX.DONE through a whole run: every byte of the buffer goes out in order, and REM is 0 with DONE set. -/
theorem SendStart.await {s : State} (hs : SendStart s) (h0 : s.tx.count ≠ 0)
    (ha : ∀ j < s.tx.count.toNat, admits s.params (s.tx.ptr + BitVec.ofNat 32 j) = true) :
    ∃ h, awaitDma (fun t => t.tx.done) s.tx.rem.toNat s = { s with tx := { s.tx with rem := 0, done := true } }.exchanged h ∧
      wireOut h = (List.range s.tx.count.toNat).map (fun j => (s.cs, s.mem.read (s.tx.ptr + BitVec.ofNat 32 j).toNat)) ∧
      answersScripted s h := by
  have hrem : s.tx.rem.toNat = s.tx.count.toNat := by rw [hs.full]
  have hle : s.tx.rem ≤ s.tx.count := Nat.le_of_eq hrem
  have h0 : s.tx.count.toNat ≠ 0 := fun e => h0 (BitVec.eq_of_toNat_eq e)
  obtain ⟨h, h1, h2, h3⟩ := dmaMoves_send hs.fromMemory hs.alone hle (Nat.le_of_eq hrem.symm)
  rw [Channel.after_all hrem.symm h0] at h1
  rw [Channel.address_start _ hs.full] at h2
  refine ⟨h, ?_, h2, h3⟩
  rw [hrem, ← h1]
  exact awaitDma_of (Nat.le_refl _) (hs.before (Nat.le_refl _) ha) (.inl (by rw [h1]; rfl))

/-- Awaiting TX.DONE when byte `k` is the first that is not admitted: the `k` bytes before it go
out in order, and then no DMA step is enabled. -/
theorem SendStart.await_unbacked {s : State} (hs : SendStart s) {k : Nat} (hk : k < s.tx.count.toNat)
    (ha : ∀ j < k, admits s.params (s.tx.ptr + BitVec.ofNat 32 j) = true)
    (hb : admits s.params (s.tx.ptr + BitVec.ofNat 32 k) = false) :
    ∃ h, awaitDma (fun t => t.tx.done) s.tx.rem.toNat s = { s with tx := s.tx.after k }.exchanged h ∧
      wireOut h = (List.range k).map (fun j => (s.cs, s.mem.read (s.tx.ptr + BitVec.ofNat 32 j).toNat)) ∧ answersScripted s h ∧
      (s.tx.after k).done = false ∧ dmaEnabled ({ s with tx := s.tx.after k }.exchanged h) = false := by
  have hrem : s.tx.rem.toNat = s.tx.count.toNat := by rw [hs.full]
  have hle : s.tx.rem ≤ s.tx.count := Nat.le_of_eq hrem
  obtain ⟨h, h1, h2, h3⟩ := dmaMoves_send hs.fromMemory hs.alone hle (k := k) (by omega)
  rw [Channel.address_start _ hs.full] at h2
  have hdis : dmaEnabled (dmaMoves k s) = false := by
    have : admits s.params (s.tx.after k).address = false := by
      rw [Channel.address_after _ hle (by omega), Channel.address_start _ hs.full]; exact hb
    rw [h1]; simp [dmaEnabled, State.exchanged, hs.fromMemory, this]
  refine ⟨h, ?_, h2, h3, Channel.after_not_done hs.notDone (by omega), by rw [← h1]; exact hdis⟩
  rw [← h1]
  exact awaitDma_of (by omega) (hs.before (by omega) ha) (.inr hdis)

/-! ### A run that stores what it receives -/

/-- One DMA step with a running RX. -/
theorem dmaMove_capture {s : State} (hrx : s.rx.running = true) :
    dmaMove s = { s with tx := s.tx.countDown, rx := s.rx.countDown,
                         mem := s.mem.write s.rx.address.toNat (cardAnswer (dmaOut s) s) }.exchanged
      [⟨s.cs, dmaOut s, cardAnswer (dmaOut s) s⟩] := by
  simp [dmaMove, rxCaptures, hrx, afterExchange, State.exchanged, rxStore, memWriteByte]

/-- `k` steps with a running RX: both channels count down; the answers stand in order at RX's working addresses, with every other byte as it
was; and TX sends the filler, or the bytes at its working addresses in order, each as an earlier answer of the run has left it. -/
theorem dmaMoves_capture {s : State} {k : Nat} (hen : s.rx.en = true) (hle : s.rx.rem ≤ s.rx.count) (hlet : s.tx.rem ≤ s.tx.count)
    (hk : k ≤ s.rx.rem.toNat) (hkt : k ≤ s.tx.rem.toNat) (hwf : s.mem.wf = true) :
    ∃ h m, dmaMoves k s = { s with tx := s.tx.after k, rx := s.rx.after k, mem := m }.exchanged h ∧
      h.length = k ∧ (∀ e ∈ h, e.cs = s.cs) ∧ answersScripted s h ∧ m.wf = true ∧
      (∀ j < k, h[j]?.map Exchange.inp = some (m.read (s.rx.address + BitVec.ofNat 32 j).toNat)) ∧
      (∀ a, (∀ j < k, a ≠ (s.rx.address + BitVec.ofNat 32 j).toNat) → m.read a = s.mem.read a) ∧
      (s.txFill = true → ∀ e ∈ h, e.out = 0xFF) ∧
      (s.txFill = false → ∀ j < k,
        (∀ i < j, s.tx.address + BitVec.ofNat 32 j ≠ s.rx.address + BitVec.ofNat 32 i) →
        h[j]?.map Exchange.out = some (s.mem.read (s.tx.address + BitVec.ofNat 32 j).toNat)) ∧
      (s.txFill = false → ∀ j < k, ∀ i < j, s.tx.address + BitVec.ofNat 32 j = s.rx.address + BitVec.ofNat 32 i →
        h[j]?.map Exchange.out = h[i]?.map Exchange.inp) := by
  induction k generalizing s with
  | zero => exact ⟨[], s.mem, by simp, rfl, by simp, answersScripted_nil s, hwf, by simp, by simp, by simp, by simp, by simp⟩
  | succ k ih =>
    have h0 := Channel.rem_ne_zero hk
    have h0t := Channel.rem_ne_zero hkt
    have hmove := dmaMove_capture (show s.rx.running = true by
      simp only [Channel.running, hen, Bool.true_and, bne_iff_ne]; exact h0)
    have hnext : ∀ (c : Channel), c.rem ≤ c.count → c.rem ≠ 0 → ∀ j,
        c.countDown.address + BitVec.ofNat 32 j = c.address + BitVec.ofNat 32 (j + 1) := by
      intro c hc hc0 j
      rw [Channel.address_countDown _ hc hc0, BitVec.add_assoc]
      congr 1
      apply BitVec.eq_of_toNat_eq; simp; omega
    have hlt : k + 1 < 2 ^ 16 := by have := s.rx.rem.isLt; omega
    have hne : ∀ j < k, s.rx.address.toNat ≠ (s.rx.address + BitVec.ofNat 32 (j + 1)).toNat := by
      intro j hj
      have := s.rx.address.isLt
      rw [BitVec.toNat_add, BitVec.toNat_ofNat]; omega
    obtain ⟨h, m, h1, h2, h3, h4, h5, h6, h7, h8, h9, h10⟩ := ih (s := dmaMove s) (by rw [hmove]; exact hen)
      (by rw [hmove]; exact Channel.rem_countDown_le _ hle h0) (by rw [hmove]; exact Channel.rem_countDown_le _ hlet h0t)
      (by rw [hmove]; show k ≤ s.rx.countDown.rem.toNat; rw [Channel.countDown_rem_toNat _ h0]; omega)
      (by rw [hmove]; show k ≤ s.tx.countDown.rem.toNat; rw [Channel.countDown_rem_toNat _ h0t]; omega)
      (by rw [hmove]; exact Memory.wf_write _ s.rx.address.isLt hwf)
    rw [hmove] at h3 h4 h6 h7 h8 h9 h10
    simp only [State.exchanged, hnext _ hle h0, hnext _ hlet h0t] at h3 h6 h7 h8 h9 h10
    refine ⟨⟨s.cs, dmaOut s, cardAnswer (dmaOut s) s⟩ :: h, m, ?_, by simp [h2], by simpa using h3, ?_, h5, ?_, ?_, ?_, ?_, ?_⟩
    · rw [dmaMoves_succ, h1, hmove]
      simp only [State.exchanged, Channel.after_countDown _ hk, Channel.after_countDown _ hkt]
      simp
    · exact answersScripted_append (g := [_]) (answersScripted_one s s.cs (dmaOut s)) rfl h4
    · intro j hj
      cases j with
      | zero =>
        rw [h7 _ (fun j hj => by simpa using hne j hj), Memory.read_write hwf]
        simp
      | succ j => simpa using h6 j (by omega)
    · intro a ha
      rw [h7 a (fun j hj => ha (j + 1) (by omega)), Memory.read_write_ne _ _ (by simpa using ha 0 (by omega))]
    · intro hf e he
      rcases List.mem_cons.mp he with rfl | he
      · simp [dmaOut, hf, clockByte]
      · exact h8 hf e he
    · intro hf j hj ha
      cases j with
      | zero => simp [dmaOut, hf, memReadByte]
      | succ j =>
        have := h9 hf j (by omega) (fun i hi => ha (i + 1) (by omega))
        rw [Memory.read_write_ne _ _ (fun hc => ha 0 (by omega) (BitVec.eq_of_toNat_eq (by simpa using hc)))] at this
        simpa using this
    · intro hf j hj i hi ha
      obtain ⟨j, rfl⟩ : ∃ n, j = n + 1 := ⟨j - 1, by omega⟩
      cases i with
      | zero =>
        have ha : s.tx.address + BitVec.ofNat 32 (j + 1) = s.rx.address := by simpa using ha
        have := h9 hf j (by omega) (fun i hi hc => hne i (by omega) (by rw [← hc, ha]))
        rw [ha, Memory.read_write hwf] at this
        simpa using this
      | succ i => simpa using h10 hf j (by omega) i (by omega) ha

/-- `k` steps of a run with the filler and a running RX: both channels count down, CLOCK_BYTE goes out, and the answers stand in order at RX's
working addresses, with every other byte as it was. -/
theorem dmaMoves_receive {s : State} {k : Nat} (hfill : s.txFill = true) (hen : s.rx.en = true) (hle : s.rx.rem ≤ s.rx.count)
    (hlet : s.tx.rem ≤ s.tx.count) (hk : k ≤ s.rx.rem.toNat) (hkt : k ≤ s.tx.rem.toNat) (hwf : s.mem.wf = true) :
    ∃ h m, dmaMoves k s = { s with tx := s.tx.after k, rx := s.rx.after k, mem := m }.exchanged h ∧
      wireOut h = List.replicate k (s.cs, 0xFF) ∧ answersScripted s h ∧ m.wf = true ∧
      (∀ j < k, h[j]?.map Exchange.inp = some (m.read (s.rx.address + BitVec.ofNat 32 j).toNat)) ∧
      (∀ a, (∀ j < k, a ≠ (s.rx.address + BitVec.ofNat 32 j).toNat) → m.read a = s.mem.read a) := by
  obtain ⟨h, m, h1, h2, h3, h4, h5, h6, h7, h8, -, -⟩ := dmaMoves_capture hen hle hlet hk hkt hwf
  refine ⟨h, m, h1, List.eq_replicate_iff.mpr ⟨by simp [h2], fun x hx => ?_⟩, h4, h5, h6, h7⟩
  obtain ⟨e, he, rfl⟩ := List.mem_map.mp hx
  rw [h3 e he, h8 hfill e he]

/-- Both channels at the start of a read's run (41_dma.md R153): TX sends the filler, RX stores, their counts are equal and not 0. -/
structure ReceiveStart (s : State) : Prop where
  notFaulted : s.faulted = false
  txEnabled  : s.tx.en = true
  rxEnabled  : s.rx.en = true
  rxNotDone  : s.rx.done = false
  filler     : s.txFill = true
  txFull     : s.tx.rem = s.tx.count
  rxFull     : s.rx.rem = s.rx.count
  sameCount  : s.tx.count = s.rx.count
  notEmpty   : s.rx.count ≠ 0
  canonical  : s.mem.wf = true

/-- Before byte `k` of a read's run, when the first `k` bytes are admitted; and what the state then is. -/
theorem ReceiveStart.before {s : State} (hs : ReceiveStart s) {k : Nat} (hk : k ≤ s.rx.count.toNat)
    (ha : ∀ j < k, admits s.params (s.rx.ptr + BitVec.ofNat 32 j) = true) :
    (∃ h m, dmaMoves k s = { s with tx := s.tx.after k, rx := s.rx.after k, mem := m }.exchanged h ∧
      wireOut h = List.replicate k (s.cs, 0xFF) ∧ answersScripted s h ∧ m.wf = true ∧
      (∀ j < k, h[j]?.map Exchange.inp = some (m.read (s.rx.ptr + BitVec.ofNat 32 j).toNat)) ∧
      (∀ a, (∀ j < k, a ≠ (s.rx.ptr + BitVec.ofNat 32 j).toNat) → m.read a = s.mem.read a)) ∧
    ∀ j < k, (dmaMoves j s).rx.done = false ∧ dmaEnabled (dmaMoves j s) = true := by
  have hrx : s.rx.rem.toNat = s.rx.count.toNat := by rw [hs.rxFull]
  have htx : s.tx.rem.toNat = s.rx.count.toNat := by rw [hs.txFull, hs.sameCount]
  have hle : s.rx.rem ≤ s.rx.count := Nat.le_of_eq hrx
  have hlet : s.tx.rem ≤ s.tx.count := Nat.le_of_eq (by rw [hs.txFull])
  have hat : ∀ j ≤ k, _ := fun j hj =>
    dmaMoves_receive hs.filler hs.rxEnabled hle hlet (k := j) (by omega) (by omega) hs.canonical
  rw [Channel.address_start _ hs.rxFull] at hat
  refine ⟨hat k (Nat.le_refl _), fun j hj => ?_⟩
  obtain ⟨g, m', g1, -⟩ := hat j (by omega)
  rw [g1]
  refine ⟨Channel.after_not_done hs.rxNotDone (by omega), dmaEnabled_of hs.notFaulted ?_ (.inl hs.filler) ?_⟩
  · exact Channel.after_running hs.txEnabled (by omega)
  · intro _
    show admits s.params (s.rx.after j).address = true
    rw [Channel.address_after _ hle (by omega), Channel.address_start _ hs.rxFull]
    exact ha j hj

/-- Awaiting RX.DONE through a read's whole run: as many exchanges of CLOCK_BYTE as RX counts, whose answers stand in order from RX.PTR on, no
other byte of memory changed, and both channels at REM = 0 with DONE set. -/
theorem ReceiveStart.await {s : State} (hs : ReceiveStart s)
    (ha : ∀ j < s.rx.count.toNat, admits s.params (s.rx.ptr + BitVec.ofNat 32 j) = true) :
    ∃ h m, awaitDma (fun t => t.rx.done) s.tx.rem.toNat s =
        { s with tx := { s.tx with rem := 0, done := true }, rx := { s.rx with rem := 0, done := true }, mem := m }.exchanged h ∧
      wireOut h = List.replicate s.rx.count.toNat (s.cs, 0xFF) ∧ answersScripted s h ∧ m.wf = true ∧
      (∀ j < s.rx.count.toNat, h[j]?.map Exchange.inp = some (m.read (s.rx.ptr + BitVec.ofNat 32 j).toNat)) ∧
      (∀ a, (∀ j < s.rx.count.toNat, a ≠ (s.rx.ptr + BitVec.ofNat 32 j).toNat) → m.read a = s.mem.read a) := by
  have hrx : s.rx.rem.toNat = s.rx.count.toNat := by rw [hs.rxFull]
  have htx : s.tx.rem.toNat = s.rx.count.toNat := by rw [hs.txFull, hs.sameCount]
  have h0 : s.rx.count.toNat ≠ 0 := fun e => hs.notEmpty (BitVec.eq_of_toNat_eq e)
  obtain ⟨⟨h, m, h1, hrest⟩, hb⟩ := hs.before (Nat.le_refl _) ha
  rw [Channel.after_all hrx.symm h0, Channel.after_all htx.symm h0] at h1
  refine ⟨h, m, ?_, hrest⟩
  rw [htx, ← h1]
  exact awaitDma_of (Nat.le_refl _) hb (.inl (by rw [h1]; rfl))

/-- Awaiting RX.DONE when byte `k` of RX's buffer is the first that is not admitted: `k` bytes are received and stored, and then no DMA step
is enabled. -/
theorem ReceiveStart.await_unbacked {s : State} (hs : ReceiveStart s) {k : Nat} (hk : k < s.rx.count.toNat)
    (ha : ∀ j < k, admits s.params (s.rx.ptr + BitVec.ofNat 32 j) = true)
    (hb : admits s.params (s.rx.ptr + BitVec.ofNat 32 k) = false) :
    ∃ h m, awaitDma (fun t => t.rx.done) s.tx.rem.toNat s =
        { s with tx := s.tx.after k, rx := s.rx.after k, mem := m }.exchanged h ∧
      wireOut h = List.replicate k (s.cs, 0xFF) ∧ answersScripted s h ∧
      (∀ j < k, h[j]?.map Exchange.inp = some (m.read (s.rx.ptr + BitVec.ofNat 32 j).toNat)) ∧
      (∀ a, (∀ j < k, a ≠ (s.rx.ptr + BitVec.ofNat 32 j).toNat) → m.read a = s.mem.read a) ∧
      (s.rx.after k).done = false ∧
      dmaEnabled ({ s with tx := s.tx.after k, rx := s.rx.after k, mem := m }.exchanged h) = false := by
  have hrx : s.rx.rem.toNat = s.rx.count.toNat := by rw [hs.rxFull]
  have htx : s.tx.rem.toNat = s.rx.count.toNat := by rw [hs.txFull, hs.sameCount]
  obtain ⟨⟨h, m, h1, h2, h3, -, h5, h6⟩, hbefore⟩ := hs.before (Nat.le_of_lt hk) ha
  have hdis : dmaEnabled (dmaMoves k s) = false := by
    have hrun : (s.rx.after k).running = true := Channel.after_running hs.rxEnabled (by omega)
    have hadm : admits s.params (s.rx.after k).address = false := by
      rw [Channel.address_after _ (Nat.le_of_eq hrx) (by omega), Channel.address_start _ hs.rxFull]; exact hb
    rw [h1]; simp [dmaEnabled, rxCaptures, State.exchanged, hrun, hadm]
  refine ⟨h, m, ?_, h2, h3, h5, h6, Channel.after_not_done hs.rxNotDone (by omega), by rw [← h1]; exact hdis⟩
  rw [← h1]
  exact awaitDma_of (by omega) hbefore (.inr hdis)

end Sys2Proof.Machine
end

