-- ==== Sys2Proof/Laws/Encoding.lean ====
section
/-! SUPPORT. The fields of a CMD word: assembling and splitting are inverse, and decoding the fields of an operation. -/

namespace Sys2Proof

/-- Splitting an assembled word gives its fields back: no field overlaps another. -/
theorem fieldsOf_assembleFields (f : Fields) : fieldsOf (assembleFields f) = f := by
  obtain ⟨op, dir, fill, imm, res⟩ := f
  simp only [fieldsOf, assembleFields, Fields.mk.injEq]
  refine ⟨?_, ?_, ?_, ?_, ?_⟩
  · apply BitVec.eq_of_getLsbD_eq; intro i hi
    simp only [BitVec.getLsbD_extractLsb', BitVec.getLsbD_append]
    simp [hi]
  · rw [BitVec.getLsbD_append, if_neg (by omega), BitVec.getLsbD_append, if_pos (by omega)]; simp
  · rw [BitVec.getLsbD_append, if_neg (by omega), BitVec.getLsbD_append, if_neg (by omega), BitVec.getLsbD_append,
      if_pos (by omega)]
    simp
  · apply BitVec.eq_of_getLsbD_eq; intro i hi
    simp only [BitVec.getLsbD_extractLsb', BitVec.getLsbD_append]
    simp [hi, show ¬ (8 + i < 6) by omega, show ¬ (8 + i - 6 < 1) by omega, show ¬ (8 + i - 6 - 1 < 1) by omega,
      show 8 + i - 6 - 1 - 1 = i by omega]
  · apply BitVec.eq_of_getLsbD_eq; intro i hi
    simp only [BitVec.getLsbD_extractLsb', BitVec.getLsbD_append]
    simp [hi, show ¬ (16 + i < 6) by omega, show ¬ (16 + i - 6 < 1) by omega, show ¬ (16 + i - 6 - 1 < 1) by omega,
      show ¬ (16 + i - 6 - 1 - 1 < 8) by omega, show 16 + i - 6 - 1 - 1 - 8 = i by omega]

/-- Assembling the fields of a word gives the word back: every bit is in a field. -/
theorem assembleFields_fieldsOf (w : Word) : assembleFields (fieldsOf w) = w := by
  apply BitVec.eq_of_getLsbD_eq; intro i hi
  simp only [fieldsOf, assembleFields, BitVec.getLsbD_append, BitVec.getLsbD_extractLsb', BitVec.getLsbD_ofBool]
  split
  · simp; omega
  · split
    · simp [show i = 6 by omega]
    · split
      · simp [show i = 7 by omega]
      · split
        · rename_i h1 h2 h3 h4; simp [show i - 6 - 1 - 1 < 8 from h4, show 8 + (i - 6 - 1 - 1) = i by omega]
        · simp [show 16 + (i - 6 - 1 - 1 - 8) = i by omega]; omega

/-- The fields of an operation decode to it. -/
theorem decodeFields_fields (i : Instr) : decodeFields i.fields = .ok i := by
  cases i with
  | dmaConfigure ch => cases ch <;> rfl
  | dmaEnable ch => cases ch <;> rfl
  | dmaIsComplete ch => cases ch <;> rfl
  | dmaDisable ch => cases ch <;> rfl
  | _ => rfl

/-- Fields that decode are the fields of the operation they decode to. -/
theorem fields_of_decodeFields {f : Fields} {i : Instr} (h : decodeFields f = .ok i) : i.fields = f := by
  obtain ⟨op, dir, fill, imm, res⟩ := f
  have hop := BitVec.isLt op
  unfold decodeFields withoutFlags decodeOp configureOf withChannel withoutFlags chanOf at h
  simp only at h
  split at h
  · cases h
  · rename_i hres
    have hres : res = 0 := by simpa using hres
    subst hres
    split at h
    · rename_i h3; subst h3
      cases dir <;> cases fill <;> simp at h
      subst h; rfl
    · split at h
      · rename_i _ h3; subst h3
        cases dir <;> cases fill <;> simp at h
        subst h; rfl
      · split at h
        · cases h
        · rename_i himm
          have himm : imm = 0 := by simpa using himm
          subst himm
          split at h <;> rename_i hn <;> first
            | (cases h)
            | (have hop : op = BitVec.ofNat 6 op.toNat := by simp
               rw [hn] at hop; subst hop
               cases dir <;> cases fill <;> simp at h <;> subst h <;> rfl)

end Sys2Proof
end

