-- ==== Sys2Proof/Laws/Issue.lean ====
section
/-! SUPPORT. What the issue step can do, once for all operations, and that its checks find the code the fault table of Safety.lean finds. -/

namespace Sys2Proof.Machine

/-! ### exec is the issue step and the whole run -/

/-- Every operation's meaning is a request of its own checks, first statement and micro-program. -/
theorem exec_eq (i : Instr) (s : State) :
    exec i s = .next (issueThen i (issueCheck i s) (firstStatement i s) (wholeRun i) s) := by
  cases i <;> rfl

/-- Everything a request can do: it is ignored when faulted, faults RequestWhileBusy when busy, faults on the first failing check, or runs. -/
theorem exec_cases (i : Instr) (s : State) :
    (s.faulted = true ∧ exec i s = .next s) ∨
    (s.faulted = false ∧ s.busy = true ∧ exec i s = .next (s.withFault .requestWhileBusy (encode i))) ∨
    (s.accepts ∧ ∃ code, issueCheck i s = some code ∧ exec i s = .next (s.withFault code (encode i))) ∨
    (s.accepts ∧ issueCheck i s = none ∧ exec i s = .next (wholeRun i (latch i (firstStatement i s) s))) := by
  rw [exec_eq]
  unfold issueThen
  cases hf : s.faulted
  · cases hb : s.busy
    · cases hc : issueCheck i s
      · exact .inr (.inr (.inr ⟨⟨hf, hb⟩, rfl, rfl⟩))
      · exact .inr (.inr (.inl ⟨⟨hf, hb⟩, _, rfl, rfl⟩))
    · exact .inr (.inl ⟨rfl, rfl, rfl⟩)
  · exact .inl ⟨rfl, rfl⟩

/-- A request that is accepted and passes its checks runs. -/
theorem exec_accepted {i : Instr} {s : State} (h : s.accepts) (hc : issueCheck i s = none) :
    exec i s = .next (wholeRun i (latch i (firstStatement i s) s)) := by
  rw [exec_eq]; unfold issueThen; rw [h.1, h.2, hc]; rfl

/-- What an operation that does not fault did: nothing (it was ignored), or it ran. -/
theorem exec_next {i : Instr} {s t : State} (h : exec i s = .next t) :
    t = s ∨ (∃ code, t = s.withFault code (encode i) ∧ s.faulted = false) ∨
    (s.accepts ∧ issueCheck i s = none ∧ t = wholeRun i (latch i (firstStatement i s) s)) := by
  rcases exec_cases i s with ⟨_, he⟩ | ⟨hf, _, he⟩ | ⟨ha, code, _, he⟩ | ⟨ha, hc, he⟩ <;> rw [he] at h <;> cases h
  · exact .inl rfl
  · exact .inr (.inl ⟨_, rfl, hf⟩)
  · exact .inr (.inl ⟨_, rfl, ha.1⟩)
  · exact .inr (.inr ⟨ha, hc, rfl⟩)

/-! ### The checks -/

/-- The first failing check is the first entry of the list that holds. -/
theorem firstFault_eq_find (l : List (Bool × FaultCode)) : firstFault l = (l.find? (·.1)).map (·.2) := by
  induction l with
  | nil => rfl
  | cons c l ih => obtain ⟨b, c⟩ := c; cases b <;> simp [firstFault, ih]

/-- A DMA count is out of range from 0x10000 on (30_encoding.md R95). -/
theorem countOutOfRange_eq (w : Word) : countOutOfRange w = decide (0x10000 ≤ w.toNat) := by
  unfold countOutOfRange
  rw [Bool.eq_iff_iff, bne_iff_ne, ne_eq, ← BitVec.toNat_inj, decide_eq_true_eq, BitVec.extractLsb'_toNat,
    Nat.shiftRight_eq_div_pow]
  have := w.isLt
  simp; omega

/-- A sector index is out of range from 0x800000 on (30_encoding.md R95). -/
theorem sectorOutOfRange_eq (w : Word) : sectorOutOfRange w = decide (0x800000 ≤ w.toNat) := by
  unfold sectorOutOfRange
  rw [Bool.eq_iff_iff, bne_iff_ne, ne_eq, ← BitVec.toNat_inj, decide_eq_true_eq, BitVec.extractLsb'_toNat,
    Nat.shiftRight_eq_div_pow]
  have := w.isLt
  simp; omega

/-- For a request that finds the SBT not busy, the operation's own checks find the code of the fault table. -/
theorem issueCheck_eq_faultOf (i : Instr) (s : State) (hb : s.busy = false) : issueCheck i s = faultOf i s := by
  unfold faultOf faultCauses
  rw [← firstFault_eq_find]
  cases i with
  | dmaConfigure ch =>
    cases ch <;> simp [firstFault, issueCheck, hb, phaseForbids, operandOutOfRange, reloadsEnabled, enablesEnabled,
      enablesUnloaded, conflictsWithDma, namesOtherBuffer, isTransport, checkDmaConfigure, sessionOpen, countOutOfRange_eq,
      State.chan] <;> congr
  | dmaEnable ch =>
    cases ch <;> simp [firstFault, issueCheck, hb, phaseForbids, operandOutOfRange, reloadsEnabled, enablesEnabled,
      enablesUnloaded, conflictsWithDma, namesOtherBuffer, isTransport, checkDmaEnable, sessionOpen, State.chan]
  | _ =>
    simp [firstFault, issueCheck, hb, phaseForbids, operandOutOfRange, reloadsEnabled, enablesEnabled,
      enablesUnloaded, conflictsWithDma, namesOtherBuffer, isTransport, checkNop, checkSelect, checkDeselect, checkReadByte,
      checkWriteByte, checkSendCommand, checkWaitNotBusy, transportCheck, checkDmaConfigureFill, checkDmaIsComplete,
      checkDmaDisable, checkOpenWrite, checkOpenRead, openCheck, checkTransfer, checkCloseWrite, checkCloseRead, sessionOpen,
      countOutOfRange_eq, sectorOutOfRange_eq, dmaOwnsBus, Channel.running]

/-- A busy SBT faults RequestWhileBusy first. -/
theorem faultOf_busy (i : Instr) (s : State) (hb : s.busy = true) : faultOf i s = some .requestWhileBusy := by
  simp [faultOf, faultCauses, hb]

/-- The schedule plays no part in the checks. -/
theorem issueCheck_agenda (i : Instr) (s : State) (l : List Move) : issueCheck i { s with agenda := l } = issueCheck i s := by
  cases i with
  | dmaConfigure ch => cases ch <;> rfl
  | dmaEnable ch => cases ch <;> rfl
  | _ => rfl

theorem firstStatement_agenda (i : Instr) (s : State) (l : List Move) :
    firstStatement i { s with agenda := l } = firstStatement i s := by
  cases i <;> rfl

/-! ### The window -/

theorem windowOffset_inside (p : Params) (off : Nat) (h4 : off % 4 = 0) (h : off < 0x100) :
    windowOffset p 32 (p.sbtBase + BitVec.ofNat 32 off) = some off := by
  unfold windowOffset
  have : (p.sbtBase + BitVec.ofNat 32 off - p.sbtBase).toNat = off := by
    rw [BitVec.add_comm, BitVec.add_sub_cancel]; simp; omega
  simp only [this]; rw [if_pos ⟨trivial, h4, h⟩]

theorem windowOffset_base (p : Params) : windowOffset p 32 p.sbtBase = some 0 := by
  simpa using windowOffset_inside p 0 rfl (by omega)

/-! ### What passing the checks says -/

/-- A list of checks finds nothing: its first does not fail, nor do the others. -/
theorem firstFault_none {b : Bool} {c : FaultCode} {l : List (Bool × FaultCode)} (h : firstFault ((b, c) :: l) = none) :
    b = false ∧ firstFault l = none := by
  cases b
  · exact ⟨rfl, h⟩
  · cases h

/-- A code the checks find is not the code of no fault. -/
theorem issueCheck_ne_none {i : Instr} {s : State} {code : FaultCode} (hb : s.busy = false) (h : issueCheck i s = some code) :
    code ≠ .none := by
  rw [issueCheck_eq_faultOf i s hb] at h
  unfold faultOf at h
  simp only [Option.map_eq_some_iff] at h
  obtain ⟨⟨b, c⟩, h1, rfl⟩ := h
  have := List.mem_of_find?_eq_some h1
  simp [faultCauses] at this
  rcases this with h | h | h | h | h | h | h | h <;> rw [h.2] <;> simp

theorem transportCheck_quiet {s : State} (h : s.quiet) : transportCheck s = none := by
  unfold transportCheck; rw [h.2.1, h.2.2]; rfl

theorem openCheck_mayOpen {s : State} (h : s.mayOpen) : openCheck s = none := by
  obtain ⟨_, h1, h2, h3, h4⟩ := h
  have h2' : sectorOutOfRange s.arg0 = false := by simp [sectorOutOfRange]; exact h2
  simp [openCheck, firstFault, h1, h2', h3, h4]

end Sys2Proof.Machine
end

