-- ==== Sys2Proof/Laws/Sequencer.lean ====
section
/-! SUPPORT. The statement-by-statement sequencer reaches what the whole-run micro-programs compute: for every operation, the SBT's own steps
from the issued state lead to the state `wholeRun` gives. -/

namespace Sys2Proof.Machine

/-! ### Own steps -/

/-- `n` of the SBT's own steps. -/
def ownSteps : Nat → State → State
  | 0, s => s
  | n + 1, s => ownSteps n (ownStep s)

/-- Some number of the SBT's own steps leads from one state to the other, each of them taken with BUSY = 1. -/
def Reaches (s t : State) : Prop := ∃ n, ownSteps n s = t ∧ ∀ j < n, (ownSteps j s).busy = true

theorem Reaches.refl (s : State) : Reaches s s := ⟨0, rfl, fun _ h => absurd h (Nat.not_lt_zero _)⟩

theorem ownSteps_add (m n : Nat) (s : State) : ownSteps (m + n) s = ownSteps n (ownSteps m s) := by
  induction m generalizing s with
  | zero => rw [Nat.zero_add]; rfl
  | succ m ih => rw [Nat.succ_add]; exact ih _

theorem Reaches.trans {s t u : State} : Reaches s t → Reaches t u → Reaches s u := by
  rintro ⟨m, rfl, hm⟩ ⟨n, rfl, hn⟩
  refine ⟨m + n, ownSteps_add m n s, fun j hj => ?_⟩
  by_cases h : j < m
  · exact hm j h
  · obtain ⟨k, rfl⟩ : ∃ k, j = m + k := ⟨j - m, by omega⟩
    rw [ownSteps_add]; exact hn k (by omega)

/-- One own step with BUSY = 1, and then what it reaches. -/
theorem Reaches.step {s u : State} (hb : s.busy = true) (h : Reaches (ownStep s) u) : Reaches s u := by
  obtain ⟨n, hn, hj⟩ := h
  refine ⟨n + 1, hn, fun j hlt => ?_⟩
  cases j with
  | zero => exact hb
  | succ j => exact hj j (by omega)

/-- A property every own step keeps holds of what is reached. -/
theorem Reaches.keeps {P : State → Prop} (hP : ∀ s, P s → P (ownStep s)) {s t : State} (h : Reaches s t) (hs : P s) : P t := by
  obtain ⟨n, rfl, -⟩ := h
  induction n generalizing s with
  | zero => exact hs
  | succ n ih => exact ih (hP s hs)

/-! ### A state at a position with its locals -/

/-- The state at a position, with locals. -/
def State.at (s : State) (p : Pos) (l : Locals) : State := { s with pos := p, locals := l }

/-- `s` runs operation `i`. -/
structure Running (i : Instr) (s : State) : Prop where
  notFaulted : s.faulted = false
  op : s.lop = some i
  busy : s.busy = true

/-- A statement of the running operation is one own step. -/
theorem Running.statement {i : Instr} {s t u : State} {p : Pos} {l : Locals} (h : Running i s)
    (hm : microStep i (s.at p l) = some t) (ht : Reaches t u) : Reaches (s.at p l) u := by
  have hf : (s.at p l).faulted = false := h.notFaulted
  have hl : (s.at p l).lop = some i := h.op
  have : sequencerStep? (s.at p l) = some t := by simp only [sequencerStep?, hf, hl, hm]; rfl
  refine Reaches.step h.busy ?_
  simp only [ownStep, this]; exact ht

theorem finish_at (code : ResultCode) (data : Byte) (s : State) (p : Pos) (l : Locals) :
    finish code data (s.at p l) = finish code data s := rfl

theorem Running.select {i : Instr} {s : State} (h : Running i s) : Running i (uSelect s) := ⟨h.1, h.2, h.3⟩
theorem Running.deselect {i : Instr} {s : State} (h : Running i s) : Running i (uDeselect s) := ⟨h.1, h.2, h.3⟩
theorem Running.exchange {i : Instr} {s : State} (h : Running i s) (b : Byte) : Running i (afterExchange b s) := ⟨h.1, h.2, h.3⟩
theorem Running.exchanged {i : Instr} {s : State} (h : Running i s) (e : List Exchange) : Running i (s.exchanged e) := ⟨h.1, h.2, h.3⟩

theorem Word.toNat_succ {a b : Word} (h : a < b) : (a + 1).toNat = a.toNat + 1 := by
  have : a.toNat < b.toNat := h
  have := b.isLt
  rw [BitVec.toNat_add]; simp; omega

/-! ### uWaitNotBusy -/

/-- The operation runs `uWaitNotBusy` at its `wait` positions, with the budget `budget` of the parameters and LARG0, and goes on at `ret`. -/
def RunsWait (i : Instr) (budget : Params → Word → Word) (ret : Pos) : Prop :=
  ∀ (s : State) (l : Locals) (n : Nat),
    microStep i (s.at (.wait n) l) = microWait (budget s.params s.larg0) ret (s.at (.wait n) l) n

section
variable (n : Word) (ret : Pos) (s : State) (p : Pos) (l : Locals)

theorem microWait_0 : microWait n ret (s.at p l) 0 = some ((uSelect s).at (.wait 1) l) := rfl
theorem microWait_1 : microWait n ret (s.at p l) 1 = some (s.at (.wait 2) { l with i := 0 }) := rfl
theorem microWait_2 : microWait n ret (s.at p l) 2 = some (s.at (if l.i < n then .wait 3 else .wait 8) l) := rfl
theorem microWait_3 : microWait n ret (s.at p l) 3 =
    some ((afterExchange clockByte s).at (.wait 4) { l with x := cardAnswer clockByte s }) := rfl
theorem microWait_4 : microWait n ret (s.at p l) 4 = some (s.at (.wait 5) { l with i := l.i + 1 }) := rfl
theorem microWait_5 : microWait n ret (s.at p l) 5 = some (s.at (if isReady s.params l.x then .wait 6 else .wait 2) l) := rfl
theorem microWait_6 : microWait n ret (s.at p l) 6 = some ((uDeselect s).at (.wait 7) l) := rfl
theorem microWait_7 : microWait n ret (s.at p l) 7 = some (s.at ret { l with ok := true }) := rfl
theorem microWait_8 : microWait n ret (s.at p l) 8 = some ((uDeselect s).at (.wait 9) l) := rfl
theorem microWait_9 : microWait n ret (s.at p l) 9 = some (s.at ret { l with ok := false }) := rfl
end

theorem RunsWait.loop {i : Instr} {budget : Params → Word → Word} {ret : Pos} (hw : RunsWait i budget ret) (m : Nat)
    {s : State} (l : Locals) (hr : Running i s) (hm : l.i.toNat + m = (budget s.params s.larg0).toNat) :
    ∃ l' : Locals, Reaches (s.at (.wait 2) l) ((uDeselect (pollReady m s).2).at ret l') ∧
      l' = { l with i := l'.i, x := l'.x, ok := (pollReady m s).1 } := by
  induction m generalizing s l with
  | zero =>
    have hlt : ¬ l.i < budget s.params s.larg0 := by rw [BitVec.lt_def]; omega
    refine ⟨{ l with ok := false }, ?_, rfl⟩
    refine hr.statement ((hw _ _ _).trans ((microWait_2 ..).trans (by rw [if_neg hlt]))) ?_
    refine hr.statement ((hw _ _ _).trans (microWait_8 ..)) ?_
    refine hr.deselect.statement ((hw _ _ _).trans (microWait_9 ..)) ?_
    exact Reaches.refl _
  | succ m ih =>
    have hlt : l.i < budget s.params s.larg0 := by rw [BitVec.lt_def]; omega
    unfold pollReady
    by_cases hx : isReady s.params (cardAnswer clockByte s) = true
    · rw [if_pos hx]
      refine ⟨{ l with i := l.i + 1, x := cardAnswer clockByte s, ok := true }, ?_, rfl⟩
      refine hr.statement ((hw _ _ _).trans ((microWait_2 ..).trans (by rw [if_pos hlt]))) ?_
      refine hr.statement ((hw _ _ _).trans (microWait_3 ..)) ?_
      refine (hr.exchange _).statement ((hw _ _ _).trans (microWait_4 ..)) ?_
      refine (hr.exchange _).statement ((hw _ _ _).trans ((microWait_5 ..).trans
        (congrArg some (congrArg (State.at _ · _) (if_pos hx))))) ?_
      refine (hr.exchange _).statement ((hw _ _ _).trans (microWait_6 ..)) ?_
      refine (hr.exchange _).deselect.statement ((hw _ _ _).trans (microWait_7 ..)) ?_
      exact Reaches.refl _
    · rw [if_neg hx]
      obtain ⟨l', h1, h2⟩ := ih { l with i := l.i + 1, x := cardAnswer clockByte s } (hr.exchange clockByte) (by
        show (l.i + 1).toNat + m = (budget s.params s.larg0).toNat
        rw [Word.toNat_succ hlt]; omega)
      refine ⟨l', ?_, by rw [h2]⟩
      refine hr.statement ((hw _ _ _).trans ((microWait_2 ..).trans (by rw [if_pos hlt]))) ?_
      refine hr.statement ((hw _ _ _).trans (microWait_3 ..)) ?_
      refine (hr.exchange _).statement ((hw _ _ _).trans (microWait_4 ..)) ?_
      refine (hr.exchange _).statement ((hw _ _ _).trans ((microWait_5 ..).trans
        (congrArg some (congrArg (State.at _ · _) (if_neg hx))))) ?_
      exact h1

/-- From position `wait 0` the statements of `uWaitNotBusy` reach its whole-run result at `ret`, with the answer in `locals.ok`. -/
theorem RunsWait.reaches {i : Instr} {budget : Params → Word → Word} {ret : Pos} (hw : RunsWait i budget ret) {s : State}
    (l : Locals) (hr : Running i s) :
    ∃ l' : Locals, Reaches (s.at (.wait 0) l) ((uWaitNotBusy (budget s.params s.larg0) s).2.at ret l') ∧
      l' = { l with i := l'.i, x := l'.x, ok := (uWaitNotBusy (budget s.params s.larg0) s).1 } := by
  obtain ⟨l', h1, h2⟩ := hw.loop (budget s.params s.larg0).toNat { l with i := 0 } hr.select (Nat.zero_add _)
  refine ⟨l', ?_, by rw [h2]; rfl⟩
  refine hr.statement ((hw _ _ _).trans (microWait_0 ..)) ?_
  refine hr.select.statement ((hw _ _ _).trans (microWait_1 ..)) ?_
  exact h1

/-! ### uCommand -/

/-- The operation runs `uCommand` at its `cmd` positions, with opcode and address as its parameters, LARG0 and `locals.s` give them, and goes
on at `ret`. -/
def RunsCommand (i : Instr) (o : Params → Byte) (a : Word → BitVec 23 → Word) (ret : Pos) : Prop :=
  ∀ (s : State) (l : Locals) (n : Nat),
    microStep i (s.at (.cmd n) l) = microCommand (o s.params) (a s.larg0 l.s) ret (s.at (.cmd n) l) n

section
variable (o : Byte) (a : Word) (ret : Pos) (s : State) (p : Pos) (l : Locals)

theorem microCommand_0 : microCommand o a ret (s.at p l) 0 = some ((uSelect s).at (.cmd 1) l) := rfl
theorem microCommand_1 : microCommand o a ret (s.at p l) 1 = some ((afterExchange o s).at (.cmd 2) l) := rfl
theorem microCommand_2 : microCommand o a ret (s.at p l) 2 = some ((afterExchange (a.extractLsb' 24 8) s).at (.cmd 3) l) := rfl
theorem microCommand_3 : microCommand o a ret (s.at p l) 3 = some ((afterExchange (a.extractLsb' 16 8) s).at (.cmd 4) l) := rfl
theorem microCommand_4 : microCommand o a ret (s.at p l) 4 = some ((afterExchange (a.extractLsb' 8 8) s).at (.cmd 5) l) := rfl
theorem microCommand_5 : microCommand o a ret (s.at p l) 5 = some ((afterExchange (a.extractLsb' 0 8) s).at (.cmd 6) l) := rfl
theorem microCommand_6 : microCommand o a ret (s.at p l) 6 = some ((afterExchange s.params.cmdTrailer s).at (.cmd 7) l) := rfl
theorem microCommand_7 : microCommand o a ret (s.at p l) 7 = some (s.at (.cmd 8) { l with r := s.params.idleByte }) := rfl
theorem microCommand_8 : microCommand o a ret (s.at p l) 8 = some (s.at (.cmd 9) { l with i := 0 }) := rfl
theorem microCommand_9 : microCommand o a ret (s.at p l) 9 =
    some (s.at (if l.i < s.params.nResp then .cmd 10 else .cmd 14) l) := rfl
theorem microCommand_10 : microCommand o a ret (s.at p l) 10 =
    some ((afterExchange clockByte s).at (.cmd 11) { l with x := cardAnswer clockByte s }) := rfl
theorem microCommand_11 : microCommand o a ret (s.at p l) 11 = some (s.at (.cmd 12) { l with i := l.i + 1 }) := rfl
theorem microCommand_12 : microCommand o a ret (s.at p l) 12 =
    some (s.at (if l.x ≠ s.params.idleByte then .cmd 13 else .cmd 9) l) := rfl
theorem microCommand_13 : microCommand o a ret (s.at p l) 13 = some (s.at (.cmd 14) { l with r := l.x }) := rfl
theorem microCommand_14 : microCommand o a ret (s.at p l) 14 = some (s.at ret l) := rfl
end

theorem RunsCommand.loop {i : Instr} {o : Params → Byte} {a : Word → BitVec 23 → Word} {ret : Pos} (hw : RunsCommand i o a ret)
    (m : Nat) {s : State} (l : Locals) (hr : Running i s) (hi : l.r = s.params.idleByte)
    (hm : l.i.toNat + m = s.params.nResp.toNat) :
    ∃ l' : Locals, Reaches (s.at (.cmd 9) l) ((pollResponse m s).2.at ret l') ∧
      l' = { l with i := l'.i, x := l'.x, r := (pollResponse m s).1 } := by
  induction m generalizing s l with
  | zero =>
    have hlt : ¬ l.i < s.params.nResp := by rw [BitVec.lt_def]; omega
    refine ⟨l, ?_, by unfold pollResponse; rw [← hi]⟩
    refine hr.statement ((hw _ _ _).trans ((microCommand_9 ..).trans (by rw [if_neg hlt]))) ?_
    refine hr.statement ((hw _ _ _).trans (microCommand_14 ..)) ?_
    exact Reaches.refl _
  | succ m ih =>
    have hlt : l.i < s.params.nResp := by rw [BitVec.lt_def]; omega
    unfold pollResponse
    by_cases hx : cardAnswer clockByte s ≠ s.params.idleByte
    · rw [if_pos hx]
      refine ⟨{ l with i := l.i + 1, x := cardAnswer clockByte s, r := cardAnswer clockByte s }, ?_, rfl⟩
      refine hr.statement ((hw _ _ _).trans ((microCommand_9 ..).trans (by rw [if_pos hlt]))) ?_
      refine hr.statement ((hw _ _ _).trans (microCommand_10 ..)) ?_
      refine (hr.exchange _).statement ((hw _ _ _).trans (microCommand_11 ..)) ?_
      refine (hr.exchange _).statement ((hw _ _ _).trans ((microCommand_12 ..).trans
        (congrArg some (congrArg (State.at _ · _) (if_pos hx))))) ?_
      refine (hr.exchange _).statement ((hw _ _ _).trans (microCommand_13 ..)) ?_
      refine (hr.exchange _).statement ((hw _ _ _).trans (microCommand_14 ..)) ?_
      exact Reaches.refl _
    · rw [if_neg hx]
      obtain ⟨l', h1, h2⟩ := ih { l with i := l.i + 1, x := cardAnswer clockByte s } (hr.exchange clockByte) hi (by
        show (l.i + 1).toNat + m = s.params.nResp.toNat
        rw [Word.toNat_succ hlt]; omega)
      refine ⟨l', ?_, by rw [h2]⟩
      refine hr.statement ((hw _ _ _).trans ((microCommand_9 ..).trans (by rw [if_pos hlt]))) ?_
      refine hr.statement ((hw _ _ _).trans (microCommand_10 ..)) ?_
      refine (hr.exchange _).statement ((hw _ _ _).trans (microCommand_11 ..)) ?_
      refine (hr.exchange _).statement ((hw _ _ _).trans ((microCommand_12 ..).trans
        (congrArg some (congrArg (State.at _ · _) (if_neg hx))))) ?_
      exact h1

theorem Running.sendBytes {i : Instr} {s : State} (h : Running i s) (bs : List Byte) : Running i (sendBytes bs s) := by
  obtain ⟨e, he, -, -⟩ := sendBytes_spec bs s
  rw [he]; exact h.exchanged e

/-- From position `cmd 0` the statements of `uCommand` reach its whole-run result at `ret`, with the response in `locals.r`. -/
theorem RunsCommand.reaches {i : Instr} {o : Params → Byte} {a : Word → BitVec 23 → Word} {ret : Pos} (hw : RunsCommand i o a ret)
    {s : State} (l : Locals) (hr : Running i s) :
    ∃ l' : Locals, Reaches (s.at (.cmd 0) l) ((uCommand (o s.params) (a s.larg0 l.s) s).2.at ret l') ∧
      l' = { l with i := l'.i, x := l'.x, r := (uCommand (o s.params) (a s.larg0 l.s) s).1 } := by
  obtain ⟨l', h1, h2⟩ := hw.loop s.params.nResp.toNat
    (s := sendBytes (frameBytes (o s.params) (a s.larg0 l.s) s.params.cmdTrailer) (uSelect s))
    { l with i := 0, r := s.params.idleByte } (hr.select.sendBytes _) rfl (Nat.zero_add _)
  refine ⟨l', ?_, by rw [h2]; rfl⟩
  refine hr.statement ((hw _ _ _).trans (microCommand_0 ..)) ?_
  refine hr.select.statement ((hw _ _ _).trans (microCommand_1 ..)) ?_
  refine (hr.select.exchange _).statement ((hw _ _ _).trans (microCommand_2 ..)) ?_
  refine ((hr.select.exchange _).exchange _).statement ((hw _ _ _).trans (microCommand_3 ..)) ?_
  refine (((hr.select.exchange _).exchange _).exchange _).statement ((hw _ _ _).trans (microCommand_4 ..)) ?_
  refine ((((hr.select.exchange _).exchange _).exchange _).exchange _).statement ((hw _ _ _).trans (microCommand_5 ..)) ?_
  refine (((((hr.select.exchange _).exchange _).exchange _).exchange _).exchange _).statement
    ((hw _ _ _).trans (microCommand_6 ..)) ?_
  refine (hr.select.sendBytes [_, _, _, _, _, _]).statement ((hw _ _ _).trans (microCommand_7 ..)) ?_
  refine (hr.select.sendBytes [_, _, _, _, _, _]).statement ((hw _ _ _).trans (microCommand_8 ..)) ?_
  exact h1

/-! ### Awaiting the DMA engine -/

theorem dmaMove_at (s : State) (p : Pos) (l : Locals) : dmaMove (s.at p l) = (dmaMove s).at p l := by
  unfold dmaMove
  rw [show rxCaptures (s.at p l) = rxCaptures s from rfl]
  split <;> rfl

theorem Running.dmaMove {i : Instr} {s : State} (h : Running i s) : Running i (dmaMove s) := by
  unfold Machine.dmaMove
  split <;> exact ⟨h.1, h.2, h.3⟩

/-- While the sequencer has no step at a position, its own steps are the DMA engine's, as an await takes them. -/
theorem Running.awaits {i : Instr} {s : State} (h : Running i s) (cond : State → Bool) (p : Pos) (l : Locals)
    (hc : ∀ u : State, cond u = false → microStep i (u.at p l) = none) (n : Nat) :
    Reaches (s.at p l) ((awaitDma cond n s).at p l) ∧ Running i (awaitDma cond n s) ∧ (awaitDma cond n s).locals = s.locals := by
  induction n generalizing s with
  | zero => exact ⟨Reaches.refl _, h, rfl⟩
  | succ n ih =>
    unfold awaitDma
    by_cases hs : cond s = true
    · rw [if_pos hs]; exact ⟨Reaches.refl _, h, rfl⟩
    · rw [if_neg hs]
      unfold dmaStep?
      by_cases he : dmaEnabled s = true
      · rw [if_pos he]
        obtain ⟨hk, hr, hlc⟩ := ih h.dmaMove
        refine ⟨Reaches.step h.busy ?_, hr, hlc.trans (dmaMove_locals s)⟩
        have hseq : sequencerStep? (s.at p l) = none := by
          have hf : (s.at p l).faulted = false := h.notFaulted
          have hl : (s.at p l).lop = some i := h.op
          simp only [sequencerStep?, hf, hl, hc s (by simpa using hs)]; rfl
        have hdma : dmaStep? (s.at p l) = some ((Machine.dmaMove s).at p l) := by
          unfold dmaStep?
          rw [show dmaEnabled (s.at p l) = dmaEnabled s from rfl, if_pos he, dmaMove_at]
        simp only [ownStep, hseq, hdma]; exact hk
      · rw [if_neg he]; exact ⟨Reaches.refl _, h, rfl⟩

/-! ### The operations -/

theorem latch_running (i : Instr) (p : Pos) {s : State} (h : s.accepts) : Running i (latch i p s) := ⟨h.1, rfl, rfl⟩

theorem latch_at (i : Instr) (p : Pos) (s : State) : latch i p s = (latch i p s).at p Locals.zero := rfl

/-- The operations of one or two statements. -/
theorem reaches_short {i : Instr} {s : State} (hr : Running i s) (p : Pos) (l : Locals)
    (h : microStep i (s.at p l) = some (wholeRun i s) ∨
      ∃ t q, Running i t ∧ microStep i (s.at p l) = some (t.at q l) ∧ microStep i (t.at q l) = some (wholeRun i s)) :
    Reaches (s.at p l) (wholeRun i s) := by
  rcases h with h | ⟨t, q, ht, h1, h2⟩
  · exact hr.statement h (Reaches.refl _)
  · exact hr.statement h1 (ht.statement h2 (Reaches.refl _))

theorem reaches_sendCommand (o : Byte) {s : State} (hr : Running (.sendCommand o) s) (l : Locals) :
    Reaches (s.at (.cmd 0) l) (runSendCommand o s) := by
  have hw : RunsCommand (.sendCommand o) (fun _ => o) (fun a _ => a) (.body 0) := fun _ _ _ => rfl
  obtain ⟨l', h1, h2⟩ := hw.reaches l hr
  obtain ⟨e, he, -, -⟩ := uCommand_spec o s.larg0 s
  refine h1.trans (Running.statement (i := .sendCommand o) (by rw [he]; exact ⟨hr.1, hr.2, hr.3⟩) (t := runSendCommand o s) ?_ (Reaches.refl _))
  rw [h2]; rfl

theorem reaches_waitNotBusy {s : State} (hr : Running .waitNotBusy s) (l : Locals) :
    Reaches (s.at (.wait 0) l) (runWaitNotBusy s) := by
  have hw : RunsWait .waitNotBusy (fun _ a => a) (.body 0) := fun _ _ _ => rfl
  obtain ⟨l', h1, h2⟩ := hw.reaches l hr
  obtain ⟨e, he, -, -⟩ := uWaitNotBusy_spec s.larg0 s
  refine h1.trans (Running.statement (i := .waitNotBusy) (by rw [he]; exact ⟨hr.1, hr.2, hr.3⟩) (t := runWaitNotBusy s) ?_ (Reaches.refl _))
  rw [h2]; rfl

/-- From the busy wait of an OPEN on: `w` and `c` are the positions after the busy wait and after the command. -/
theorem reaches_open {i : Instr} {o : Params → Byte} {w c : Pos} {tail : State → State} {s : State} {l : Locals}
    (hw : RunsWait i (fun p _ => p.openBusyBudget) w) (hc : RunsCommand i o (fun _ x => sectorAddress x) c)
    (hr : Running i s) (hl : l.s = sectorOperand s.larg0)
    (htimeout : ∀ (t : State) (m : Locals), Running i t → m.ok = false →
      Reaches (t.at w m) (finish .cardBusyTimeout 0x00 { t with phase := .failed }))
    (hready : ∀ (t : State) (m : Locals), Running i t → m.ok = true → Reaches (t.at w m) (t.at (.cmd 0) m))
    (hrejected : ∀ (t : State) (m : Locals), Running i t → accepted m.r = false →
      Reaches (t.at c m) (finish .commandRejected m.r { uDeselect t with phase := .failed }))
    (haccepted : ∀ (t : State) (m : Locals), Running i t → t.params = s.params → accepted m.r = true →
      Reaches (t.at c m) (finish .ok m.r { tail t with phase := .opened })) :
    Reaches (s.at (.wait 0) l) (openSession (o s.params) tail s) := by
  obtain ⟨m, h1, h2⟩ := hw.reaches l hr
  obtain ⟨e, he, -, -⟩ := uWaitNotBusy_spec s.params.openBusyBudget s
  have hrun : Running i (uWaitNotBusy s.params.openBusyBudget s).2 := by rw [he]; exact ⟨hr.1, hr.2, hr.3⟩
  have hpar : (uWaitNotBusy s.params.openBusyBudget s).2.params = s.params := by rw [he]; rfl
  refine h1.trans ?_
  have hok : m.ok = (uWaitNotBusy s.params.openBusyBudget s).1 := by rw [h2]
  have hms : m.s = sectorOperand s.larg0 := by rw [h2]; exact hl
  unfold openSession
  simp only
  cases hv : (uWaitNotBusy s.params.openBusyBudget s).1
  · exact htimeout _ m hrun (hok.trans hv)
  · refine (hready _ m hrun (hok.trans hv)).trans ?_
    obtain ⟨m', h3, h4⟩ := hc.reaches m hrun
    simp only [hpar, hms] at h3 h4
    refine h3.trans ?_
    obtain ⟨e', he', -, -⟩ := uCommand_spec (o s.params) (sectorAddress (sectorOperand s.larg0))
      (uWaitNotBusy s.params.openBusyBudget s).2
    have hrun' : Running i (uCommand (o s.params) (sectorAddress (sectorOperand s.larg0))
      (uWaitNotBusy s.params.openBusyBudget s).2).2 := by rw [he']; exact ⟨hrun.1, hrun.2, hrun.3⟩
    have hmr : m'.r = (uCommand (o s.params) (sectorAddress (sectorOperand s.larg0))
      (uWaitNotBusy s.params.openBusyBudget s).2).1 := by rw [h4]
    rw [← hmr, if_pos rfl]
    cases ha : accepted m'.r
    · exact hrejected _ m' hrun' ha
    · exact haccepted _ m' hrun' (by rw [he']; exact hpar) ha

theorem reaches_openWrite {s : State} (hr : Running .openWrite s) (l : Locals) :
    Reaches (s.at (.body 0) l) (runOpenWrite s) := by
  refine hr.statement (t := s.at (.body 1) { l with s := sectorOperand s.larg0 }) rfl ?_
  refine hr.statement (t := State.at { s with sector := sectorOperand s.larg0 } (.body 2) { l with s := sectorOperand s.larg0 })
    rfl ?_
  refine Running.statement (i := .openWrite) ⟨hr.1, hr.2, hr.3⟩
    (t := State.at { s with sector := sectorOperand s.larg0, sdir := .write } (.body 3) { l with s := sectorOperand s.larg0 })
    rfl ?_
  refine Running.statement (i := .openWrite) ⟨hr.1, hr.2, hr.3⟩
    (t := State.at (recordSession .write s) (.wait 0) { l with s := sectorOperand s.larg0 }) rfl ?_
  refine reaches_open (o := fun p => p.cmdWriteBlock) (w := .body 4) (c := .body 7)
    (fun _ _ _ => rfl) (fun _ _ _ => rfl) ⟨hr.1, hr.2, hr.3⟩ rfl ?_ ?_ ?_ ?_
  · intro t m ht hm
    refine ht.statement (t := t.at (.body 5) m) (congrArg some (congrArg (State.at t · m) (by rw [show (State.at t _ m).locals.ok = false from hm]; rfl))) ?_
    refine ht.statement (t := State.at { t with phase := .failed } (.body 6) m) rfl ?_
    exact Running.statement (i := .openWrite) ⟨ht.1, ht.2, ht.3⟩ rfl (Reaches.refl _)
  · intro t m ht hm
    exact ht.statement (t := t.at (.cmd 0) m) (congrArg some (congrArg (State.at t · m) (by rw [show (State.at t _ m).locals.ok = true from hm]; rfl)))
      (Reaches.refl _)
  · intro t m ht hm
    refine ht.statement (t := t.at (.body 8) m) (congrArg some (congrArg (State.at t · m) (by rw [show (State.at t _ m).locals.r = m.r from rfl, hm]; rfl))) ?_
    refine ht.statement (t := (uDeselect t).at (.body 9) m) rfl ?_
    refine ht.deselect.statement (t := State.at { uDeselect t with phase := .failed } (.body 10) m) rfl ?_
    exact Running.statement (i := .openWrite) ⟨ht.1, ht.2, ht.3⟩ rfl (Reaches.refl _)
  · intro t m ht hp hm
    rw [show (recordSession .write s).params = s.params from rfl] at hp
    rw [← hp]
    refine ht.statement (t := t.at (.body 11) m) (congrArg some (congrArg (State.at t · m) (by rw [show (State.at t _ m).locals.r = m.r from rfl, hm]; rfl))) ?_
    refine ht.statement (t := (uWrite clockByte t).at (.body 12) m) rfl ?_
    refine (ht.exchange clockByte).statement (t := (uWrite t.params.startToken (uWrite clockByte t)).at (.body 13) m) rfl ?_
    refine ((ht.exchange clockByte).exchange t.params.startToken).statement
      (t := State.at { uWrite t.params.startToken (uWrite clockByte t) with phase := .opened } (.body 14) m) rfl ?_
    exact Running.statement (i := .openWrite) ⟨ht.1, ht.2, ht.3⟩ rfl (Reaches.refl _)

theorem reaches_openRead {s : State} (hr : Running .openRead s) (l : Locals) :
    Reaches (s.at (.body 0) l) (runOpenRead s) := by
  refine hr.statement (t := s.at (.body 1) { l with s := sectorOperand s.larg0 }) rfl ?_
  refine hr.statement (t := s.at (.body 2) { l with s := sectorOperand s.larg0, q := s.larg1 }) rfl ?_
  refine hr.statement (t := State.at { s with sector := sectorOperand s.larg0 } (.body 3)
    { l with s := sectorOperand s.larg0, q := s.larg1 }) rfl ?_
  refine Running.statement (i := .openRead) ⟨hr.1, hr.2, hr.3⟩
    (t := State.at { s with sector := sectorOperand s.larg0, sdir := .read } (.body 4)
      { l with s := sectorOperand s.larg0, q := s.larg1 }) rfl ?_
  refine Running.statement (i := .openRead) ⟨hr.1, hr.2, hr.3⟩
    (t := State.at (recordSession .read s) (.body 5) { l with s := sectorOperand s.larg0, q := s.larg1 }) rfl ?_
  refine Running.statement (i := .openRead) ⟨hr.1, hr.2, hr.3⟩
    (t := State.at (uLoad .rx s.larg1 sectorSize false (recordSession .read s)) (.body 6)
      { l with s := sectorOperand s.larg0, q := s.larg1 }) rfl ?_
  refine Running.statement (i := .openRead) ⟨hr.1, hr.2, hr.3⟩
    (t := State.at (uLoad .tx 0x00000000 sectorSize true (uLoad .rx s.larg1 sectorSize false (recordSession .read s))) (.wait 0)
      { l with s := sectorOperand s.larg0, q := s.larg1 }) rfl ?_
  refine reaches_open (o := fun p => p.cmdReadBlock) (w := .body 7) (c := .body 10)
    (fun _ _ _ => rfl) (fun _ _ _ => rfl) ⟨hr.1, hr.2, hr.3⟩ rfl ?_ ?_ ?_ ?_
  · intro t m ht hm
    refine ht.statement (t := t.at (.body 8) m) (congrArg some (congrArg (State.at t · m) (by rw [show (State.at t _ m).locals.ok = false from hm]; rfl))) ?_
    refine ht.statement (t := State.at { t with phase := .failed } (.body 9) m) rfl ?_
    exact Running.statement (i := .openRead) ⟨ht.1, ht.2, ht.3⟩ rfl (Reaches.refl _)
  · intro t m ht hm
    exact ht.statement (t := t.at (.cmd 0) m) (congrArg some (congrArg (State.at t · m) (by rw [show (State.at t _ m).locals.ok = true from hm]; rfl)))
      (Reaches.refl _)
  · intro t m ht hm
    refine ht.statement (t := t.at (.body 11) m) (congrArg some (congrArg (State.at t · m) (by rw [show (State.at t _ m).locals.r = m.r from rfl, hm]; rfl))) ?_
    refine ht.statement (t := (uDeselect t).at (.body 12) m) rfl ?_
    refine ht.deselect.statement (t := State.at { uDeselect t with phase := .failed } (.body 13) m) rfl ?_
    exact Running.statement (i := .openRead) ⟨ht.1, ht.2, ht.3⟩ rfl (Reaches.refl _)
  · intro t m ht _ hm
    refine ht.statement (t := t.at (.body 14) m) (congrArg some (congrArg (State.at t · m) (by rw [show (State.at t _ m).locals.r = m.r from rfl, hm]; rfl))) ?_
    refine ht.statement (t := (uWrite clockByte t).at (.body 15) m) rfl ?_
    refine (ht.exchange clockByte).statement (t := State.at { uWrite clockByte t with phase := .opened } (.body 16) m) rfl ?_
    exact Running.statement (i := .openRead) ⟨ht.1, ht.2, ht.3⟩ rfl (Reaches.refl _)

theorem reaches_transfer {s : State} (hr : Running .transfer s) :
    Reaches (s.at (transferFirst s) s.locals) (runTransfer s) := by
  unfold transferFirst runTransfer
  cases hd : s.sdir
  · -- the write path
    refine hr.statement (t := s.at (.body 1) { s.locals with p := s.larg0 }) rfl ?_
    refine hr.statement (t := State.at { s with phase := .transferring } (.body 2) { s.locals with p := s.larg0 }) rfl ?_
    refine Running.statement (i := .transfer) ⟨hr.1, hr.2, hr.3⟩
      (t := State.at (uLoad .tx s.larg0 sectorSize false { s with phase := .transferring }) (.body 3)
        { s.locals with p := s.larg0 }) rfl ?_
    refine Running.statement (i := .transfer) ⟨hr.1, hr.2, hr.3⟩
      (t := State.at (uEnable .tx (uLoad .tx s.larg0 sectorSize false { s with phase := .transferring })) (.body 4)
        { s.locals with p := s.larg0 }) rfl ?_
    unfold transferWrite
    simp only
    generalize hs0 : uEnable .tx (uLoad .tx s.larg0 sectorSize false { s with phase := .transferring }) = s0
    have hr0 : Running .transfer s0 := by rw [← hs0]; exact ⟨hr.1, hr.2, hr.3⟩
    have hl0 : s0.locals = s.locals := by rw [← hs0]; rfl
    obtain ⟨h1, h2, h3⟩ := hr0.awaits (fun t => t.tx.done) (.body 4) { s.locals with p := s.larg0 }
      (fun u hu => if_neg (by show ¬ u.tx.done = true; rw [hu]; simp)) s0.tx.rem.toNat
    generalize awaitDma (fun t => t.tx.done) s0.tx.rem.toNat s0 = m at h1 h2 h3
    refine h1.trans ?_
    by_cases hdone : m.tx.done = true
    · rw [if_pos hdone]
      refine h2.statement (t := m.at (.body 5) { s.locals with p := s.larg0 }) (if_pos hdone) ?_
      refine h2.statement (t := (uDisable .tx m).at (.body 6) { s.locals with p := s.larg0 }) rfl ?_
      exact Running.statement (i := .transfer) ⟨h2.1, h2.2, h2.3⟩ rfl (Reaches.refl _)
    · rw [if_neg hdone, h3, hl0]
      exact Reaches.refl _
  · -- the read path
    refine hr.statement (t := State.at { s with phase := .transferring } (.readPath 1) s.locals) rfl ?_
    refine Running.statement (i := .transfer) ⟨hr.1, hr.2, hr.3⟩
      (t := State.at (uEnable .rx { s with phase := .transferring }) (.readPath 2) s.locals) rfl ?_
    refine Running.statement (i := .transfer) ⟨hr.1, hr.2, hr.3⟩
      (t := State.at (uEnable .tx (uEnable .rx { s with phase := .transferring })) (.readPath 3) s.locals) rfl ?_
    unfold transferRead
    simp only
    generalize hs0 : uEnable .tx (uEnable .rx { s with phase := .transferring }) = s0
    have hr0 : Running .transfer s0 := by rw [← hs0]; exact ⟨hr.1, hr.2, hr.3⟩
    have hl0 : s0.locals = s.locals := by rw [← hs0]; rfl
    obtain ⟨h1, h2, h3⟩ := hr0.awaits (fun t => t.rx.done) (.readPath 3) s.locals
      (fun u hu => if_neg (by show ¬ u.rx.done = true; rw [hu]; simp)) s0.tx.rem.toNat
    generalize awaitDma (fun t => t.rx.done) s0.tx.rem.toNat s0 = m at h1 h2 h3
    refine h1.trans ?_
    by_cases hdone : m.rx.done = true
    · rw [if_pos hdone]
      refine h2.statement (t := m.at (.readPath 4) s.locals) (if_pos hdone) ?_
      refine h2.statement (t := (uDisable .tx m).at (.readPath 5) s.locals) rfl ?_
      refine Running.statement (i := .transfer) ⟨h2.1, h2.2, h2.3⟩
        (t := (uDisable .rx (uDisable .tx m)).at (.readPath 6) s.locals) rfl ?_
      exact Running.statement (i := .transfer) ⟨h2.1, h2.2, h2.3⟩ rfl (Reaches.refl _)
    · rw [if_neg hdone, ← hl0, ← h3]
      exact Reaches.refl _

/-- The post-write polls of CLOSE_WRITE, from the `while` at position `body 13` on. -/
theorem reaches_closePolls (m : Nat) {s : State} (l : Locals) (hr : Running .closeWrite s)
    (hm : l.k.toNat + m = s.params.closeRetries.toNat) :
    Reaches (s.at (.body 13) l) (finish (if (closePolls m s).1 then .ok else .cardBusyTimeout) l.t
      { (closePolls m s).2 with phase := .closed }) := by
  have hw : RunsWait .closeWrite (fun p _ => p.closeBusyBudget) (.body 15) := fun _ _ _ => rfl
  induction m generalizing s l with
  | zero =>
    have hlt : ¬ l.k < s.params.closeRetries := by rw [BitVec.lt_def]; omega
    refine hr.statement (t := s.at (.body 18) l) (congrArg some (congrArg (State.at s · l) (if_neg hlt))) ?_
    refine hr.statement (t := State.at { s with phase := .closed } (.body 19) l) rfl ?_
    exact Running.statement (i := .closeWrite) ⟨hr.1, hr.2, hr.3⟩ rfl (Reaches.refl _)
  | succ m ih =>
    have hlt : l.k < s.params.closeRetries := by rw [BitVec.lt_def]; omega
    refine hr.statement (t := s.at (.body 14) l) (congrArg some (congrArg (State.at s · l) (if_pos hlt))) ?_
    refine hr.statement (t := s.at (.wait 0) { l with k := l.k + 1 }) rfl ?_
    obtain ⟨l', h1, h2⟩ := hw.reaches { l with k := l.k + 1 } hr
    refine h1.trans ?_
    obtain ⟨e, he, -, -⟩ := uWaitNotBusy_spec s.params.closeBusyBudget s
    have hrun : Running .closeWrite (uWaitNotBusy s.params.closeBusyBudget s).2 := by rw [he]; exact ⟨hr.1, hr.2, hr.3⟩
    have hpar : (uWaitNotBusy s.params.closeBusyBudget s).2.params = s.params := by rw [he]; rfl
    have hok : l'.ok = (uWaitNotBusy s.params.closeBusyBudget s).1 := by rw [h2]
    have hk : l'.k = l.k + 1 := by rw [h2]
    have ht : l'.t = l.t := by rw [h2]
    unfold closePolls
    simp only
    generalize uWaitNotBusy s.params.closeBusyBudget s = v at *
    by_cases hv : v.1 = true
    · rw [if_pos hv, if_pos rfl]
      refine hrun.statement (t := v.2.at (.body 16) l')
        (congrArg some (congrArg (State.at v.2 · l') (if_pos (hok.trans hv)))) ?_
      refine hrun.statement (t := State.at { v.2 with phase := .closed } (.body 17) l') rfl ?_
      rw [← ht]
      exact Running.statement (i := .closeWrite) ⟨hrun.1, hrun.2, hrun.3⟩ rfl (Reaches.refl _)
    · rw [if_neg hv]
      refine hrun.statement (t := v.2.at (.body 13) l')
        (congrArg some (congrArg (State.at v.2 · l') (if_neg (fun h => hv (hok.symm.trans h))))) ?_
      rw [← ht]
      exact ih l' hrun (by rw [hk, Word.toNat_succ hlt, hpar]; omega)

theorem reaches_closeWrite {s : State} (hr : Running .closeWrite s) (l : Locals) :
    Reaches (s.at (.body 0) l) (runCloseWrite s) := by
  refine hr.statement (t := State.at { s with phase := .closing } (.body 1) l) rfl ?_
  unfold runCloseWrite
  generalize hs0 : ({ s with phase := .closing } : State) = s0
  have hr0 : Running .closeWrite s0 := by rw [← hs0]; exact ⟨hr.1, hr.2, hr.3⟩
  refine hr0.statement (t := (uWrite clockByte s0).at (.body 2) l) rfl ?_
  refine (hr0.exchange clockByte).statement (t := (uWrite clockByte (uWrite clockByte s0)).at (.body 3) l) rfl ?_
  have hr2 : Running .closeWrite (uWrite clockByte (uWrite clockByte s0)) := (hr0.exchange clockByte).exchange clockByte
  generalize uWrite clockByte (uWrite clockByte s0) = s2 at hr2
  refine hr2.statement (t := (uRead s2).2.at (.body 4) { l with t := (uRead s2).1 }) rfl ?_
  have hr3 : Running .closeWrite (uRead s2).2 := hr2.exchange clockByte
  simp only
  generalize (uRead s2).2 = s3 at hr3
  generalize (uRead s2).1 = token
  refine hr3.statement (t := (uWrite clockByte s3).at (.body 5) { l with t := token }) rfl ?_
  refine (hr3.exchange clockByte).statement (t := (uWrite clockByte (uWrite clockByte s3)).at (.body 6) { l with t := token }) rfl ?_
  have hr4 : Running .closeWrite (uWrite clockByte (uWrite clockByte s3)) := (hr3.exchange clockByte).exchange clockByte
  generalize uWrite clockByte (uWrite clockByte s3) = s4 at hr4
  refine hr4.statement (t := (uDeselect s4).at (.body 7) { l with t := token }) rfl ?_
  have hr5 : Running .closeWrite (uDeselect s4) := hr4.deselect
  generalize uDeselect s4 = s5 at hr5
  unfold closeAfterToken
  by_cases ht : tokenAccepted s5.params token = true
  · rw [if_pos ht]
    refine hr5.statement (t := s5.at (.body 11) { l with t := token })
      (congrArg some (congrArg (State.at s5 · _) (if_pos ht))) ?_
    refine hr5.statement (t := State.at { s5 with dataAccepted := true } (.body 12) { l with t := token }) rfl ?_
    refine Running.statement (i := .closeWrite) ⟨hr5.1, hr5.2, hr5.3⟩
      (t := State.at { s5 with dataAccepted := true } (.body 13) { l with t := token, k := 0 }) rfl ?_
    exact reaches_closePolls s5.params.closeRetries.toNat { l with t := token, k := 0 } ⟨hr5.1, hr5.2, hr5.3⟩ (Nat.zero_add _)
  · rw [if_neg ht]
    refine hr5.statement (t := s5.at (.body 8) { l with t := token })
      (congrArg some (congrArg (State.at s5 · _) (if_neg ht))) ?_
    refine hr5.statement (t := State.at { s5 with dataAccepted := false } (.body 9) { l with t := token }) rfl ?_
    refine Running.statement (i := .closeWrite) ⟨hr5.1, hr5.2, hr5.3⟩
      (t := State.at { s5 with dataAccepted := false, phase := .failed } (.body 10) { l with t := token }) rfl ?_
    exact Running.statement (i := .closeWrite) ⟨hr5.1, hr5.2, hr5.3⟩ rfl (Reaches.refl _)

theorem reaches_closeRead {s : State} (hr : Running .closeRead s) (l : Locals) :
    Reaches (s.at (.body 0) l) (runCloseRead s) := by
  refine hr.statement (t := State.at { s with phase := .closing } (.body 1) l) rfl ?_
  unfold runCloseRead
  generalize hs0 : ({ s with phase := .closing } : State) = s0
  have hr0 : Running .closeRead s0 := by rw [← hs0]; exact ⟨hr.1, hr.2, hr.3⟩
  refine hr0.statement (t := (uRead s0).2.at (.body 2) l) rfl ?_
  refine (hr0.exchange clockByte).statement (t := (uRead (uRead s0).2).2.at (.body 3) l) rfl ?_
  have hr2 : Running .closeRead (uRead (uRead s0).2).2 := (hr0.exchange clockByte).exchange clockByte
  simp only
  generalize (uRead (uRead s0).2).2 = s2 at hr2
  refine hr2.statement (t := (uDeselect s2).at (.body 4) l) rfl ?_
  refine hr2.deselect.statement (t := State.at { uDeselect s2 with phase := .closed } (.body 5) l) rfl ?_
  exact Running.statement (i := .closeRead) ⟨hr2.1, hr2.2, hr2.3⟩ rfl (Reaches.refl _)

/-- From the issued state, the SBT's own steps reach the state the whole run gives: every statement of every listing is accounted for. -/
theorem reaches_wholeRun (i : Instr) {s : State} (h : s.accepts) :
    Reaches (latch i (firstStatement i s) s) (wholeRun i (latch i (firstStatement i s) s)) := by
  have hr := latch_running i (firstStatement i s) h
  cases i with
  | nop => exact reaches_short hr (.body 0) Locals.zero (.inl rfl)
  | select => exact reaches_short hr (.body 0) Locals.zero (.inr ⟨_, .body 1, hr.select, rfl, rfl⟩)
  | deselect => exact reaches_short hr (.body 0) Locals.zero (.inr ⟨_, .body 1, hr.deselect, rfl, rfl⟩)
  | writeByte b => exact reaches_short hr (.body 0) Locals.zero (.inr ⟨_, .body 1, hr.exchange b, rfl, rfl⟩)
  | readByte =>
    refine hr.statement (p := .body 0) (l := Locals.zero)
      (t := (uRead (latch .readByte (.body 0) s)).2.at (.body 1) { Locals.zero with x := (uRead (latch .readByte (.body 0) s)).1 })
      rfl ?_
    exact (hr.exchange clockByte).statement rfl (Reaches.refl _)
  | sendCommand o => exact reaches_sendCommand o hr Locals.zero
  | waitNotBusy => exact reaches_waitNotBusy hr Locals.zero
  | dmaConfigure ch =>
    cases ch
    · exact reaches_short hr (.body 0) Locals.zero
        (.inr ⟨uLoad .tx s.arg0 (countOperand s.arg1) false (latch (.dmaConfigure .tx) (.body 0) s), .body 1, ⟨hr.1, hr.2, hr.3⟩, rfl, rfl⟩)
    · exact reaches_short hr (.body 0) Locals.zero
        (.inr ⟨uLoad .rx s.arg0 (countOperand s.arg1) false (latch (.dmaConfigure .rx) (.body 0) s), .body 1, ⟨hr.1, hr.2, hr.3⟩, rfl, rfl⟩)
  | dmaConfigureFill =>
    exact reaches_short hr (.body 0) Locals.zero
      (.inr ⟨uLoad .tx 0x00000000 (countOperand s.arg1) true (latch _ (.body 0) s), .body 1, ⟨hr.1, hr.2, hr.3⟩, rfl, rfl⟩)
  | dmaEnable ch =>
    cases ch
    · exact reaches_short hr (.body 0) Locals.zero
        (.inr ⟨uEnable .tx (latch (.dmaEnable .tx) (.body 0) s), .body 1, ⟨hr.1, hr.2, hr.3⟩, rfl, rfl⟩)
    · exact reaches_short hr (.body 0) Locals.zero
        (.inr ⟨uEnable .rx (latch (.dmaEnable .rx) (.body 0) s), .body 1, ⟨hr.1, hr.2, hr.3⟩, rfl, rfl⟩)
  | dmaIsComplete ch => exact reaches_short hr (.body 0) Locals.zero (.inl rfl)
  | dmaDisable ch =>
    cases ch
    · exact reaches_short hr (.body 0) Locals.zero
        (.inr ⟨uDisable .tx (latch (.dmaDisable .tx) (.body 0) s), .body 1, ⟨hr.1, hr.2, hr.3⟩, rfl, rfl⟩)
    · exact reaches_short hr (.body 0) Locals.zero
        (.inr ⟨uDisable .rx (latch (.dmaDisable .rx) (.body 0) s), .body 1, ⟨hr.1, hr.2, hr.3⟩, rfl, rfl⟩)
  | openWrite => exact reaches_openWrite hr Locals.zero
  | transfer => exact reaches_transfer hr
  | closeWrite => exact reaches_closeWrite hr Locals.zero
  | openRead => exact reaches_openRead hr Locals.zero
  | closeRead => exact reaches_closeRead hr Locals.zero

end Sys2Proof.Machine
end

