-- ==== Sys2Proof/Laws/OwnStep.lean ====
section
/-! SUPPORT. What every own step of the SBT leaves unchanged, and so what every operation leaves unchanged: the sequencer's step, the DMA
engine's step, and a whole request. -/

namespace Sys2Proof.Machine

/-- What no own step changes: the host's registers, the fault record, the parameters, the schedule, what the host has read; and the history
only grows. -/
structure SameOutside (s t : State) : Prop where
  arg0     : t.arg0 = s.arg0
  arg1     : t.arg1 = s.arg1
  faulted  : t.faulted = s.faulted
  fcode    : t.fcode = s.fcode
  faultCmd : t.faultCmd = s.faultCmd
  params   : t.params = s.params
  agenda   : t.agenda = s.agenda
  hostData : t.hostData = s.hostData
  history  : s.history <+: t.history

theorem SameOutside.refl (s : State) : SameOutside s s := ⟨rfl, rfl, rfl, rfl, rfl, rfl, rfl, rfl, List.prefix_refl _⟩

theorem SameOutside.trans {s t u : State} (h : SameOutside s t) (g : SameOutside t u) : SameOutside s u :=
  ⟨g.1.trans h.1, g.2.trans h.2, g.3.trans h.3, g.4.trans h.4, g.5.trans h.5, g.6.trans h.6, g.7.trans h.7, g.8.trans h.8,
    h.9.trans g.9⟩

/-- A statement of a micro-routine or an operation changes neither what is outside nor memory. -/
abbrev Quiet (s t : State) : Prop := SameOutside s t ∧ t.mem = s.mem

theorem quiet_same {s t : State} (h : t = { s with
    resultData := t.resultData, resultCode := t.resultCode, busy := t.busy, cs := t.cs, phase := t.phase, sdir := t.sdir,
    dataAccepted := t.dataAccepted, tx := t.tx, rx := t.rx, txFill := t.txFill, sector := t.sector, lop := t.lop,
    larg0 := t.larg0, larg1 := t.larg1, pos := t.pos, locals := t.locals, cardScript := t.cardScript }) : Quiet s t := by
  rw [h]; exact ⟨⟨rfl, rfl, rfl, rfl, rfl, rfl, rfl, rfl, List.prefix_refl _⟩, rfl⟩

theorem quiet_exchange {s t : State} {e : Exchange} (h : t = { s with
    resultData := t.resultData, resultCode := t.resultCode, busy := t.busy, cs := t.cs, phase := t.phase, sdir := t.sdir,
    dataAccepted := t.dataAccepted, tx := t.tx, rx := t.rx, txFill := t.txFill, sector := t.sector, lop := t.lop,
    larg0 := t.larg0, larg1 := t.larg1, pos := t.pos, locals := t.locals, cardScript := t.cardScript,
    history := s.history ++ [e] }) : Quiet s t := by
  rw [h]; exact ⟨⟨rfl, rfl, rfl, rfl, rfl, rfl, rfl, rfl, List.prefix_append _ _⟩, rfl⟩

theorem microCommand_quiet {o : Byte} {a : Word} {ret : Pos} {s t : State} {n : Nat}
    (h : microCommand o a ret s n = some t) : Quiet s t := by
  unfold microCommand at h
  split at h <;> cases h <;> first | exact quiet_same rfl | exact quiet_exchange rfl

theorem microWait_quiet {b : Word} {ret : Pos} {s t : State} {n : Nat} (h : microWait b ret s n = some t) : Quiet s t := by
  unfold microWait at h
  split at h <;> cases h <;> first | exact quiet_same rfl | exact quiet_exchange rfl

/-- Every statement of every operation. -/
theorem microStep_quiet {i : Instr} {s t : State} (h : microStep i s = some t) : Quiet s t := by
  cases i <;> simp only [microStep, microNop, microSelect, microDeselect, microWriteByte, microReadByte, microSendCommand,
    microWaitNotBusy, microDmaConfigure, microDmaConfigureFill, microDmaEnable, microDmaIsComplete, microDmaDisable, microOpenWrite,
    microTransfer, microCloseWrite, microOpenRead, microCloseRead] at h <;> split at h <;>
    first
      | exact microCommand_quiet h
      | exact microWait_quiet h
      | (cases h; first | exact quiet_same rfl | exact quiet_exchange rfl)
      | (rename_i ch _ _; cases h; cases ch <;> exact quiet_same rfl)
      | (split at h <;> cases h; exact quiet_same rfl)
      | cases h

theorem sequencerStep_quiet {s t : State} (h : sequencerStep? s = some t) : Quiet s t := by
  unfold sequencerStep? at h
  split at h
  · cases h
  · split at h
    · cases h
    · exact microStep_quiet h

/-- A DMA step: one exchange; TX counts down, and RX stores and counts if it runs. -/
theorem dmaMove_eq (s : State) : dmaMove s =
    { s with tx := s.tx.countDown, rx := if s.rx.running then s.rx.countDown else s.rx,
             mem := if s.rx.running then s.mem.write s.rx.address.toNat (cardAnswer (dmaOut s) s) else s.mem }.exchanged
      [⟨s.cs, dmaOut s, cardAnswer (dmaOut s) s⟩] := by
  unfold dmaMove
  rw [show rxCaptures s = s.rx.running from rfl]
  cases s.rx.running <;> simp [afterExchange, State.exchanged, rxStore, memWriteByte]

theorem dmaMove_outside (s : State) : SameOutside s (dmaMove s) := by
  rw [dmaMove_eq]; exact ⟨rfl, rfl, rfl, rfl, rfl, rfl, rfl, rfl, List.prefix_append _ _⟩

/-- The three things an own step can do: a statement of the running operation, a DMA step, or nothing. -/
theorem ownStep_cases (s : State) :
    sequencerStep? s = some (ownStep s) ∨ (dmaEnabled s = true ∧ ownStep s = dmaMove s) ∨ ownStep s = s := by
  unfold ownStep
  cases h : sequencerStep? s with
  | some t => exact .inl rfl
  | none =>
    unfold dmaStep?
    cases he : dmaEnabled s
    · exact .inr (.inr rfl)
    · exact .inr (.inl ⟨rfl, rfl⟩)

theorem ownStep_outside (s : State) : SameOutside s (ownStep s) := by
  rcases ownStep_cases s with h | ⟨-, h⟩ | h
  · exact (sequencerStep_quiet h).1
  · rw [h]; exact dmaMove_outside s
  · rw [h]; exact SameOutside.refl s

/-- A whole run changes nothing outside. -/
theorem wholeRun_outside (i : Instr) {s : State} (h : s.accepts) :
    SameOutside s (wholeRun i (latch i (firstStatement i s) s)) :=
  (reaches_wholeRun i h).keeps (P := SameOutside s) (fun t ht => ht.trans (ownStep_outside t))
    ⟨rfl, rfl, rfl, rfl, rfl, rfl, rfl, rfl, List.prefix_refl _⟩

/-- A property that issuing and every own step keep holds after a whole run. -/
theorem wholeRun_keeps {P : State → Prop} (hP : ∀ s, P s → P (ownStep s)) (i : Instr) {s : State} (h : s.accepts)
    (hs : P (latch i (firstStatement i s) s)) : P (wholeRun i (latch i (firstStatement i s) s)) :=
  (reaches_wholeRun i h).keeps hP hs

/-! ### Runs of the machine -/

theorem core_run_one (s : State) : core.run 1 s = step s := by
  simp only [Host.Core.run]
  have : core.step s = step s := rfl
  rw [this]
  cases step s <;> rfl

theorem core_run_succ (n : Nat) {s t : State} (h : step s = .next t) : core.run (n + 1) s = core.run n t := by
  simp only [Host.Core.run, show core.step s = .next t from h]

/-- With an empty schedule a run is the SBT's own steps. -/
theorem core_run_ownSteps (n : Nat) {s : State} (h : s.agenda = []) : core.run n s = .next (ownSteps n s) := by
  induction n generalizing s with
  | zero => rfl
  | succ n ih =>
    have hs : step s = .next (ownStep s) := by simp only [step, h]
    exact (core_run_succ n hs).trans (ih ((ownStep_outside s).agenda.trans h))

/-- A run of DMA turns that are all enabled is as many DMA moves. -/
theorem core_run_dmaTurns (n : Nat) {s : State} (rest : List Move) (h : ∀ j < n, dmaEnabled (dmaMoves j s) = true) :
    core.run n { s with agenda := List.replicate n (.atomic .dma) ++ rest } = .next { dmaMoves n s with agenda := rest } := by
  induction n generalizing s with
  | zero => rfl
  | succ n ih =>
    refine (core_run_succ n (t := { dmaMove s with agenda := List.replicate n (.atomic .dma) ++ rest }) ?_).trans
      (ih (fun j hj => h (j + 1) (by omega)))
    have h0 : dmaEnabled s = true := h 0 (by omega)
    simp only [step, List.replicate_succ, List.cons_append, atomicStep, dmaStep?]
    rw [if_pos (show dmaEnabled { s with agenda := List.replicate n (.atomic .dma) ++ rest } = true from h0),
      dmaMove_eq, dmaMove_eq]
    rfl

/-! ### Invariants of a step -/

/-- A property that the sequencer's steps and the DMA engine's steps keep is kept by own steps. -/
theorem ownStep_keeps {P : State → Prop} (hseq : ∀ s t, P s → sequencerStep? s = some t → P t)
    (hdma : ∀ s, P s → dmaEnabled s = true → P (dmaMove s)) (s : State) (hs : P s) : P (ownStep s) := by
  rcases ownStep_cases s with h | ⟨he, h⟩ | h
  · exact hseq _ _ hs h
  · rw [h]; exact hdma _ hs he
  · rw [h]; exact hs

/-- The one induction over what a step can do: a property is kept by every step if it is kept by taking a move off the schedule, a statement
of the sequencer, a DMA step, an accepted issue, fault entry, the host's writes and reads, and reset. -/
theorem step_keeps {P : State → Prop} (hagenda : ∀ s l, P s → P { s with agenda := l })
    (hseq : ∀ s t, P s → sequencerStep? s = some t → P t)
    (hdma : ∀ s, P s → dmaEnabled s = true → P (dmaMove s))
    (hissue : ∀ i s, P s → s.accepts → issueCheck i s = none → P (latch i (firstStatement i s) s))
    (hfault : ∀ s c w, P s → s.faulted = false → c ≠ .none → P (s.withFault c w))
    (harg0 : ∀ s v, P s → P { s with arg0 := v }) (harg1 : ∀ s v, P s → P { s with arg1 := v })
    (hread : ∀ s v, P s → P { s with hostData := v }) (hstore : ∀ s a v, P s → P (memWriteByte a v s))
    (hreset : ∀ s, P s → P (resetSbt s)) {s t : State} (hs : P s) (h : step s = .next t) : P t := by
  have hown := ownStep_keeps hseq hdma
  have hexec : ∀ i s t, P s → exec i s = .next t → P t := by
    intro i s t hs h
    rcases exec_cases i s with ⟨hf, he⟩ | ⟨hf, hb, he⟩ | ⟨ha, code, hc, he⟩ | ⟨ha, hc, he⟩ <;> rw [he] at h <;> cases h
    · exact hs
    · exact hfault _ _ _ hs hf (by simp)
    · exact hfault _ _ _ hs ha.1 (issueCheck_ne_none ha.2 hc)
    · exact wholeRun_keeps hown i ha (hissue i s hs ha hc)
  have hreject : ∀ w s, P s → P (rejectWord w s) := by
    intro w s hs
    unfold rejectWord
    split
    · exact hs
    · next hf => split <;> exact hfault _ _ _ hs (by simpa using hf) (by simp)
  have hword : ∀ w s, P s → P (issueWord w s) := by
    intro w s hs
    unfold issueWord
    split
    · exact hreject _ _ hs
    · next i _ =>
      unfold issueThen
      split
      · exact hs
      · next hf =>
        have hf : s.faulted = false := by simpa using hf
        split
        · exact hfault _ _ _ hs hf (by simp)
        · next hb =>
          have hb : s.busy = false := by simpa using hb
          split
          · next hc => exact hfault _ _ _ hs hf (issueCheck_ne_none hb hc)
          · next hc => exact hissue _ _ hs ⟨hf, hb⟩ hc
  unfold step at h
  split at h
  · cases h; exact hown s hs
  · split at h
    · exact hexec _ _ _ (hagenda _ _ hs) h
    · cases h; exact hreject _ _ (hagenda _ _ hs)
  · next a rest _ =>
    have hs' := hagenda s rest hs
    generalize ({ s with agenda := rest } : State) = u at hs' h
    unfold atomicStep at h
    split at h
    · split at h <;> cases h
      unfold windowStore
      split
      · exact hword _ _ hs'
      · exact harg0 _ _ hs'
      · exact harg1 _ _ hs'
      · exact hs'
    · split at h <;> cases h; exact hread _ _ hs'
    · split at h <;> cases h; exact hstore _ _ _ hs'
    · split at h <;> cases h; exact hread _ _ hs'
    · cases h
      cases hq : sequencerStep? u with
      | none => exact hs'
      | some v => exact hseq _ _ hs' hq
    · cases h
      unfold dmaStep?
      split
      · next he => exact hdma _ hs' he
      · exact hs'
    · cases h; exact hown _ hs'
    · cases h; exact hreset _ hs'
    · cases h
  · next rest _ =>
    have hs' := hagenda s rest hs
    generalize ({ s with agenda := rest } : State) = u at hs' h
    cases h
    rw [pollRound_eq]
    exact hagenda { u with hostData := statusWord u } _ (hread u _ hs')

end Sys2Proof.Machine
end

