-- ==== Sys2Proof/Laws/PerInstr.lean ====
section
/-! SUPPORT. For every instruction, as syntax: its word splits into the fields the OP map gives it (spec/30_encoding.md R91, R92), and those
fields pass every check of R94. -/

namespace Sys2Proof.Laws.WordFields

open Sys2Proof

/-- The word of an operation has the operation's fields, and they are well formed. -/
def Statement (i : Instr) : Prop := fieldsOf (encode i) = i.fields ∧ i.wf = true

theorem nop : Statement .nop := ⟨fieldsOf_assembleFields _, rfl⟩
theorem select : Statement .select := ⟨fieldsOf_assembleFields _, rfl⟩
theorem deselect : Statement .deselect := ⟨fieldsOf_assembleFields _, rfl⟩
theorem writeByte (b : Byte) : Statement (.writeByte b) := ⟨fieldsOf_assembleFields _, by
  simp [Instr.wf, Instr.fields, Fields.wf, Fields.opKnown, Fields.dirAllowed, Fields.fillAllowed, Fields.immAllowed]⟩
theorem readByte : Statement .readByte := ⟨fieldsOf_assembleFields _, rfl⟩
theorem sendCommand (o : Byte) : Statement (.sendCommand o) := ⟨fieldsOf_assembleFields _, by
  simp [Instr.wf, Instr.fields, Fields.wf, Fields.opKnown, Fields.dirAllowed, Fields.fillAllowed, Fields.immAllowed]⟩
theorem waitNotBusy : Statement .waitNotBusy := ⟨fieldsOf_assembleFields _, rfl⟩
theorem dmaConfigure (ch : Chan) : Statement (.dmaConfigure ch) := ⟨fieldsOf_assembleFields _, by cases ch <;> rfl⟩
theorem dmaConfigureFill : Statement .dmaConfigureFill := ⟨fieldsOf_assembleFields _, rfl⟩
theorem dmaEnable (ch : Chan) : Statement (.dmaEnable ch) := ⟨fieldsOf_assembleFields _, by cases ch <;> rfl⟩
theorem dmaIsComplete (ch : Chan) : Statement (.dmaIsComplete ch) := ⟨fieldsOf_assembleFields _, by cases ch <;> rfl⟩
theorem dmaDisable (ch : Chan) : Statement (.dmaDisable ch) := ⟨fieldsOf_assembleFields _, by cases ch <;> rfl⟩
theorem openWrite : Statement .openWrite := ⟨fieldsOf_assembleFields _, rfl⟩
theorem transfer : Statement .transfer := ⟨fieldsOf_assembleFields _, rfl⟩
theorem closeWrite : Statement .closeWrite := ⟨fieldsOf_assembleFields _, rfl⟩
theorem openRead : Statement .openRead := ⟨fieldsOf_assembleFields _, rfl⟩
theorem closeRead : Statement .closeRead := ⟨fieldsOf_assembleFields _, rfl⟩

end Sys2Proof.Laws.WordFields
end

