-- ==== Sys2Proof/Laws/Poll.lean ====
section
/-! SUPPORT. What POLL does (spec/30_encoding.md R105): it ends at the first read that finds BUSY = 0, and until then the SBT takes its own steps;
and that a request that ends with BUSY = 1 holds. -/

namespace Sys2Proof.Machine

/-! ### An own step does not see the schedule or the host's variable -/

/-- `s` with another schedule and another host variable. -/
def State.hosted (s : State) (l : List Move) (v : Word) : State := { s with agenda := l, hostData := v }

@[simp] theorem State.hosted_busy (s : State) (l : List Move) (v : Word) : (s.hosted l v).busy = s.busy := rfl
@[simp] theorem State.hosted_hosted (s : State) (l m : List Move) (v w : Word) : (s.hosted l v).hosted m w = s.hosted m w := rfl
theorem State.hosted_self (s : State) : s.hosted s.agenda s.hostData = s := rfl

theorem dmaMove_hosted (s : State) (l : List Move) (v : Word) : dmaMove (s.hosted l v) = (dmaMove s).hosted l v := by
  rw [dmaMove_eq, dmaMove_eq]; rfl

theorem microCommand_hosted (o : Byte) (a : Word) (ret : Pos) (s : State) (n : Nat) (l : List Move) (v : Word) :
    microCommand o a ret (s.hosted l v) n = (microCommand o a ret s n).map (·.hosted l v) := by
  unfold microCommand; split <;> rfl

theorem microWait_hosted (b : Word) (ret : Pos) (s : State) (n : Nat) (l : List Move) (v : Word) :
    microWait b ret (s.hosted l v) n = (microWait b ret s n).map (·.hosted l v) := by
  unfold microWait; split <;> rfl

theorem microStep_hosted (i : Instr) (s : State) (l : List Move) (v : Word) :
    microStep i (s.hosted l v) = (microStep i s).map (·.hosted l v) := by
  cases i <;> simp only [microStep, microNop, microSelect, microDeselect, microWriteByte, microReadByte, microSendCommand,
    microWaitNotBusy, microDmaConfigure, microDmaConfigureFill, microDmaEnable, microDmaIsComplete, microDmaDisable, microOpenWrite,
    microTransfer, microCloseWrite, microOpenRead, microCloseRead, State.hosted] <;> split <;>
    first
      | rfl
      | exact microCommand_hosted _ _ _ _ _ _ _
      | exact microWait_hosted _ _ _ _ _ _
      | (rename_i ch _ _; cases ch <;> rfl)
      | (split <;> rename_i hc <;> simp only [hc, if_true, if_false, Bool.false_eq_true] <;> rfl)

theorem ownStep_hosted (s : State) (l : List Move) (v : Word) : ownStep (s.hosted l v) = (ownStep s).hosted l v := by
  have hseq : sequencerStep? (s.hosted l v) = (sequencerStep? s).map (·.hosted l v) := by
    unfold sequencerStep?
    rw [show (s.hosted l v).faulted = s.faulted from rfl, show (s.hosted l v).lop = s.lop from rfl]
    split
    · rfl
    · split
      · rfl
      · exact microStep_hosted _ _ _ _
  have hdma : dmaStep? (s.hosted l v) = (dmaStep? s).map (·.hosted l v) := by
    unfold dmaStep?
    rw [show dmaEnabled (s.hosted l v) = dmaEnabled s from rfl, dmaMove_hosted]
    split <;> rfl
  unfold ownStep
  rw [hseq, hdma]
  cases sequencerStep? s with
  | some t => rfl
  | none => cases dmaStep? s <;> rfl

theorem ownSteps_hosted (n : Nat) (s : State) (l : List Move) (v : Word) : ownSteps n (s.hosted l v) = (ownSteps n s).hosted l v := by
  induction n generalizing s with
  | zero => rfl
  | succ n ih => rw [ownSteps, ownStep_hosted, ih]; rfl

/-! ### POLL -/

/-- A round of POLL reads STATUS, and goes on exactly when BUSY is 1. -/
theorem step_poll {s : State} {rest : List Move} (ha : s.agenda = .poll :: rest) :
    step s = .next (s.hosted (if s.busy then pollAgain rest else rest) (statusWord s)) := by
  simp only [step, ha, pollRound_eq]; rfl

/-- A round that finds BUSY = 0 ends POLL. -/
theorem step_poll_idle {s : State} {rest : List Move} (ha : s.agenda = .poll :: rest) (hb : s.busy = false) :
    step s = .next (s.hosted rest (statusWord s)) := by
  rw [step_poll ha, if_neg (by simp [hb])]

/-- A round that finds BUSY = 1 goes on after another agent's turn. -/
theorem step_poll_busy {s : State} {rest : List Move} (ha : s.agenda = .poll :: rest) (hb : s.busy = true) :
    step s = .next (s.hosted (pollAgain rest) (statusWord s)) := by
  rw [step_poll ha, if_pos hb]

/-- With nothing but POLL on the schedule, two steps with BUSY = 1 are a read of STATUS and an own step. -/
theorem core_run_poll_round {s : State} (n : Nat) (ha : s.agenda = [.poll]) (hb : s.busy = true) :
    core.run (n + 2) s = core.run n ((ownStep s).hosted [.poll] (statusWord s)) := by
  refine (core_run_succ (n + 1) (step_poll_busy ha hb)).trans (core_run_succ n ?_)
  show Host.Outcome.next (ownStep (s.hosted [.poll] (statusWord s))) = _
  rw [ownStep_hosted]

/-- POLL through own steps taken with BUSY = 1. -/
theorem core_run_poll {s : State} (n : Nat) (ha : s.agenda = [.poll]) (h : ∀ j < n, (ownSteps j s).busy = true) :
    ∃ v, ∀ m, core.run (2 * n + m) s = core.run m ((ownSteps n s).hosted [.poll] v) := by
  induction n generalizing s with
  | zero => exact ⟨s.hostData, fun m => by rw [Nat.mul_zero, Nat.zero_add, ← ha]; rfl⟩
  | succ n ih =>
    obtain ⟨v, hv⟩ := ih (s := (ownStep s).hosted [.poll] (statusWord s)) rfl
      (fun j hj => by rw [ownSteps_hosted]; exact h (j + 1) (by omega))
    refine ⟨v, fun m => ?_⟩
    rw [show 2 * (n + 1) + m = 2 * n + m + 2 by omega, core_run_poll_round _ ha (h 0 (by omega)), hv, ownSteps_hosted]
    rfl

/-- Where own steps change nothing and BUSY stays 1, POLL never ends. -/
theorem core_run_poll_holds {s : State} (hf : ownStep s = s) (hb : s.busy = true) (m : Nat) (v : Word) :
    ∃ l w, core.run m (s.hosted [.poll] v) = .next (s.hosted l w) ∧ .poll ∈ l := by
  induction m using Nat.strongRecOn generalizing v with
  | _ m ih =>
    match m with
    | 0 => exact ⟨[.poll], v, rfl, by simp⟩
    | 1 => exact ⟨_, _, (core_run_one _).trans (step_poll_busy rfl hb), by simp [pollAgain]⟩
    | m + 2 =>
      rw [core_run_poll_round m rfl (show (s.hosted [.poll] v).busy = true from hb), ownStep_hosted, hf]
      exact ih m (by omega) _

/-! ### A request that ends with BUSY = 1 holds -/

/-- An await that ends in vain leaves no DMA step, if it may wait for all of TX's bytes. -/
theorem awaitDma_vain {cond : State → Bool} {s : State} (h : cond (awaitDma cond s.tx.rem.toNat s) = false) :
    dmaEnabled (awaitDma cond s.tx.rem.toNat s) = false := by
  obtain ⟨k, hk, he, -, hend⟩ := awaitDma_eq cond s.tx.rem.toNat s
  rw [he] at h ⊢
  rcases hend with hk | hc | hd
  · have hrem : ∀ (n : Nat) (u : State), n ≤ u.tx.rem.toNat → (dmaMoves n u).tx.rem.toNat = u.tx.rem.toNat - n := by
      intro n
      induction n with
      | zero => intro u _; rfl
      | succ n ih =>
        intro u hu
        have h1 : (dmaMove u).tx.rem.toNat = u.tx.rem.toNat - 1 := by
          rw [dmaMove_tx, Channel.countDown_rem_toNat _ (Channel.rem_ne_zero hu)]
        rw [dmaMoves_succ, ih _ (by omega), h1]; omega
    have h0 : (dmaMoves k s).tx.rem = 0 := by
      apply BitVec.eq_of_toNat_eq
      rw [hrem k s (by omega), hk]; simp
    simp [dmaEnabled, Channel.running, h0]
  · rw [h] at hc; cases hc
  · exact hd

/-- Every operation but TRANSFER ends in `finish`. -/
theorem wholeRun_finish (i : Instr) (s : State) (h : i ≠ .transfer) : ∃ code data t, wholeRun i s = finish code data t := by
  cases i <;> first
    | exact ⟨_, _, _, rfl⟩
    | exact absurd rfl h
    | (unfold wholeRun runOpenWrite openSession; simp only; split
       · split <;> exact ⟨_, _, _, rfl⟩
       · exact ⟨_, _, _, rfl⟩)
    | (unfold wholeRun runOpenRead openSession; simp only; split
       · split <;> exact ⟨_, _, _, rfl⟩
       · exact ⟨_, _, _, rfl⟩)
    | (unfold wholeRun runCloseWrite closeAfterToken; simp only; split <;> exact ⟨_, _, _, rfl⟩)

/-- A whole run that leaves BUSY = 1 is a TRANSFER that holds: no own step changes anything. -/
theorem wholeRun_holds (i : Instr) {s : State} (h : s.accepts)
    (hb : (wholeRun i (latch i (firstStatement i s) s)).busy = true) :
    ownStep (wholeRun i (latch i (firstStatement i s) s)) = wholeRun i (latch i (firstStatement i s) s) := by
  have hr := latch_running i (firstStatement i s) h
  generalize latch i (firstStatement i s) s = u at hb hr ⊢
  by_cases hi : i = .transfer
  · subst hi
    -- at the await the sequencer has no step, and the await ended with no DMA step enabled
    have hhold : ∀ t : State, Running .transfer t → microStep .transfer t = none → dmaEnabled t = false → ownStep t = t := by
      intro t ht hm hd
      simp only [ownStep, sequencerStep?, ht.notFaulted, ht.op, hm, dmaStep?, hd]; rfl
    have hb : (runTransfer u).busy = true := hb
    show ownStep (runTransfer u) = runTransfer u
    unfold runTransfer at hb ⊢
    split at hb
    · unfold transferWrite at hb ⊢
      simp only at hb ⊢
      generalize hs0 : uEnable .tx (uLoad .tx u.larg0 sectorSize false { u with phase := .transferring }) = s0 at hb ⊢
      have hr0 : Running .transfer s0 := by rw [← hs0]; exact ⟨hr.1, hr.2, hr.3⟩
      have hrun := (hr0.awaits (fun t => t.tx.done) (.body 4) Locals.zero
        (fun v hv => if_neg (by show ¬ v.tx.done = true; rw [hv]; simp)) s0.tx.rem.toNat).2.1
      split at hb
      · cases hb
      · next hdone =>
        have hdone := Bool.not_eq_true _ ▸ hdone
        rw [if_neg (by rw [hdone]; simp)]
        exact hhold _ ⟨hrun.1, hrun.2, hrun.3⟩ (if_neg (by show ¬ _ = true; rw [hdone]; simp)) (awaitDma_vain hdone)
    · unfold transferRead at hb ⊢
      simp only at hb ⊢
      generalize hs0 : uEnable .tx (uEnable .rx { u with phase := .transferring }) = s0 at hb ⊢
      have hr0 : Running .transfer s0 := by rw [← hs0]; exact ⟨hr.1, hr.2, hr.3⟩
      have hrun := (hr0.awaits (fun t => t.rx.done) (.readPath 3) Locals.zero
        (fun v hv => if_neg (by show ¬ v.rx.done = true; rw [hv]; simp)) s0.tx.rem.toNat).2.1
      split at hb
      · cases hb
      · next hdone =>
        have hdone := Bool.not_eq_true _ ▸ hdone
        rw [if_neg (by rw [hdone]; simp)]
        exact hhold _ ⟨hrun.1, hrun.2, hrun.3⟩ (if_neg (by show ¬ _ = true; rw [hdone]; simp)) (awaitDma_vain hdone)
  · obtain ⟨code, data, v, hv⟩ := wholeRun_finish i u hi
    rw [hv] at hb; cases hb

end Sys2Proof.Machine
end

