-- ==== Sys2Proof/Tests/Slice0.lean ====
section
/-! SUPPORT. The model's own tests: the WellFormed smoke, decoding from words written out bit by bit, one or two steps of each operation with
the values of spec/95_test_vectors.md, and a witness for the hypotheses of every statement. -/

namespace Sys2Proof.Tests

open Sys2Proof Sys2Proof.Machine

/-! ### Helpers -/

/-- The parameters of 95_test_vectors.md section 0, the window at 0x4000_0000 and memory at 0 to 0xFFFF. -/
def params : Params :=
  { cmdWriteBlock := 0x58, cmdReadBlock := 0x51, startToken := 0xFE, drAccept := 0x5, cmdTrailer := 0xFF, readyByte := 0xFF,
    idleByte := 0xFF, nResp := 8, openBusyBudget := 4, closeBusyBudget := 4, closeRetries := 2, sbtBase := 0x40000000,
    admitted := [⟨0x0000, 0xFFFF⟩] }

/-- The reset machine with those parameters and a card script. -/
def start (script : List Byte) : State := { State.reset with params := params, cardScript := script }

/-- The state a request leads to. -/
def after (i : Instr) (s : State) : State :=
  match exec i s with
  | .next t => t
  | .fault _ => s
  | .refused _ => s

/-- The state a step leads to. -/
def stepped (s : State) : State :=
  match step s with
  | .next t => t
  | .fault _ => s
  | .refused _ => s

/-- The inbound byte n times. -/
def times (n : Nat) (b : Byte) : List Byte := List.replicate n b

/-- The exchanges as the vectors write them. -/
def wire (s : State) : List (Bool × Byte × Byte) := s.history.map fun e => (e.cs, e.out, e.inp)

/-! ### The WellFormed smoke: one ill-formed term for each check (30_encoding.md R94) -/

theorem test_wf_reserved : ({ op := 0x00, dir := false, fill := false, imm8 := 0, reserved := 1 } : Fields).wf = false := by decide
theorem test_wf_op : ({ op := 0x07, dir := false, fill := false, imm8 := 0, reserved := 0 } : Fields).wf = false := by decide
theorem test_wf_op_gap : ({ op := 0x14, dir := false, fill := false, imm8 := 0, reserved := 0 } : Fields).wf = false := by decide
theorem test_wf_op_top : ({ op := 0x25, dir := false, fill := false, imm8 := 0, reserved := 0 } : Fields).wf = false := by decide
theorem test_wf_dir : ({ op := 0x01, dir := true, fill := false, imm8 := 0, reserved := 0 } : Fields).wf = false := by decide
theorem test_wf_fill : ({ op := 0x11, dir := false, fill := true, imm8 := 0, reserved := 0 } : Fields).wf = false := by decide
theorem test_wf_fill_rx : ({ op := 0x10, dir := true, fill := true, imm8 := 0, reserved := 0 } : Fields).wf = false := by decide
theorem test_wf_imm : ({ op := 0x04, dir := false, fill := false, imm8 := 1, reserved := 0 } : Fields).wf = false := by decide
theorem test_wf_instr : (Instr.writeByte 0xA5).wf = true := by decide

/-! ### Decoding words written out bit by bit: reserved 16 bits, IMM8, FILL, DIR, OP (30_encoding.md R91, R92) -/

theorem test_decode_nop : decode 0b0000000000000000_00000000_0_0_000000#32 = .ok .nop := by decide
theorem test_decode_select : decode 0b0000000000000000_00000000_0_0_000001#32 = .ok .select := by decide
theorem test_decode_deselect : decode 0b0000000000000000_00000000_0_0_000010#32 = .ok .deselect := by decide
theorem test_decode_writeByte : decode 0b0000000000000000_10100101_0_0_000011#32 = .ok (.writeByte 0xA5) := by decide
theorem test_decode_readByte : decode 0b0000000000000000_00000000_0_0_000100#32 = .ok .readByte := by decide
theorem test_decode_sendCommand : decode 0b0000000000000000_01010001_0_0_000101#32 = .ok (.sendCommand 0x51) := by decide
theorem test_decode_waitNotBusy : decode 0b0000000000000000_00000000_0_0_000110#32 = .ok .waitNotBusy := by decide
theorem test_decode_dmaConfigure : decode 0b0000000000000000_00000000_0_1_010000#32 = .ok (.dmaConfigure .rx) := by decide
theorem test_decode_dmaConfigureFill : decode 0b0000000000000000_00000000_1_0_010000#32 = .ok .dmaConfigureFill := by decide
theorem test_decode_dmaEnable : decode 0b0000000000000000_00000000_0_0_010001#32 = .ok (.dmaEnable .tx) := by decide
theorem test_decode_dmaIsComplete : decode 0b0000000000000000_00000000_0_1_010010#32 = .ok (.dmaIsComplete .rx) := by decide
theorem test_decode_dmaDisable : decode 0b0000000000000000_00000000_0_0_010011#32 = .ok (.dmaDisable .tx) := by decide
theorem test_decode_openWrite : decode 0b0000000000000000_00000000_0_0_100000#32 = .ok .openWrite := by decide
theorem test_decode_transfer : decode 0b0000000000000000_00000000_0_0_100001#32 = .ok .transfer := by decide
theorem test_decode_closeWrite : decode 0b0000000000000000_00000000_0_0_100010#32 = .ok .closeWrite := by decide
theorem test_decode_openRead : decode 0b0000000000000000_00000000_0_0_100011#32 = .ok .openRead := by decide
theorem test_decode_closeRead : decode 0b0000000000000000_00000000_0_0_100100#32 = .ok .closeRead := by decide
theorem test_decode_rejects_dir : decode 0x00000041 = .error .strayDir := by decide
theorem test_decode_rejects_reserved : decode 0x80000020 = .error .reservedBits := by decide
theorem test_encode : encode (.writeByte 0xA5) = 0x0000A503 ∧ encode (.dmaConfigure .rx) = 0x00000050 ∧
    encode .dmaConfigureFill = 0x00000090 ∧ encode .closeRead = 0x00000024 := by decide
theorem test_decodeTableWord : decodeTableWord 32 0x5105 = some (.sendCommand 0x51) ∧ decodeTableWord 32 0x07 = none := by decide

/-! ### The block transport (95_test_vectors.md section 2.2) -/

theorem test_nop : resultWord (after .nop (start [])) = 0 ∧ statusWord (after .nop (start [])) = 0 := by decide
theorem test_select : statusWord (after .select (after .select (start []))) = 0x00000002 := by decide
theorem test_deselect : statusWord (after .deselect { start [] with cs := true }) = 0 := by decide
theorem test_writeByte : wire (after (.writeByte 0xA5) (start [0x3C])) = [(false, 0xA5, 0x3C)] ∧
    resultWord (after (.writeByte 0xA5) (start [0x3C])) = 0 := by decide
theorem test_readByte : wire (after .readByte { start [0x5A] with cs := true }) = [(true, 0xFF, 0x5A)] ∧
    resultWord (after .readByte { start [0x5A] with cs := true }) = 0x5A := by decide

/-- T8: the frame and the first response byte that is not IDLE_BYTE. -/
theorem test_sendCommand : wire (after (.sendCommand 0x40) (start (times 6 0xFF ++ [0x01]))) =
      [(true, 0x40, 0xFF), (true, 0, 0xFF), (true, 0, 0xFF), (true, 0, 0xFF), (true, 0, 0xFF), (true, 0xFF, 0xFF), (true, 0xFF, 0x01)] ∧
    resultWord (after (.sendCommand 0x40) (start (times 6 0xFF ++ [0x01]))) = 0x01 := by decide

/-- T9: no response within N_RESP exchanges. -/
theorem test_sendCommand_idle :
    resultWord (after (.sendCommand 0x51) { start (times 14 0xFF) with arg0 := 0x600 }) = 0xFF := by decide

/-- T11 and T10. -/
theorem test_waitNotBusy : resultWord (after .waitNotBusy { start [0x00, 0x00, 0xFF] with arg0 := 4 }) = 1 ∧
    (after .waitNotBusy { start [0x00, 0x00, 0xFF] with arg0 := 4 }).history.length = 3 := by decide
theorem test_waitNotBusy_zero : resultWord (after .waitNotBusy { start [] with cs := true }) = 0 ∧
    statusWord (after .waitNotBusy { start [] with cs := true }) = 0 := by decide

/-- T14: the session owns the bus. -/
theorem test_select_phase : (after .select { start [] with phase := .opened }).fcode = .phaseError ∧
    (after .select { start [] with phase := .opened }).faultCmd = 0x00000001 := by decide

/-! ### The DMA channels (95_test_vectors.md section 2.3) -/

/-- D1. -/
def configured : State := after (.dmaConfigure .tx) { start [] with arg0 := 0x2000, arg1 := 512 }

theorem test_dmaConfigure : configured.tx.ptr = 0x2000 ∧ configured.tx.countWord = 0x02000200 ∧ statusWord configured = 0x000C0000 := by
  decide

/-- D3. -/
theorem test_dmaConfigure_range : (after (.dmaConfigure .tx) { start [] with arg1 := 0x10000 }).fcode = .operandRange := by decide

/-- D12 up to its first DMA step. -/
def filling : State :=
  after (.dmaEnable .tx) (after .dmaConfigureFill { start [0x11, 0x22, 0x33] with cs := true, arg0 := 0x77, arg1 := 3 })

theorem test_dmaConfigureFill : filling.tx.ptr = 0 ∧ filling.txFill = true ∧ filling.tx.rem = 3 := by decide
theorem test_dma_fill_step : (dmaStep? filling).map wire = some [(true, 0xFF, 0x11)] ∧
    (dmaStep? filling).map (fun t => t.tx.rem) = some 2 := by decide

/-- D6: COUNT = 0. -/
theorem test_dmaEnable_empty : statusWord (after (.dmaEnable .tx) (after (.dmaConfigure .tx) { start [] with arg0 := 0x2000 })) =
    0x000B0000 := by decide

/-- D5. -/
theorem test_dmaEnable_unloaded : (after (.dmaEnable .rx) (start [])).fcode = .notConfigured ∧
    (after (.dmaEnable .rx) (start [])).faultCmd = 0x00000051 := by decide

/-- D9. -/
theorem test_dmaIsComplete : resultWord (after (.dmaIsComplete .rx) (start [])) = 0 := by decide

/-- D15, with three bytes. -/
theorem test_dmaDisable : (after (.dmaDisable .tx) filling).tx = { filling.tx with en := false } ∧
    (after (.dmaDisable .tx) filling).tx.rem = 3 := by decide

/-- D14, its first step: the byte goes out before the answer is stored. -/
theorem test_dma_store :
    let s : State := { start [0x5B] with
      cs := true, mem := [(0x100, 0xAA)]
      tx := ⟨0x100, 2, 2, true, false, false, true⟩, rx := ⟨0x101, 2, 2, true, false, false, true⟩ }
    (dmaStep? s).map wire = some [(true, 0xAA, 0x5B)] ∧ (dmaStep? s).map (fun t => t.mem) = some [(0x100, 0xAA), (0x101, 0x5B)] := by
  decide

/-! ### The sector session (95_test_vectors.md section 2.4) -/

/-- S8: CardBusyTimeout. -/
theorem test_openWrite_busy : let t := after .openWrite { start (times 4 0x00) with arg0 := 3 }
    resultWord t = 0x00000100 ∧ t.phase = .failed ∧ t.cs = false ∧ wire t = List.replicate 4 (true, 0xFF, 0x00) := by decide

/-- S1: the sector index is out of range. -/
theorem test_openWrite_range : (after .openWrite { start [] with arg0 := 0x00800000 }).fcode = .operandRange := by decide

/-- S10: CommandRejected, the channels stay loaded. -/
theorem test_openRead_rejected : let t := after .openRead { start (times 7 0xFF ++ [0x05]) with arg0 := 3, arg1 := 0x3000 }
    resultWord t = 0x00000205 ∧ t.phase = .failed ∧ t.rx.ptr = 0x3000 ∧ t.txFill = true := by decide

/-- A read session whose buffer is at 0x3000, ready for its TRANSFER. -/
def reading : State :=
  { start [] with phase := .opened, sdir := .read, cs := true, arg0 := 0x3000, txFill := true
                  rx := ⟨0x3000, 512, 512, false, false, true, true⟩, tx := ⟨0, 512, 512, false, false, true, true⟩ }

/-- S6: TRANSFER names another buffer. -/
theorem test_transfer_mismatch : (after .transfer { reading with arg0 := 0x3100 }).fcode = .bufferMismatch ∧
    (after .transfer { reading with arg0 := 0x3100 }).faultCmd = 0x00000021 := by decide

/-- A write session whose buffer starts at the last admitted byte. -/
def writing : State := { start [0x00] with phase := .opened, cs := true, arg0 := 0xFFFF, mem := [(0xFFFF, 0xC3)] }

/-- The one admitted byte is sent, and TRANSFER then holds (R183). -/
theorem test_transfer_holds : let t := after .transfer writing
    wire t = [(true, 0xC3, 0x00)] ∧ t.busy = true ∧ t.phase = .transferring ∧ t.tx.rem = 511 := by decide

/-- A write session whose payload has been sent. -/
def sent (script : List Byte) : State := { start script with phase := .transferring, cs := true }

/-- S11: an accepted token. -/
theorem test_closeWrite : let t := after .closeWrite (sent [0xFF, 0xFF, 0x05, 0xFF, 0xFF, 0xFF])
    resultWord t = 0x00000005 ∧ t.phase = .closed ∧ t.dataAccepted = true ∧ t.history.length = 6 := by decide

/-- S12: a rejected token. -/
theorem test_closeWrite_rejected : let t := after .closeWrite (sent [0xFF, 0xFF, 0xEB, 0xFF, 0xFF])
    resultWord t = 0x000003EB ∧ t.phase = .failed ∧ t.dataAccepted = false ∧ t.cs = false ∧ t.history.length = 5 := by decide

/-- CLOSE_READ: two bytes, discarded (R188); and S5, in a write session. -/
theorem test_closeRead : let t := after .closeRead { sent [0x12, 0x34] with sdir := .read }
    wire t = [(true, 0xFF, 0x12), (true, 0xFF, 0x34)] ∧ resultWord t = 0 ∧ t.phase = .closed ∧ t.cs = false := by decide
theorem test_closeRead_write : (after .closeRead (sent [])).fcode = .phaseError := by decide

/-! ### Faults, the window and requests -/

/-- F2: RequestWhileBusy before IllegalRequest. -/
theorem test_fault_order : (stepped { start [] with busy := true, agenda := [.request 0x00010000] }).fcode = .requestWhileBusy := by
  decide

/-- F3: PhaseError before OperandRange. -/
theorem test_fault_phase_first : (after (.dmaConfigure .tx) { start [] with phase := .opened, arg1 := 0x10000 }).fcode = .phaseError := by
  decide

/-- A window read of STATUS, and one outside the window. -/
theorem test_window : (stepped { start [] with cs := true, agenda := [.atomic (.windowRead 32 0x40000010)] }).hostData = 2 ∧
    windowOffset params 32 0x40000100 = none ∧ windowOffset params 16 0x40000010 = none ∧
    windowOffset params 32 0x400000FC = some 0xFC := by decide

/-- Textual requests (30_encoding.md R104). -/
theorem test_parse : parseRequest ['S', 'E', 'N', 'D', '_', 'C', 'O', 'M', 'M', 'A', 'N', 'D', ' ', '0', 'x', '5', '1', ',', ' ', '1', '6'] =
      some ⟨.sendCommand 0x51, some 16, none⟩ ∧
    parseRequest ['D', 'M', 'A', '_', 'E', 'N', 'A', 'B', 'L', 'E', ' ', 'R', 'X'] = some ⟨.dmaEnable .rx, none, none⟩ ∧
    parseRequest ['S', 'E', 'L', 'E', 'C', 'T', ' ', '1'] = none := by decide

/-- The expansion of 30_encoding.md R105's own example: `OPEN_READ 3, 0x3000`. -/
theorem test_expansion : (⟨.openRead, some 3, some 0x3000⟩ : Request).moves params =
    [.atomic (.windowWrite 32 0x40000004 0x00000003), .atomic (.windowWrite 32 0x40000008 0x00003000),
     .atomic (.windowWrite 32 0x40000000 0x00000023), .poll] := by decide

/-! ### Witnesses: the hypotheses of each statement are met -/

/-- The window's CMD register. -/
def cmdWrite (w : Word) : Move := .atomic (.windowWrite 32 0x40000000 w)

theorem witness_EncodeInvertsDecode : decode 0x00005105 = .ok (.sendCommand 0x51) := by decide

theorem witness_DecodeAgreesWithTable : ("WRITE_BYTE", 0x00000003, 0xFFFF00FF) ∈ matchMaskTable ∧
    (0x0000FF03 : Word) &&& 0xFFFF00FF = 0x00000003 ∧ decode 0x0000FF03 = .ok (.writeByte 0xFF) := by decide

/-- Both sides of each bound of R94. -/
theorem witness_IllegalWordsAreListed :
    (decode 0x00000006 = .ok .waitNotBusy ∧ decode 0x00000007 = .error .reservedOp ∧ decode 0x0000000F = .error .reservedOp ∧
     decode 0x00000010 = .ok (.dmaConfigure .tx) ∧ decode 0x00000013 = .ok (.dmaDisable .tx) ∧ decode 0x00000014 = .error .reservedOp) ∧
    (decode 0x0000001F = .error .reservedOp ∧ decode 0x00000020 = .ok .openWrite ∧ decode 0x00000024 = .ok .closeRead ∧
     decode 0x00000025 = .error .reservedOp ∧ decode 0x0000003F = .error .reservedOp ∧ decode 0x00010000 = .error .reservedBits) ∧
    (decode 0x00000046 = .error .strayDir ∧ decode 0x000000D0 = .error .strayFill ∧ decode 0x00000104 = .error .strayImm8) := by decide

theorem witness_StepRunsDecodedRequest :
    ({ start [] with agenda := [.request 0x01, .request 0x02] } : State).agenda = .request 0x01 :: [.request 0x02] ∧
    decode 0x01 = .ok .select ∧
    (stepped ((start []).withFetchWord 32 0x01)).cs = true := by decide

/-- The agenda is the same; each branch of the conclusion is taken: faulted, busy, illegal, a failing check, accepted. -/
theorem witness_CmdWriteIssues :
    ({ start [] with agenda := [cmdWrite 0x01] } : State).agenda = [.atomic (.windowWrite 32 (start []).params.sbtBase 0x01)] ∧
    (stepped { start [] with agenda := [cmdWrite 0x01], faulted := true, fcode := .phaseError }).fcode = .phaseError ∧
    (stepped { start [] with agenda := [cmdWrite 0x01], busy := true }).fcode = .requestWhileBusy ∧
    (stepped { start [] with agenda := [cmdWrite 0x07] }).fcode = .illegalRequest ∧
    (stepped { start [] with agenda := [cmdWrite 0x01], phase := .opened }).fcode = .phaseError ∧
    (stepped { start [] with agenda := [cmdWrite 0x01] }).lop = some .select := by decide

/-- Every cause of the fault table can be the first, and none can hold. -/
theorem witness_RequestFaultsInOrder :
    (start []).faulted = false ∧
    faultOf .nop { start [] with busy := true } = some .requestWhileBusy ∧
    faultOf .closeRead (start []) = some .phaseError ∧
    faultOf .openRead { start [] with arg0 := 0x00800000 } = some .operandRange ∧
    faultOf .dmaConfigureFill filling = some .reloadWhileEnabled ∧
    faultOf (.dmaEnable .tx) filling = some .enableWhileEnabled ∧
    faultOf (.dmaEnable .rx) filling = some .notConfigured ∧
    faultOf .readByte filling = some .busConflict ∧
    faultOf .transfer { reading with arg0 := 0x3100 } = some .bufferMismatch ∧
    faultOf .openWrite { start [] with arg0 := 0x007FFFFF } = none ∧
    decode 0x00010000 = .error .reservedBits := by decide

/-- A machine that has faulted. -/
def faulted : State := after .closeRead (start [])

theorem witness_FaultedIgnoresRequests : faulted.faulted = true ∧
    ({ faulted with agenda := [.request 0x01] } : State).agenda = .request 0x01 :: [] ∧
    ({ faulted with agenda := [.atomic (.windowWrite 32 0x40000004 7)] } : State).agenda =
      .atomic (.windowWrite 32 (faulted.params.sbtBase + 0x04) 7) :: [] ∧
    ({ faulted with agenda := [.atomic (.windowWrite 32 0x40000008 7)] } : State).agenda =
      .atomic (.windowWrite 32 (faulted.params.sbtBase + 0x08) 7) :: [] := by decide

/-- For NOP to WAIT_NOT_BUSY (NopSelectDeselectComplete, WriteByteCompletes, ReadByteCompletes, SendCommandCompletes, WaitNotBusyCompletes);
NOP also while DMA runs. -/
theorem witness_Transport : (start []).quiet ∧ filling.accepts ∧ dmaOwnsBus filling = true := by decide

theorem witness_CardAnswersExchange : (start [0x3C, 0x55]).cardScript = 0x3C :: [0x55] ∧ (start []).cardScript = [] := by decide

/-- A path that completes, one that faults and one that is ignored. -/
theorem witness_TransportFrame :
    exec .select (start []) = .next (after .select (start [])) ∧ isTransport .select = true ∧
    exec .readByte filling = .next (after .readByte filling) ∧ (after .readByte filling).fcode = .busConflict ∧
    exec .nop faulted = .next (after .nop faulted) := ⟨rfl, rfl, rfl, rfl, rfl⟩

theorem witness_DmaConfigureCompletes : (start []).accepts ∧ sessionOpen (start []) = false ∧
    ({ start [] with arg1 := 0xFFFF } : State).arg1.extractLsb' 16 16 = 0 ∧ (start []).tx.en = false ∧ (start []).rx.en = false := by decide

theorem witness_DmaEnableCompletes : configured.accepts ∧ sessionOpen configured = false ∧ configured.tx.en = false ∧
    configured.tx.cfg = true ∧ (after (.dmaConfigure .rx) configured).rx.en = false ∧
    (after (.dmaConfigure .rx) configured).rx.cfg = true := by decide

/-- DMA_IS_COMPLETE in an open session and while DMA runs; DMA_DISABLE of a running channel. -/
theorem witness_DmaIsCompleteCompletes : reading.accepts ∧ filling.accepts := by decide
theorem witness_DmaDisableCompletes : filling.accepts ∧ sessionOpen filling = false ∧ filling.tx.en = true := by decide

theorem witness_DmaFrame : exec (.dmaEnable .tx) configured = .next (after (.dmaEnable .tx) configured) ∧
    exec .dmaConfigureFill (start []) = .next (after .dmaConfigureFill (start [])) ∧
    exec (.dmaIsComplete .rx) faulted = .next (after (.dmaIsComplete .rx) faulted) := ⟨rfl, rfl, rfl⟩

/-- A step with capture, one without, and one that is not enabled because its byte is not admitted. -/
theorem witness_DmaStepMovesOneByte :
    let both : State := { start [0x5B] with
      tx := ⟨0xFFFF, 1, 1, true, false, false, true⟩, rx := ⟨0xFFFF, 1, 1, true, false, false, true⟩ }
    (both.faulted = false ∧ both.tx.en = true ∧ both.tx.rem ≠ 0 ∧ admits both.params (both.tx.ptr + (both.tx.count - both.tx.rem).setWidth 32) = true ∧
      both.rx.en = true ∧ both.rx.rem ≠ 0 ∧ admits both.params (both.rx.ptr + (both.rx.count - both.rx.rem).setWidth 32) = true) ∧
    (filling.txFill = true ∧ filling.tx.en = true ∧ filling.tx.rem ≠ 0 ∧ filling.rx.en = false) ∧
    admits params 0x10000 = false := by decide

/-- The run of one byte, and of two at the end of memory. -/
theorem witness_DmaRunSendsInOrder :
    let s : State := { start [] with
      tx := ⟨0xFFFE, 2, 2, true, false, false, true⟩, agenda := List.replicate 2 (.atomic .dma) }
    s.faulted = false ∧ s.tx.en = true ∧ s.tx.rem = s.tx.count ∧ s.tx.count ≠ 0 ∧ s.txFill = false ∧ s.rx.en = false ∧
    (∀ j < s.tx.count.toNat, admits s.params (s.tx.ptr + BitVec.ofNat 32 j) = true) ∧
    s.agenda = List.replicate s.tx.count.toNat (.atomic .dma) := by decide

/-- Two turns from the middle of TX's run to the end of RX's, over buffers that overlap so that TX's second byte is RX's first. -/
theorem witness_DmaRunStoresInOrder :
    let s : State := { start [0x5A, 0x5B] with
      tx := ⟨0xFFF0, 5, 3, true, false, false, true⟩, rx := ⟨0xFFF3, 2, 2, true, false, false, true⟩,
      agenda := List.replicate 2 (.atomic .dma) }
    let ta : Nat → Word := fun j => s.tx.ptr + (s.tx.count - s.tx.rem).setWidth 32 + BitVec.ofNat 32 j
    let ra : Nat → Word := fun j => s.rx.ptr + (s.rx.count - s.rx.rem).setWidth 32 + BitVec.ofNat 32 j
    (s.faulted = false ∧ s.tx.en = true ∧ s.rx.en = true ∧ s.tx.rem ≤ s.tx.count ∧ s.rx.rem ≤ s.rx.count ∧
      2 ≤ s.tx.rem.toNat ∧ 2 ≤ s.rx.rem.toNat ∧ s.mem.wf = true) ∧
    (s.txFill = false ∧ ∀ j < 2, admits s.params (ta j) = true) ∧ (∀ j < 2, admits s.params (ra j) = true) ∧ ta 1 = ra 0 ∧ ta 0 ≠ ra 0 := by
  decide

/-- For OpenWriteCompletes and OpenReadCompletes, at the largest sector index. -/
theorem witness_Open : ({ start [] with arg0 := 0x007FFFFF } : State).mayOpen := by decide

theorem witness_OpenWriteBusyTimeoutSendsNothing :
    let s := start (times 4 0x00)
    s.mayOpen ∧ exec .openWrite s = .next (after .openWrite s) ∧ (after .openWrite s).resultCode = .cardBusyTimeout ∧
    s.params.startToken ≠ 0xFF := ⟨by decide, rfl, by decide, by decide⟩

/-- As many busy polls and as many idle polls as the budgets allow; and none of either. -/
theorem witness_OpenSucceedsWhenCardAccepts :
    let s := start ([0x00, 0x00, 0x00] ++ [0xFF] ++ [1, 2, 3, 4, 5, 6] ++ times 7 0xFF ++ [0x00] ++ [])
    (s.mayOpen ∧ ([0x00, 0x00, 0x00] : List Byte).length < s.params.openBusyBudget.toNat ∧
      (∀ x ∈ ([0x00, 0x00, 0x00] : List Byte), x ≠ s.params.readyByte) ∧ (times 7 0xFF).length < s.params.nResp.toNat ∧
      (∀ x ∈ times 7 0xFF, x = s.params.idleByte) ∧ s.params.idleByte ≠ 0) ∧
    (start [0xFF, 1, 2, 3, 4, 5, 6, 0x00]).cardScript =
      [] ++ [s.params.readyByte] ++ [1, 2, 3, 4, 5, 6] ++ [] ++ [0x00] ++ [] := by decide

/-- A buffer of 512 bytes that ends with the last admitted byte is admitted. -/
theorem admitted_to_the_end : ∀ j < 512, admits params (0xFE00 + BitVec.ofNat 32 j) = true := by
  intro j hj
  simp only [admits, params, List.any_cons, List.any_nil, Bool.or_false, Bool.and_eq_true, decide_eq_true_eq, BitVec.le_def,
    BitVec.toNat_add, BitVec.toNat_ofNat, BitVec.ofNat_eq_ofNat]
  omega

/-- A write session whose buffer ends with the last admitted byte. -/
def writingAll : State := { writing with arg0 := 0xFE00 }

theorem witness_TransferSendsBuffer : (writingAll.accepts ∧ writingAll.phase = .opened ∧ writingAll.sdir = .write ∧ writingAll.rx.en = false) ∧
    ∀ j < 512, admits writingAll.params (writingAll.arg0 + BitVec.ofNat 32 j) = true := ⟨by decide, admitted_to_the_end⟩

/-- A read session whose buffer ends with the last admitted byte. -/
def readingAll : State := { reading with arg0 := 0xFE00, rx := { reading.rx with ptr := 0xFE00 } }

theorem witness_TransferReceivesBuffer : (readingAll.accepts ∧ readingAll.phase = .opened ∧ readingAll.sdir = .read ∧
      readingAll.arg0 = readingAll.rx.ptr ∧ readingAll.rx.count = 512 ∧ readingAll.tx.count = 512 ∧ readingAll.txFill = true ∧
      readingAll.mem.wf = true) ∧
    ∀ j < 512, admits readingAll.params (readingAll.rx.ptr + BitVec.ofNat 32 j) = true := ⟨by decide, admitted_to_the_end⟩

/-- The first byte not admitted is byte 0, or byte 511, of a write session's buffer and of a read session's. -/
theorem witness_TransferHoldsOnUnbackedBuffer :
    (({ writing with arg0 := 0x10000 } : State).accepts ∧ writing.phase = .opened ∧ writing.sdir = .write ∧ writing.rx.en = false) ∧
    (readingAll.accepts ∧ readingAll.phase = .opened ∧ readingAll.sdir = .read ∧ readingAll.rx.count = 512 ∧ readingAll.tx.count = 512 ∧
      readingAll.txFill = true ∧ readingAll.mem.wf = true) ∧ admits params (0x10000 + BitVec.ofNat 32 0) = false ∧
    (∀ j < 511, admits params (0xFE01 + BitVec.ofNat 32 j) = true) ∧ admits params (0xFE01 + BitVec.ofNat 32 511) = false := by
  refine ⟨by decide, by decide, by decide, fun j hj => ?_, by decide⟩
  have := admitted_to_the_end (j + 1) (by omega)
  have he : (0xFE01 : Word) + BitVec.ofNat 32 j = 0xFE00 + BitVec.ofNat 32 (j + 1) := by
    apply BitVec.eq_of_toNat_eq
    simp only [BitVec.toNat_add, BitVec.toNat_ofNat, BitVec.ofNat_eq_ofNat]
    omega
  rw [he]; exact this

/-- For CloseWriteCompletes (both outcomes of the token are in `test_closeWrite` and `test_closeWrite_rejected`) and CloseReadCompletes. -/
theorem witness_CloseWriteCompletes : (sent []).accepts ∧ (sent []).phase = .transferring ∧ (sent []).sdir = .write ∧
    (0xE5 : Byte) &&& 0x0F = (sent []).params.drAccept.setWidth 8 ∧ (0xEB : Byte) &&& 0x0F ≠ (sent []).params.drAccept.setWidth 8 := by
  decide
theorem witness_CloseReadCompletes : ({ sent [] with sdir := .read } : State).accepts ∧ (sent []).phase = .transferring := by decide

theorem witness_SessionFrame : exec .openWrite (start (times 4 0x00)) = .next (after .openWrite (start (times 4 0x00))) ∧
    exec .transfer writing = .next (after .transfer writing) ∧ writing.sdir = .write ∧ writing.rx.running = false ∧
    exec .closeRead (sent []) = .next (after .closeRead (sent [])) :=
  ⟨rfl, rfl, rfl, rfl, rfl⟩

/-- In a write session RX does not run; in a read session, an address below the buffer is outside RX's bytes. -/
theorem witness_TransferStoresReceivedBytesOnly :
    exec .transfer writing = .next (after .transfer writing) ∧ writing.rx.running = false ∧
    readingAll.sdir = .read ∧
    (∀ n : BitVec 16, n ≠ 0 → n ≤ 512 → 0x2FFF ≠ (({ readingAll.rx with en := true, rem := n } : Channel).address).toNat) := by
  refine ⟨rfl, by decide, rfl, fun n _ h1 => ?_⟩
  have h1 : n.toNat ≤ 512 := h1
  have ha : (({ readingAll.rx with en := true, rem := n } : Channel).address) = 0xFE00 + ((512 : BitVec 16) - n).setWidth 32 := rfl
  rw [ha]
  simp only [BitVec.toNat_add, BitVec.toNat_setWidth, BitVec.toNat_sub, BitVec.toNat_ofNat, BitVec.ofNat_eq_ofNat]
  omega

/-- Each row of the phase machine: in its phase and in another; and an operation of no session. -/
theorem witness_PhaseTransitions :
    (start []).accepts ∧ exec .openWrite (start (times 4 0x00)) = .next (after .openWrite (start (times 4 0x00))) ∧
    (start (times 4 0x00)).phase = .idle ∧ (after .openWrite (start (times 4 0x00))).faulted = false ∧
    exec .openRead reading = .next (after .openRead reading) ∧ sessionOpen reading = true ∧
    exec .transfer { reading with rx := { reading.rx with count := 0 } } =
      .next (after .transfer { reading with rx := { reading.rx with count := 0 } }) ∧
    (after .transfer { reading with rx := { reading.rx with count := 0 } }).busy = false ∧
    exec .transfer (start []) = .next (after .transfer (start [])) ∧
    exec .closeWrite (start []) = .next (after .closeWrite (start [])) ∧
    exec .closeRead (start []) = .next (after .closeRead (start [])) ∧ exec .nop reading = .next (after .nop reading) :=
  ⟨by decide, rfl, rfl, by decide, rfl, by decide, rfl, by decide, rfl, rfl, rfl, rfl⟩

/-- A write TRANSFER of an admitted buffer adds its 512 bytes to the history. -/
theorem transferWrite_history (s : State) (hf : s.faulted = false) (hrx : s.rx.en = false) (hp : s.params = params)
    (ha : s.larg0 = 0xFE00) : ∃ h, h.length = 512 ∧ (transferWrite s).history = s.history ++ h := by
  have hs : SendStart (uEnable .tx (uLoad .tx s.larg0 sectorSize false { s with phase := .transferring })) :=
    ⟨hf, rfl, rfl, rfl, by simp [Channel.running, uEnable, uLoad, State.setChan, hrx], rfl⟩
  obtain ⟨h, h1, h2, -⟩ := hs.await (show sectorSize ≠ 0 by decide)
    (show ∀ j < 512, admits s.params (s.larg0 + BitVec.ofNat 32 j) = true by rw [hp, ha]; exact admitted_to_the_end)
  refine ⟨h, by rw [← wireOut_length, h2, List.length_map, List.length_range]; rfl, ?_⟩
  unfold transferWrite
  dsimp only
  rw [h1]; rfl

/-- A write TRANSFER, and a read TRANSFER whose card answers with what was sent. -/
theorem witness_RoundTripReturnsWrittenBytes :
    ∃ t u v : State, exec .transfer writingAll = .next t ∧ u = { readingAll with cardScript := u.cardScript } ∧
      u.cardScript.take 512 = (t.history.drop writingAll.history.length).map Exchange.out ∧ exec .transfer u = .next v := by
  obtain ⟨h, h1, h2⟩ := transferWrite_history (latch .transfer (.body 0) writingAll) rfl rfl rfl rfl
  have h2 : (wholeRun .transfer (latch .transfer (firstStatement .transfer writingAll) writingAll)).history = h := h2
  refine ⟨_, { readingAll with cardScript := h.map Exchange.out }, _, exec_accepted (by decide) (by decide), rfl, ?_, exec_eq _ _⟩
  rw [h2]
  exact List.take_of_length_le (by simp [h1])

/-- The offsets at both ends of the window, and each side of the last register. -/
theorem witness_WindowReadsRegisters :
    (0x00 % 4 = 0 ∧ 0xFC % 4 = 0 ∧ 0xFC < 0x100) ∧
    (stepped { start [] with arg0 := 7, agenda := [.atomic (.windowRead 32 (params.sbtBase + BitVec.ofNat 32 0x04))] }).hostData = 7 ∧
    (stepped { start [] with sector := 9, agenda := [.atomic (.windowRead 32 (params.sbtBase + BitVec.ofNat 32 0x2C))] }).hostData = 9 ∧
    (stepped { start [] with hostData := 5, agenda := [.atomic (.windowRead 32 (params.sbtBase + BitVec.ofNat 32 0x30))] }).hostData = 0 := by
  decide

/-- The numbers the host reads, each over the other bits of its word: PHASE and SDIR in STATUS (10_state.md R32, R33), RESULT.CODE above
DATA (60_exceptions.md R221), FCODE (R222). -/
theorem test_codes_the_host_reads :
    let read (off : Nat) (s : State) : Word :=
      (stepped { s with agenda := [.atomic (.windowRead 32 (params.sbtBase + BitVec.ofNat 32 off))] }).hostData
    ([Phase.idle, .opened, .transferring, .closing, .closed, .failed].map fun p => read 0x10 { start [] with phase := p }) =
      [0x00, 0x10, 0x20, 0x30, 0x40, 0x50] ∧
    ([SDir.write, .read].map fun d => read 0x10 { start [] with cs := true, phase := .failed, sdir := d }) = [0x52, 0xD2] ∧
    ([ResultCode.ok, .cardBusyTimeout, .commandRejected, .writeRejected].map
      fun c => read 0x0C { start [] with resultCode := c, resultData := 0xE5 }) = [0x0E5, 0x1E5, 0x2E5, 0x3E5] ∧
    ([FaultCode.none, .illegalRequest, .requestWhileBusy, .phaseError, .operandRange, .reloadWhileEnabled, .enableWhileEnabled,
      .notConfigured, .busConflict, .bufferMismatch].map fun c => read 0x14 { start [] with fcode := c }) =
      [0, 1, 2, 3, 4, 5, 6, 7, 8, 9] := by decide

theorem witness_WindowWrites :
    (stepped { start [] with agenda := [.atomic (.windowWrite 32 (params.sbtBase + BitVec.ofNat 32 0x04) 7)] }).arg0 = 7 ∧
    (stepped { start [] with agenda := [.atomic (.windowWrite 32 (params.sbtBase + BitVec.ofNat 32 0x08) 7)] }).arg1 = 7 ∧
    stepped { start [] with agenda := [.atomic (.windowWrite 32 (params.sbtBase + BitVec.ofNat 32 0xFC) 7)] } = start [] := by decide

/-- Each reason: the width, the alignment, the end of the window, a second agent. -/
theorem witness_OtherWindowAccessRefused : (16 ≠ 32) ∧ (0x40000002 - (start []).params.sbtBase).toNat % 4 ≠ 0 ∧
    0x100 ≤ (0x40000100 - (start []).params.sbtBase).toNat ∧
    ({ start [] with agenda := [.atomic (.windowRead 16 0x40000000)] } : State).agenda = .atomic (.windowRead 16 0x40000000) :: [] ∧
    ({ start [] with agenda := [.atomic .otherAgent] } : State).agenda = .atomic .otherAgent :: [] := by decide

theorem witness_HostMemoryAccesses : (start []).mem.wf = true ∧ admits (start []).params 0xFFFF = true ∧
    admits (start []).params 0x10000 = false ∧
    (stepped { start [] with mem := [(0xFFFF, 0x12)], agenda := [.atomic (.memoryLoad 0xFFFF)] }).hostData = 0x12 ∧
    (stepped { start [] with agenda := [.atomic (.memoryStore 0xFFFF 0x34)] }).mem = [(0xFFFF, 0x34)] := by decide

/-- POLL of an idle SBT; of a busy one, with another agent's turn next, with a host move next, and with nothing next; a request that ends
with BUSY = 0, and one that holds. -/
theorem witness_ExpansionRunsOperation :
    let s : State := { latch .select (.body 0) (start []) with agenda := [.poll, .atomic .sequencer, .atomic (.memoryLoad 0)] }
    ((start []).busy = false ∧ (stepped { start [] with cs := true, agenda := [.poll] }).hostData = 2) ∧
    (s.busy = true ∧ Atomic.byHost .sequencer = false ∧ (stepped s).agenda = [.atomic .sequencer, .poll, .atomic (.memoryLoad 0)]) ∧
    (stepped { s with agenda := [.poll, .atomic (.memoryLoad 0)] }).agenda = [.atomic .own, .poll, .atomic (.memoryLoad 0)] ∧
    (stepped { s with agenda := [.poll] }).agenda = [.atomic .own, .poll] ∧
    (after .select (start [])).busy = false ∧ (after .transfer { writing with arg0 := 0x10000 }).busy = true := by decide

theorem witness_ResetMoveRestoresReset : ({ faulted with agenda := [.atomic .reset] } : State).agenda = .atomic .reset :: [] := by decide

theorem witness_OnlyResetClearsFault : faulted.faulted = true ∧ step faulted = .next (stepped faulted) ∧
    ∀ rest, faulted.agenda ≠ .atomic .reset :: rest := ⟨by decide, rfl, fun _ h => by cases h⟩

theorem witness_FaultedIsQuiescent : faulted.faulted = true ∧ faulted.agenda = [] ∧
    ({ faulted with agenda := [.atomic .dma] } : State).agenda = .atomic .dma :: [] ∧
    ({ faulted with agenda := [.atomic .sequencer] } : State).agenda = .atomic .sequencer :: [] ∧
    ({ faulted with agenda := [.atomic .own] } : State).agenda = .atomic .own :: [] := by decide

/-- A sequencer turn and a DMA turn, both while an operation runs. -/
theorem witness_RunningOperationIgnoresArgs :
    let s : State := latch (.sendCommand 0x51) (.cmd 0) (start [])
    ({ s with agenda := [.atomic .sequencer] } : State).agenda = .atomic .sequencer :: [] ∧
    ({ s with agenda := [.atomic .dma] } : State).agenda = .atomic .dma :: [] ∧
    ({ s with agenda := [.atomic .own] } : State).agenda = .atomic .own :: [] ∧
    (stepped { s with arg0 := 7, agenda := [.atomic .sequencer] }).cs = true := by decide

theorem witness_OnlyCmdWritesFault : step filling = .next (stepped filling) ∧ filling.agenda = [] ∧
    (∀ w rest, filling.agenda ≠ .request w :: rest) := ⟨rfl, by decide, fun _ _ h => by cases h⟩

theorem witness_HistoryOnlyGrows : step (start []) = .next (stepped (start [])) ∧ (stepped (start [])).history = (start []).history ∧
    (∀ a b rest, (start []).agenda ≠ .atomic (.memoryStore a b) :: rest) := ⟨rfl, by decide, fun _ _ _ h => by cases h⟩

theorem witness_RequestKeepsHostState : exec (.writeByte 0xA5) (start [0x3C]) = .next (after (.writeByte 0xA5) (start [0x3C])) := rfl

theorem witness_OperationsFinish : (start []).accepts ∧ Instr.openRead ≠ .transfer ∧ faultOf .openRead (start []) = none := by decide

theorem witness_RequestIsItsMicroSteps : (start []).agenda = [] := by decide

/-- A running DMA channel, whose step writes memory, in canonical memory. -/
theorem witness_StepKeepsMemoryCanonical :
    let s : State := { start [0x5B] with
      mem := [(0x100, 0xAA)], tx := ⟨0x100, 2, 2, true, false, false, true⟩, rx := ⟨0x101, 2, 2, true, false, false, true⟩ }
    s.mem.wf = true ∧ step s = .next (stepped s) := ⟨by decide, rfl⟩

/-- The faulted machine, and one that runs an operation. -/
theorem witness_StepKeepsControlInv : ControlInv faulted ∧ ControlInv (latch .select (.body 0) (start [])) ∧
    step faulted = .next (stepped faulted) :=
  ⟨⟨rfl, fun _ => ⟨rfl, by decide⟩, fun h => (by cases h), fun _ => .inr rfl⟩,
   ⟨rfl, fun h => (by cases h), fun _ => ⟨rfl, rfl⟩, fun h => by cases h⟩, rfl⟩

theorem witness_StepKeepsChannelInv : ChannelInv filling ∧ step filling = .next (stepped filling) :=
  ⟨⟨⟨by decide, by decide, by decide, by decide⟩, ⟨by decide, by decide, by decide, by decide⟩⟩, rfl⟩

/-- An open read session. -/
theorem witness_StepKeepsSessionInv : ControlInv reading ∧ SessionInv reading ∧ sessionOpen reading = true ∧
    step reading = .next (stepped reading) :=
  ⟨⟨rfl, fun h => (by cases h), fun _ => ⟨rfl, rfl⟩, fun _ => .inl rfl⟩,
   fun _ => ⟨by decide, fun _ => ⟨rfl, rfl, rfl, fun _ => ⟨rfl, rfl, rfl⟩⟩⟩, rfl, rfl⟩

end Sys2Proof.Tests
end

section
/-! SUPPORT. The proofs for spec/00_scope.md: what the card answers to an exchange (R9), and that every step keeps the parameters, only
extends the history, and changes memory only with an exchange or as a host store. -/

namespace Sys2Proof.Machine

/-! ### The card's answers (00_scope.md R9) -/

/-- Once the script is used up, the oracle answers. -/
theorem cardAnswer_unscripted {s : State} (b : Byte) (h : s.cardScript = []) :
    cardAnswer b s = Config.card s.history s.cs b := by
  unfold cardAnswer; rw [h]

/-- Settles O13, by the two cases of the script and by what one exchange appends. -/
theorem cardAnswersExchange : Obligations.CardAnswersExchange := by
  intro s b
  exact ⟨fun x xs h => cardAnswer_scripted b (by rw [h]; rfl), cardAnswer_unscripted b, rfl, afterExchange_eq b s⟩

/-! ### Steps that only extend the history (R7, R44) -/

/-- From `s` to `t` the parameters stay, the history only grows, and memory stays where no exchange was made. -/
structure GrowsFrom (s t : State) : Prop where
  params  : t.params = s.params
  history : s.history <+: t.history
  mem     : t.history = s.history → t.mem = s.mem

/-- An update that leaves the parameters, the history and memory alone. -/
theorem GrowsFrom.of_eq {s t : State} (hp : t.params = s.params) (hh : t.history = s.history) (hm : t.mem = s.mem) :
    GrowsFrom s t :=
  ⟨hp, hh ▸ List.prefix_refl _, fun _ => hm⟩

theorem GrowsFrom.refl (s : State) : GrowsFrom s s := .of_eq rfl rfl rfl

/-- A history that ends as it began was the same in between, so memory stayed on both ways. -/
theorem GrowsFrom.trans {s t u : State} (h : GrowsFrom s t) (g : GrowsFrom t u) : GrowsFrom s u where
  params := g.params.trans h.params
  history := h.history.trans g.history
  mem hu := by
    have ht : t.history = s.history :=
      h.history.eq_of_length_le (hu ▸ g.history.length_le) |>.symm
    exact (g.mem (hu.trans ht.symm)).trans (h.mem ht)

/-- A statement of the sequencer leaves memory, whatever it exchanges. -/
theorem sequencerStep_growsFrom {s t : State} (h : sequencerStep? s = some t) : GrowsFrom s t :=
  have ⟨outside, mem⟩ := sequencerStep_quiet h
  ⟨outside.params, outside.history, fun _ => mem⟩

/-- A DMA step, which may write memory, always makes an exchange. -/
theorem dmaMove_growsFrom (s : State) : GrowsFrom s (dmaMove s) where
  params := dmaMove_params s
  history := (dmaMove_outside s).history
  mem h := by simp at h

theorem ownStep_growsFrom (s : State) : GrowsFrom s (ownStep s) :=
  ownStep_keeps (P := GrowsFrom s) (fun _ _ h hseq => h.trans (sequencerStep_growsFrom hseq))
    (fun t h _ => h.trans (dmaMove_growsFrom t)) s (.refl s)

/-- A request is ignored, faults, or is latched and then runs by own steps. -/
theorem exec_growsFrom {i : Instr} {s t : State} (h : exec i s = .next t) : GrowsFrom s t := by
  rcases exec_next h with rfl | ⟨code, rfl, -⟩ | ⟨ha, -, rfl⟩
  · exact .refl _
  · exact .of_eq rfl rfl rfl
  · exact wholeRun_keeps (P := GrowsFrom s) (fun t ht => ht.trans (ownStep_growsFrom t)) i ha (.of_eq rfl rfl rfl)

theorem rejectWord_growsFrom (w : Word) (s : State) : GrowsFrom s (rejectWord w s) := by
  unfold rejectWord
  split
  · exact .refl s
  · split <;> exact .of_eq rfl rfl rfl

/-- The issue step alone: nothing, a fault, or the latch. -/
theorem issueWord_growsFrom (w : Word) (s : State) : GrowsFrom s (issueWord w s) := by
  unfold issueWord
  split
  · exact rejectWord_growsFrom w s
  · unfold issueThen
    split
    · exact .refl s
    · split
      · exact .of_eq rfl rfl rfl
      · split <;> exact .of_eq rfl rfl rfl

theorem windowStore_growsFrom (off : Nat) (v : Word) (s : State) : GrowsFrom s (windowStore off v s) := by
  unfold windowStore
  split
  · exact issueWord_growsFrom v s
  · exact .of_eq rfl rfl rfl
  · exact .of_eq rfl rfl rfl
  · exact .refl s

/-- Every atomic step but a host store: host reads change only what the host has read, and reset keeps history and memory (R260). -/
theorem atomicStep_growsFrom {a : Atomic} {s t : State} (ha : ∀ addr b, a ≠ .memoryStore addr b)
    (h : atomicStep a s = .next t) : GrowsFrom s t := by
  cases a with
  | windowWrite width addr v =>
    simp only [atomicStep] at h
    split at h <;> cases h
    exact windowStore_growsFrom _ v s
  | windowRead width addr =>
    simp only [atomicStep] at h
    split at h <;> cases h
    exact .of_eq rfl rfl rfl
  | memoryStore addr b => exact absurd rfl (ha addr b)
  | memoryLoad addr =>
    simp only [atomicStep] at h
    split at h <;> cases h
    exact .of_eq rfl rfl rfl
  | sequencer =>
    cases h
    cases hseq : sequencerStep? s with
    | none => exact .refl s
    | some u => exact sequencerStep_growsFrom hseq
  | dma =>
    cases h
    unfold dmaStep?
    split
    · exact dmaMove_growsFrom s
    · exact .refl s
  | own => cases h; exact ownStep_growsFrom s
  | reset => cases h; exact .of_eq rfl rfl rfl
  | otherAgent => cases h

/-- A host store that goes through writes its one byte. -/
theorem step_memoryStore {s t : State} {a : Word} {b : Byte} {rest : List Move}
    (ha : s.agenda = .atomic (.memoryStore a b) :: rest) (h : step s = .next t) :
    t = memWriteByte a b { s with agenda := rest } := by
  simp only [step, ha, atomicStep] at h
  split at h <;> cases h
  rfl

/-- Every step but a host store. -/
theorem step_growsFrom {s t : State} (hstore : ∀ a b rest, s.agenda ≠ .atomic (.memoryStore a b) :: rest)
    (h : step s = .next t) : GrowsFrom s t := by
  have htake : ∀ rest, GrowsFrom s { s with agenda := rest } := fun _ => .of_eq rfl rfl rfl
  unfold step at h
  split at h
  · cases h; exact ownStep_growsFrom s
  · split at h
    · exact (htake _).trans (exec_growsFrom h)
    · cases h; exact (htake _).trans (rejectWord_growsFrom _ _)
  · next a rest hag =>
    refine (htake rest).trans (atomicStep_growsFrom ?_ h)
    rintro addr b rfl
    exact hstore addr b rest hag
  · cases h; exact .of_eq rfl rfl rfl

/-- Settles O50: a host store leaves the history and the parameters, and every other step only extends what it finds. -/
theorem historyOnlyGrows : Obligations.HistoryOnlyGrows := by
  intro s t h
  by_cases hstore : ∃ a b rest, s.agenda = .atomic (.memoryStore a b) :: rest
  · obtain ⟨a, b, rest, ha⟩ := hstore
    rw [step_memoryStore ha h]
    exact ⟨rfl, List.prefix_refl _, fun _ hno => absurd ha (hno a b rest)⟩
  · have hno : ∀ a b rest, s.agenda ≠ .atomic (.memoryStore a b) :: rest :=
      fun a b rest ha => hstore ⟨a, b, rest, ha⟩
    have hgrows := step_growsFrom hno h
    exact ⟨hgrows.params, hgrows.history, fun hh _ => hgrows.mem hh⟩

end Sys2Proof.Machine
end

section
/-! SUPPORT. What one statement of the sequencer can do to BUSY, LOP, the phase and the channel records, said once for all operations. -/

namespace Sys2Proof.Machine

/-- The operations of the sector session (42_session.md R182 to R188): the only ones that change the phase. -/
def isSession : Instr → Bool
  | .openWrite | .transfer | .closeWrite | .openRead | .closeRead => true
  | .nop | .select | .deselect | .writeByte _ | .readByte | .sendCommand _ | .waitNotBusy | .dmaConfigure _ | .dmaConfigureFill
  | .dmaEnable _ | .dmaIsComplete _ | .dmaDisable _ => false

/-- What a statement can do to a channel record: nothing, or one of the micro-routines of 41_dma.md R160. -/
inductive ChannelUpdate (c : Channel) : Channel → Prop where
  | keep : ChannelUpdate c c
  | load (p : Word) (n : BitVec 16) :
      ChannelUpdate c { c with ptr := p, count := n, rem := n, done := false, loaded := true, cfg := true }
  | enable : ChannelUpdate c { c with en := true, rem := c.count, done := c.count == 0, loaded := false }
  | disable : ChannelUpdate c { c with en := false }

/-- What a statement of operation `i` can do: the operation goes on or finishes, the phase is kept unless `i` is of the session, and the
channel records are changed by the micro-routines only. -/
structure StatementEffect (i : Instr) (s t : State) : Prop where
  control : (t.busy = s.busy ∧ t.lop = s.lop) ∨ (t.busy = false ∧ t.lop = none ∧ t.pos = .idle)
  phase   : isSession i = false → t.phase = s.phase
  tx      : ChannelUpdate s.tx t.tx
  rx      : ChannelUpdate s.rx t.rx

/-- A statement that leaves the channel records alone. -/
theorem StatementEffect.of_channels_eq {i : Instr} {s t : State} (htx : t.tx = s.tx) (hrx : t.rx = s.rx)
    (hphase : isSession i = false → t.phase = s.phase)
    (hcontrol : (t.busy = s.busy ∧ t.lop = s.lop) ∨ (t.busy = false ∧ t.lop = none ∧ t.pos = .idle)) : StatementEffect i s t :=
  ⟨hcontrol, hphase, htx ▸ .keep, hrx ▸ .keep⟩

/-- Finishing leaves the phase and the channel records. -/
theorem finish_effect (i : Instr) (c : ResultCode) (d : Byte) (s : State) : StatementEffect i s (finish c d s) :=
  .of_channels_eq rfl rfl (fun _ => rfl) (.inr ⟨rfl, rfl, rfl⟩)

theorem uLoad_effect (i : Instr) (ch : Chan) (p : Word) (n : BitVec 16) (f : Bool) (q : Pos) (s : State) :
    StatementEffect i s (goto q (uLoad ch p n f s)) := by
  cases ch
  · exact ⟨.inl ⟨rfl, rfl⟩, fun _ => rfl, .load p n, .keep⟩
  · exact ⟨.inl ⟨rfl, rfl⟩, fun _ => rfl, .keep, .load p n⟩

theorem uEnable_effect (i : Instr) (ch : Chan) (q : Pos) (s : State) : StatementEffect i s (goto q (uEnable ch s)) := by
  cases ch
  · exact ⟨.inl ⟨rfl, rfl⟩, fun _ => rfl, .enable, .keep⟩
  · exact ⟨.inl ⟨rfl, rfl⟩, fun _ => rfl, .keep, .enable⟩

theorem uDisable_effect (i : Instr) (ch : Chan) (q : Pos) (s : State) : StatementEffect i s (goto q (uDisable ch s)) := by
  cases ch
  · exact ⟨.inl ⟨rfl, rfl⟩, fun _ => rfl, .disable, .keep⟩
  · exact ⟨.inl ⟨rfl, rfl⟩, fun _ => rfl, .keep, .disable⟩

@[simp] theorem uRead_snd (s : State) : (uRead s).2 = afterExchange clockByte s := rfl

theorem microCommand_effect (i : Instr) {o : Byte} {a : Word} {ret : Pos} {s t : State} {n : Nat}
    (h : microCommand o a ret s n = some t) : StatementEffect i s t := by
  unfold microCommand at h
  split at h <;> cases h <;> exact .of_channels_eq rfl rfl (fun _ => rfl) (.inl ⟨rfl, rfl⟩)

theorem microWait_effect (i : Instr) {b : Word} {ret : Pos} {s t : State} {n : Nat}
    (h : microWait b ret s n = some t) : StatementEffect i s t := by
  unfold microWait at h
  split at h <;> cases h <;> exact .of_channels_eq rfl rfl (fun _ => rfl) (.inl ⟨rfl, rfl⟩)

theorem microTransfer_effect {s t : State} (h : microTransfer s = some t) : StatementEffect .transfer s t := by
  unfold microTransfer at h
  split at h
  case h_3 => cases h; exact uLoad_effect ..
  case h_4 | h_9 | h_10 => cases h; exact uEnable_effect ..
  case h_6 | h_12 | h_13 => cases h; exact uDisable_effect ..
  case h_7 | h_14 => cases h; exact finish_effect ..
  case h_5 | h_11 => split at h <;> cases h; exact .of_channels_eq rfl rfl nofun (.inl ⟨rfl, rfl⟩)
  all_goals cases h <;> exact .of_channels_eq rfl rfl nofun (.inl ⟨rfl, rfl⟩)

theorem microOpenWrite_effect {s t : State} (h : microOpenWrite s = some t) : StatementEffect .openWrite s t := by
  unfold microOpenWrite at h
  split at h
  case h_5 => exact microWait_effect _ h
  case h_9 => exact microCommand_effect _ h
  all_goals cases h <;> exact .of_channels_eq rfl rfl nofun (by simp)

theorem microOpenRead_effect {s t : State} (h : microOpenRead s = some t) : StatementEffect .openRead s t := by
  unfold microOpenRead at h
  split at h
  case h_6 | h_7 => cases h; exact uLoad_effect ..
  case h_8 => exact microWait_effect _ h
  case h_12 => exact microCommand_effect _ h
  all_goals cases h <;> exact .of_channels_eq rfl rfl nofun (by simp)

theorem microCloseWrite_effect {s t : State} (h : microCloseWrite s = some t) : StatementEffect .closeWrite s t := by
  unfold microCloseWrite at h
  split at h
  case h_16 => exact microWait_effect _ h
  all_goals cases h <;> exact .of_channels_eq rfl rfl nofun (by simp)

theorem microCloseRead_effect {s t : State} (h : microCloseRead s = some t) : StatementEffect .closeRead s t := by
  unfold microCloseRead at h
  split at h <;> cases h <;> exact .of_channels_eq rfl rfl nofun (by simp)

theorem microStep_effect {i : Instr} {s t : State} (h : microStep i s = some t) : StatementEffect i s t := by
  cases i with
  | nop | dmaIsComplete =>
    simp only [microStep, microNop, microDmaIsComplete] at h
    split at h <;> cases h
    exact finish_effect ..
  | select | deselect | writeByte | readByte =>
    simp only [microStep, microSelect, microDeselect, microWriteByte, microReadByte] at h
    split at h <;> cases h
    · exact .of_channels_eq rfl rfl (fun _ => rfl) (.inl ⟨rfl, rfl⟩)
    · exact finish_effect ..
  | sendCommand o =>
    simp only [microStep, microSendCommand] at h
    split at h
    · exact microCommand_effect _ h
    · cases h; exact finish_effect ..
    · cases h
  | waitNotBusy =>
    simp only [microStep, microWaitNotBusy] at h
    split at h
    · exact microWait_effect _ h
    · cases h; exact finish_effect ..
    · cases h
  | dmaConfigure ch | dmaConfigureFill =>
    simp only [microStep, microDmaConfigure, microDmaConfigureFill] at h
    split at h <;> cases h
    · exact uLoad_effect ..
    · exact finish_effect ..
  | dmaEnable ch =>
    simp only [microStep, microDmaEnable] at h
    split at h <;> cases h
    · exact uEnable_effect ..
    · exact finish_effect ..
  | dmaDisable ch =>
    simp only [microStep, microDmaDisable] at h
    split at h <;> cases h
    · exact uDisable_effect ..
    · exact finish_effect ..
  | openWrite => exact microOpenWrite_effect h
  | transfer => exact microTransfer_effect h
  | closeWrite => exact microCloseWrite_effect h
  | openRead => exact microOpenRead_effect h
  | closeRead => exact microCloseRead_effect h

/-- A sequencer step is a statement of the running operation. -/
theorem sequencerStep_some {s t : State} (h : sequencerStep? s = some t) :
    ∃ i, s.faulted = false ∧ s.lop = some i ∧ microStep i s = some t := by
  unfold sequencerStep? at h
  split at h
  · cases h
  · next hf =>
    split at h
    · cases h
    · next i hl => exact ⟨i, by simpa using hf, hl, h⟩

/-! ### BUSY, LOP, the position and the fault record -/

/-- `ControlInv` reads nothing but BUSY, LOP, the position and the fault record. -/
theorem ControlInv.congr {s t : State} (hs : ControlInv s) (hb : t.busy = s.busy) (hl : t.lop = s.lop) (hp : t.pos = s.pos)
    (hf : t.faulted = s.faulted) (hc : t.fcode = s.fcode) (hw : t.faultCmd = s.faultCmd) : ControlInv t := by
  unfold ControlInv
  rw [hb, hl, hp, hf, hc, hw]
  exact hs

theorem ControlInv.sequencerStep {s t : State} (hs : ControlInv s) (h : sequencerStep? s = some t) : ControlInv t := by
  obtain ⟨hbusy, hfaulted, hclear, -⟩ := hs
  obtain ⟨i, hf, hl, hm⟩ := sequencerStep_some h
  have hout := (sequencerStep_quiet h).1
  have hclear : t.faulted = false → t.fcode = .none ∧ t.faultCmd = 0 := by
    rw [hout.faulted, hout.fcode, hout.faultCmd]; exact hclear
  have hnot : t.faulted ≠ true := by rw [hout.faulted, hf]; simp
  rcases (microStep_effect hm).control with ⟨hb, hlop⟩ | ⟨hb, hlop, hp⟩
  · exact ⟨by rw [hb, hlop, hbusy], fun h => absurd h hnot, hclear, fun h => by rw [hlop, hl] at h; cases h⟩
  · exact ⟨by rw [hb, hlop]; rfl, fun h => absurd h hnot, hclear, fun _ => .inl hp⟩

theorem ControlInv.dmaMove {s : State} (hs : ControlInv s) : ControlInv (dmaMove s) :=
  hs.congr (dmaMove_busy s) (dmaMove_lop s) (dmaMove_pos s) (dmaMove_faulted s) (dmaMove_fcode s) (dmaMove_faultCmd s)

theorem ControlInv.latch {s : State} (hs : ControlInv s) (ha : s.accepts) (i : Instr) (p : Pos) : ControlInv (latch i p s) := by
  obtain ⟨-, -, hclear, -⟩ := hs
  exact ⟨rfl, fun h => absurd (ha.1.symm.trans h) (by simp), hclear, nofun⟩

theorem ControlInv.withFault (s : State) {c : FaultCode} (w : Word) (hc : c ≠ .none) : ControlInv (s.withFault c w) :=
  ⟨rfl, fun _ => ⟨rfl, hc⟩, nofun, fun _ => .inr rfl⟩

theorem ControlInv.resetSbt (s : State) : ControlInv (resetSbt s) :=
  ⟨rfl, nofun, fun _ => ⟨rfl, rfl⟩, fun _ => .inl rfl⟩

/-- Settles O56, by the induction over what a step can do. -/
theorem stepKeepsControlInv : Obligations.StepKeepsControlInv := fun _ _ hs h =>
  step_keeps (P := ControlInv)
    (hagenda := fun _ _ h => h) (hseq := fun _ _ h => h.sequencerStep) (hdma := fun _ h _ => h.dmaMove)
    (hissue := fun i s h ha _ => h.latch ha i (firstStatement i s)) (hfault := fun s _ w _ _ hc => .withFault s w hc)
    (harg0 := fun _ _ h => h) (harg1 := fun _ _ h => h) (hread := fun _ _ h => h) (hstore := fun _ _ _ h => h)
    (hreset := fun s _ => .resetSbt s) hs h

/-! ### The channel records -/

theorem ChannelOk.update {c d : Channel} (hc : ChannelOk c) (h : ChannelUpdate c d) : ChannelOk d := by
  obtain ⟨hrem, hdone, hloaded, hcfg⟩ := hc
  cases h with
  | keep => exact ⟨hrem, hdone, hloaded, hcfg⟩
  | load p n => exact ⟨BitVec.le_refl n, nofun, fun _ => rfl, nofun⟩
  | enable => exact ⟨BitVec.le_refl _, fun h => by simpa using h, nofun, hcfg⟩
  | disable => exact ⟨hrem, hdone, hloaded, hcfg⟩

/-- A running channel has bytes left, so it is not DONE, and counts down to no less than 0. -/
theorem ChannelOk.countDown {c : Channel} (hc : ChannelOk c) (hr : c.running = true) : ChannelOk c.countDown := by
  obtain ⟨hrem, hdone, hloaded, hcfg⟩ := hc
  have h0 : c.rem ≠ 0 := by simp only [Channel.running, Bool.and_eq_true, bne_iff_ne] at hr; exact hr.2
  refine ⟨Channel.rem_countDown_le c hrem h0, fun h => ?_, hloaded, hcfg⟩
  simp only [Channel.countDown, Bool.or_eq_true, beq_iff_eq] at h
  exact h.resolve_left fun hd => h0 (hdone hd)

theorem ChannelInv.dmaMove {s : State} (hs : ChannelInv s) (he : dmaEnabled s = true) : ChannelInv (dmaMove s) := by
  obtain ⟨htx, hrx⟩ := hs
  have htxr : s.tx.running = true := by
    simp only [dmaEnabled, Bool.and_eq_true] at he; exact he.1.1.2
  refine ⟨(dmaMove_tx s).symm ▸ htx.countDown htxr, ?_⟩
  rw [dmaMove_rx]
  split
  · next hcap => exact hrx.countDown hcap
  · exact hrx

theorem ChannelInv.sequencerStep {s t : State} (hs : ChannelInv s) (h : sequencerStep? s = some t) : ChannelInv t := by
  obtain ⟨i, -, -, hm⟩ := sequencerStep_some h
  have heff := microStep_effect hm
  exact ⟨hs.1.update heff.tx, hs.2.update heff.rx⟩

theorem Channel.reset_ok : ChannelOk Channel.reset := by
  unfold ChannelOk; decide

/-- Settles O57, by the induction over what a step can do: only statements and DMA steps change a record. -/
theorem stepKeepsChannelInv : Obligations.StepKeepsChannelInv := fun _ _ hs h =>
  step_keeps (P := ChannelInv)
    (hagenda := fun _ _ h => h) (hseq := fun _ _ h => h.sequencerStep) (hdma := fun _ h => h.dmaMove)
    (hissue := fun _ _ h _ _ => h) (hfault := fun _ _ _ h _ _ => h)
    (harg0 := fun _ _ h => h) (harg1 := fun _ _ h => h) (hread := fun _ _ h => h) (hstore := fun _ _ _ h => h)
    (hreset := fun _ _ => ⟨Channel.reset_ok, Channel.reset_ok⟩) hs h

end Sys2Proof.Machine
end

section
/-! SUPPORT. The session discipline: every step keeps what an open session relies on (10_state.md R32; 40_transport.md R130;
42_session.md R180, R181, R187), operation by operation and statement by statement. -/

namespace Sys2Proof.Machine

/-! ### What the discipline reads -/

/-- `t` agrees with `s` on the operation, the phase, the direction and the descriptors. -/
structure SameSession (s t : State) : Prop where
  lop     : t.lop = s.lop
  phase   : t.phase = s.phase
  sdir    : t.sdir = s.sdir
  txEn    : t.tx.en = s.tx.en
  rxEn    : t.rx.en = s.rx.en
  txCount : t.tx.count = s.tx.count
  rxCount : t.rx.count = s.rx.count
  txFill  : t.txFill = s.txFill

theorem SameSession.readLoaded {s t : State} (h : SameSession s t) : readLoaded t ↔ readLoaded s := by
  unfold Machine.readLoaded; rw [h.txCount, h.rxCount, h.txFill]

theorem SameSession.sessionOpen {s t : State} (h : SameSession s t) : sessionOpen t = sessionOpen s := by
  unfold Machine.sessionOpen; rw [h.phase]

theorem phase_ne_closing_of_sessionOpen {s : State} (h : sessionOpen s = true) : s.phase ≠ .closing :=
  fun hc => by simp [sessionOpen, hc] at h

/-- `SessionAt` reads chip-select, the position and what `SameSession` names, and nothing else. -/
theorem SessionAt.congr {s t : State} (hs : SessionAt s) (h : SameSession s t) (hcs : t.cs = s.cs) (hp : t.pos = s.pos) :
    SessionAt t := by
  unfold SessionAt at hs ⊢
  simp only [h.lop, h.phase, h.sdir, h.txEn, h.rxEn, h.rxCount, h.sessionOpen, h.readLoaded, hcs, hp]
  exact hs

/-- The statements of `uWaitNotBusy` keep the session and end at the caller's position. -/
theorem microWait_session {b : Word} {ret : Pos} {s t : State} {n : Nat} (h : microWait b ret s n = some t) :
    SameSession s t ∧ (t.pos = ret ∨ ∃ m, t.pos = .wait m) := by
  unfold microWait at h
  split at h <;> cases h <;> refine ⟨⟨rfl, rfl, rfl, rfl, rfl, rfl, rfl, rfl⟩, ?_⟩
  case h_3 | h_6 => refine .inr ?_; simp only [goto_pos]; split <;> simp
  all_goals simp

/-- The statements of `uCommand` keep the session, leave CS at 1 and end at the caller's position. -/
theorem microCommand_session {o : Byte} {a : Word} {ret : Pos} {s t : State} {n : Nat}
    (h : microCommand o a ret s n = some t) (hcs : n ≠ 0 → s.cs = true) :
    SameSession s t ∧ t.cs = true ∧ (t.pos = ret ∨ ∃ m, t.pos = .cmd m) := by
  unfold microCommand at h
  split at h <;> cases h <;> refine ⟨⟨rfl, rfl, rfl, rfl, rfl, rfl, rfl, rfl⟩, ?_⟩
  case h_1 => exact ⟨rfl, .inr ⟨1, rfl⟩⟩
  case h_10 | h_13 => refine ⟨hcs nofun, .inr ?_⟩; simp only [goto_pos]; split <;> simp
  all_goals exact ⟨hcs nofun, by simp⟩

/-! ### The operations of the session, statement by statement

In each proof the calls of `uWaitNotBusy` and `uCommand` and the branch tests come first; any other statement changes at most one of the
fields the discipline reads, and `simp_all` compares the condition at its position with the one at the next. -/

/-- OPEN_WRITE: the phase stays outside a session up to statement 13, which comes after `uCommand` has set CS. -/
theorem microOpenWrite_session {s t : State} (hl : s.lop = some .openWrite) (hs : SessionAt s)
    (h : microOpenWrite s = some t) : SessionAt t := by
  simp only [SessionAt, hl] at hs
  obtain ⟨hphase, htx, hrx, hpos⟩ := hs
  unfold microOpenWrite at h
  split at h
  case h_5 n hp =>
    simp only [hp] at hpos
    obtain ⟨hsame, hret⟩ := microWait_session h
    rcases hret with hret | ⟨m, hret⟩ <;>
      simp [SessionAt, hret, hl, hsame.lop, hsame.phase, hsame.sessionOpen, hsame.sdir, hsame.txEn, hsame.rxEn,
        hphase, htx, hrx, hpos]
  case h_9 n hp =>
    simp only [hp] at hpos
    obtain ⟨hsame, hcs, hret⟩ := microCommand_session h hpos.2.2
    rcases hret with hret | ⟨m, hret⟩ <;>
      simp [SessionAt, hret, hl, hsame.lop, hsame.phase, hsame.sessionOpen, hsame.sdir, hsame.txEn, hsame.rxEn,
        hphase, htx, hrx, hpos, hcs]
  case h_6 | h_10 => cases h; split <;> simp_all [SessionAt, sessionOpen]
  all_goals cases h <;> simp_all [SessionAt, sessionOpen]

/-- OPEN_READ: as OPEN_WRITE, and both descriptors are loaded before the busy wait and kept from then on. -/
theorem microOpenRead_session {s t : State} (hl : s.lop = some .openRead) (hs : SessionAt s)
    (h : microOpenRead s = some t) : SessionAt t := by
  simp only [SessionAt, hl] at hs
  obtain ⟨hphase, htx, hrx, hpos⟩ := hs
  unfold microOpenRead at h
  split at h
  case h_8 n hp =>
    simp only [hp] at hpos
    obtain ⟨hsame, hret⟩ := microWait_session h
    rcases hret with hret | ⟨m, hret⟩ <;>
      simp [SessionAt, hret, hl, hsame.lop, hsame.phase, hsame.sessionOpen, hsame.readLoaded, hsame.txEn, hsame.rxEn,
        hphase, htx, hrx, hpos]
  case h_12 n hp =>
    simp only [hp] at hpos
    obtain ⟨hsame, hcs, hret⟩ := microCommand_session h hpos.2.2
    rcases hret with hret | ⟨m, hret⟩ <;>
      simp [SessionAt, hret, hl, hsame.lop, hsame.phase, hsame.sessionOpen, hsame.readLoaded, hsame.txEn, hsame.rxEn,
        hphase, htx, hrx, hpos, hcs]
  case h_9 | h_13 => cases h; split <;> simp_all [SessionAt, sessionOpen, readLoaded]
  all_goals cases h <;> simp_all [SessionAt, sessionOpen, readLoaded, sectorSize]

/-- TRANSFER: the session stays open with CS at 1, and the channels it enables are disabled before it finishes. -/
theorem microTransfer_session {s t : State} (hl : s.lop = some .transfer) (hs : SessionAt s)
    (h : microTransfer s = some t) : SessionAt t := by
  simp only [SessionAt, hl] at hs
  obtain ⟨hopen, hcs, hpos⟩ := hs
  unfold microTransfer at h
  split at h
  case h_5 | h_11 => split at h <;> cases h; simp_all [SessionAt, sessionOpen, readLoaded]
  case h_7 | h_14 =>
    have hphase := phase_ne_closing_of_sessionOpen hopen
    cases h; simp_all [SessionAt, readLoaded]
  all_goals cases h <;> simp_all [SessionAt, sessionOpen, readLoaded]

/-- CLOSE_WRITE: the session is open at the first statement only, and the phase has left closing at each `finish`. -/
theorem microCloseWrite_session {s t : State} (hl : s.lop = some .closeWrite) (hs : SessionAt s)
    (h : microCloseWrite s = some t) : SessionAt t := by
  simp only [SessionAt, hl] at hs
  obtain ⟨htx, hrx, hopen, hphase⟩ := hs
  unfold microCloseWrite at h
  split at h
  case h_16 n hp =>
    obtain ⟨hsame, hret⟩ := microWait_session h
    have hclosed : sessionOpen s = false := by simp_all
    rcases hret with hret | ⟨m, hret⟩ <;>
      simp [SessionAt, hret, hl, hsame.lop, hsame.sessionOpen, hsame.txEn, hsame.rxEn, htx, hrx, hclosed]
  case h_8 | h_14 | h_17 => cases h; split <;> simp_all [SessionAt, sessionOpen]
  all_goals cases h <;> simp_all [SessionAt, sessionOpen]

/-- CLOSE_READ: as CLOSE_WRITE, with one way out. -/
theorem microCloseRead_session {s t : State} (hl : s.lop = some .closeRead) (hs : SessionAt s)
    (h : microCloseRead s = some t) : SessionAt t := by
  simp only [SessionAt, hl] at hs
  obtain ⟨htx, hrx, hopen, hphase⟩ := hs
  unfold microCloseRead at h
  split at h <;> cases h <;> simp_all [SessionAt, sessionOpen]

/-! ### The other operations -/

/-- With no session open, an operation outside the session asks only that the phase is not closing; so does the idle sequencer. -/
theorem sessionAt_of_closed {s : State} (hphase : s.phase ≠ .closing) (hopen : sessionOpen s = false)
    (hl : s.lop = none ∨ ∃ i, s.lop = some i ∧ isSession i = false) : SessionAt s := by
  rcases hl with hl | ⟨i, hl, hi⟩
  · simp [SessionAt, hl, hphase, hopen]
  · cases i with
    | openWrite | transfer | closeWrite | openRead | closeRead => cases hi
    | _ => simp [SessionAt, hl, hphase, hopen]

/-- NOP and DMA_IS_COMPLETE may run in an open session; their one statement finishes. -/
theorem finish_session {i : Instr} {s : State} (hi : i = .nop ∨ ∃ ch, i = .dmaIsComplete ch) (hl : s.lop = some i)
    (hs : SessionAt s) (c : ResultCode) (d : Byte) : SessionAt (finish c d s) := by
  rcases hi with rfl | ⟨ch, rfl⟩ <;> simpa [SessionAt, hl, sessionOpen, readLoaded] using hs

/-- A statement of an operation that runs with no session open keeps the phase, and so the session stays closed. -/
theorem microStep_session_of_closed {i : Instr} {s t : State} (hi : isSession i = false) (hl : s.lop = some i)
    (hphase : s.phase ≠ .closing) (hopen : sessionOpen s = false) (h : microStep i s = some t) : SessionAt t := by
  have heff := microStep_effect h
  have hp := heff.phase hi
  refine sessionAt_of_closed (hp ▸ hphase) (by rw [← hopen]; unfold sessionOpen; rw [hp]) ?_
  rcases heff.control with ⟨-, hlop⟩ | ⟨-, hlop, -⟩
  · exact .inr ⟨i, hlop.trans hl, hi⟩
  · exact .inl hlop

theorem microStep_session {i : Instr} {s t : State} (hl : s.lop = some i) (hs : SessionAt s) (h : microStep i s = some t) :
    SessionAt t := by
  cases i with
  | nop =>
    simp only [microStep, microNop] at h
    split at h <;> cases h
    exact finish_session (.inl rfl) hl hs ..
  | dmaIsComplete ch =>
    simp only [microStep, microDmaIsComplete] at h
    split at h <;> cases h
    exact finish_session (.inr ⟨ch, rfl⟩) hl hs ..
  | openWrite => exact microOpenWrite_session hl hs h
  | transfer => exact microTransfer_session hl hs h
  | closeWrite => exact microCloseWrite_session hl hs h
  | openRead => exact microOpenRead_session hl hs h
  | closeRead => exact microCloseRead_session hl hs h
  | _ =>
    simp only [SessionAt, hl] at hs
    exact microStep_session_of_closed rfl hl hs.1 hs.2 h

theorem SessionAt.sequencerStep {s t : State} (hs : SessionAt s) (h : sequencerStep? s = some t) : SessionAt t := by
  obtain ⟨i, -, hl, hm⟩ := sequencerStep_some h
  exact microStep_session hl hs hm

/-- A DMA step counts REM down and may set DONE; the discipline reads EN and COUNT. -/
theorem SessionAt.dmaMove {s : State} (hs : SessionAt s) : SessionAt (dmaMove s) := by
  have htx : (Machine.dmaMove s).tx.en = s.tx.en ∧ (Machine.dmaMove s).tx.count = s.tx.count := by
    rw [dmaMove_tx]; exact ⟨rfl, rfl⟩
  have hrx : (Machine.dmaMove s).rx.en = s.rx.en ∧ (Machine.dmaMove s).rx.count = s.rx.count := by
    rw [dmaMove_rx]; split <;> exact ⟨rfl, rfl⟩
  exact hs.congr ⟨dmaMove_lop s, dmaMove_phase s, dmaMove_sdir s, htx.1, hrx.1, htx.2, hrx.2, dmaMove_txFill s⟩
    (dmaMove_cs s) (dmaMove_pos s)

/-! ### Issue -/

/-- Between operations, an operation that passes its checks starts where the discipline wants it. -/
theorem SessionAt.latch {i : Instr} {s : State} (hs : SessionAt s) (hl : s.lop = none) (hc : issueCheck i s = none) :
    SessionAt (latch i (firstStatement i s) s) := by
  simp only [SessionAt, hl] at hs
  obtain ⟨hphase, hsession⟩ := hs
  cases i with
  | nop | dmaIsComplete => exact ⟨hphase, hsession⟩
  | openWrite | openRead =>
    obtain ⟨hopen, hc⟩ := firstFault_none hc
    have hen := (firstFault_none (firstFault_none hc).2).1
    simp only [Bool.or_eq_false_iff] at hen
    exact ⟨hphase, hen.1, hen.2, fun _ => hopen, by simp⟩
  | transfer =>
    have hopened : s.phase = .opened := by simpa using (firstFault_none hc).1
    have hopen : sessionOpen s = true := by simp [sessionOpen, hopened]
    obtain ⟨hcs, htx, hrx, hread⟩ := hsession hopen
    refine ⟨hopen, hcs, ?_⟩
    simp only [firstStatement, transferFirst]
    cases hd : s.sdir with
    | write => exact ⟨hd, hrx, nofun⟩
    | read => exact ⟨hread hd, nofun, nofun⟩
  | closeWrite | closeRead =>
    have hphase : s.phase = .transferring := by
      have hfails := (firstFault_none hc).1
      simp only [Bool.or_eq_false_iff, bne_eq_false_iff_eq] at hfails
      exact hfails.1
    obtain ⟨-, htx, hrx, -⟩ := hsession (by simp [sessionOpen, hphase])
    exact ⟨htx, hrx, fun _ => rfl, fun _ => by simp [hphase]⟩
  | _ => exact ⟨hphase, (firstFault_none hc).1⟩

/-! ### Every step -/

theorem SessionInv.latch {i : Instr} {s : State} (hs : SessionInv s) (hb : ControlInv s) (ha : s.accepts)
    (hc : issueCheck i s = none) : SessionInv (latch i (firstStatement i s) s) := by
  have hl : s.lop = none := by simpa [ha.2] using hb.1
  exact fun _ => (hs ha.1).latch hl hc

theorem SessionInv.sequencerStep {s t : State} (hs : SessionInv s) (h : sequencerStep? s = some t) : SessionInv t :=
  fun hf => (hs ((sequencerStep_quiet h).1.faulted.symm.trans hf)).sequencerStep h

theorem SessionInv.dmaMove {s : State} (hs : SessionInv s) : SessionInv (dmaMove s) :=
  fun hf => (hs ((dmaMove_faulted s).symm.trans hf)).dmaMove

theorem SessionInv.resetSbt (s : State) : SessionInv (resetSbt s) := fun _ => ⟨nofun, fun h => by cases h⟩

/-- Settles O58, by the induction over what a step can do, with the control invariant carried along: the issue step needs LOP to be none
when BUSY is 0. -/
theorem stepKeepsSessionInv : Obligations.StepKeepsSessionInv := by
  intro s t hcontrol hsession h
  exact (step_keeps (P := fun s => ControlInv s ∧ SessionInv s)
    (hagenda := fun _ _ h => h)
    (hseq := fun _ _ h hq => ⟨h.1.sequencerStep hq, h.2.sequencerStep hq⟩)
    (hdma := fun _ h _ => ⟨h.1.dmaMove, h.2.dmaMove⟩)
    (hissue := fun i s h ha hc => ⟨h.1.latch ha i (firstStatement i s), h.2.latch h.1 ha hc⟩)
    (hfault := fun s c w _ _ hc => ⟨.withFault s w hc, nofun⟩)
    (harg0 := fun _ _ h => h) (harg1 := fun _ _ h => h) (hread := fun _ _ h => h) (hstore := fun _ _ _ h => h)
    (hreset := fun s _ => ⟨.resetSbt s, .resetSbt s⟩) ⟨hcontrol, hsession⟩ h).2

end Sys2Proof.Machine
end

section
/-! SUPPORT. The state around a running operation (10_state.md R21, R26, R27, R42): what a request leaves to the host, that no turn of the SBT
reads ARG0 or ARG1, and that a request is its issue step and its micro-steps. -/

namespace Sys2Proof.Machine

/-! ### What a request leaves alone -/

/-- A request is ignored, faults, or runs; none of the three touches what is outside the SBT's own step, but for the fault record. -/
theorem exec_keepsHost {i : Instr} {s t : State} (h : exec i s = .next t) :
    t.arg0 = s.arg0 ∧ t.arg1 = s.arg1 ∧ t.params = s.params ∧ t.agenda = s.agenda ∧ t.hostData = s.hostData := by
  rcases exec_next h with rfl | ⟨code, rfl, -⟩ | ⟨ha, -, rfl⟩
  · exact ⟨rfl, rfl, rfl, rfl, rfl⟩
  · exact ⟨rfl, rfl, rfl, rfl, rfl⟩
  · have hout := wholeRun_outside i ha
    exact ⟨hout.arg0, hout.arg1, hout.params, hout.agenda, hout.hostData⟩

/-- Settles O51. -/
theorem requestKeepsHostState : Obligations.RequestKeepsHostState := fun _ _ _ h => exec_keepsHost h

/-! ### No turn of the SBT reads ARG0 or ARG1 -/

/-- `s` with other values in ARG0 and ARG1. -/
def State.withArgs (s : State) (a0 a1 : Word) : State := { s with arg0 := a0, arg1 := a1 }

section
variable (a0 a1 : Word)

theorem microCommand_withArgs (o : Byte) (a : Word) (ret : Pos) (s : State) (n : Nat) :
    microCommand o a ret (s.withArgs a0 a1) n = (microCommand o a ret s n).map (·.withArgs a0 a1) := by
  unfold microCommand; split <;> rfl

theorem microWait_withArgs (b : Word) (ret : Pos) (s : State) (n : Nat) :
    microWait b ret (s.withArgs a0 a1) n = (microWait b ret s n).map (·.withArgs a0 a1) := by
  unfold microWait; split <;> rfl

/-- Every statement computes from the latched operands LARG0 and LARG1, so it commutes with a change of ARG0 and ARG1. -/
theorem microStep_withArgs (i : Instr) (s : State) :
    microStep i (s.withArgs a0 a1) = (microStep i s).map (·.withArgs a0 a1) := by
  have hpos : (s.withArgs a0 a1).pos = s.pos := rfl
  cases i with
  | nop => simp only [microStep, microNop, hpos]; split <;> rfl
  | select => simp only [microStep, microSelect, hpos]; split <;> rfl
  | deselect => simp only [microStep, microDeselect, hpos]; split <;> rfl
  | writeByte b => simp only [microStep, microWriteByte, hpos]; split <;> rfl
  | readByte => simp only [microStep, microReadByte, hpos]; split <;> rfl
  | sendCommand o =>
    simp only [microStep, microSendCommand, hpos]
    split
    · exact microCommand_withArgs ..
    all_goals rfl
  | waitNotBusy =>
    simp only [microStep, microWaitNotBusy, hpos]
    split
    · exact microWait_withArgs ..
    all_goals rfl
  | dmaConfigure ch => cases ch <;> simp only [microStep, microDmaConfigure, hpos] <;> split <;> rfl
  | dmaConfigureFill => simp only [microStep, microDmaConfigureFill, hpos]; split <;> rfl
  | dmaEnable ch => cases ch <;> simp only [microStep, microDmaEnable, hpos] <;> split <;> rfl
  | dmaIsComplete ch => cases ch <;> simp only [microStep, microDmaIsComplete, hpos] <;> split <;> rfl
  | dmaDisable ch => cases ch <;> simp only [microStep, microDmaDisable, hpos] <;> split <;> rfl
  | openWrite =>
    simp only [microStep, microOpenWrite, hpos]
    split
    case h_5 => exact microWait_withArgs ..
    case h_9 => exact microCommand_withArgs ..
    all_goals rfl
  | transfer =>
    simp only [microStep, microTransfer, hpos]
    split
    case h_5 | h_11 => rw [apply_ite (Option.map _)]; rfl
    all_goals rfl
  | closeWrite =>
    simp only [microStep, microCloseWrite, hpos]
    split
    case h_16 => exact microWait_withArgs ..
    all_goals rfl
  | openRead =>
    simp only [microStep, microOpenRead, hpos]
    split
    case h_8 => exact microWait_withArgs ..
    case h_12 => exact microCommand_withArgs ..
    all_goals rfl
  | closeRead => simp only [microStep, microCloseRead, hpos]; split <;> rfl

theorem sequencerStep_withArgs (s : State) :
    sequencerStep? (s.withArgs a0 a1) = (sequencerStep? s).map (·.withArgs a0 a1) := by
  unfold sequencerStep?
  rw [show (s.withArgs a0 a1).faulted = s.faulted from rfl, show (s.withArgs a0 a1).lop = s.lop from rfl]
  split
  · rfl
  · split
    · rfl
    · exact microStep_withArgs a0 a1 _ s

theorem dmaStep_withArgs (s : State) : dmaStep? (s.withArgs a0 a1) = (dmaStep? s).map (·.withArgs a0 a1) := by
  have hmove : dmaMove (s.withArgs a0 a1) = (dmaMove s).withArgs a0 a1 := by rw [dmaMove_eq, dmaMove_eq]; rfl
  unfold dmaStep?
  rw [show dmaEnabled (s.withArgs a0 a1) = dmaEnabled s from rfl, hmove]
  split <;> rfl

/-- A turn that is passed commutes with the change of ARG0 and ARG1 too. -/
theorem getD_withArgs {s : State} {turn : Option State} :
    (turn.map (·.withArgs a0 a1)).getD (s.withArgs a0 a1) = (turn.getD s).withArgs a0 a1 := by
  cases turn <;> rfl

theorem ownStep_withArgs (s : State) : ownStep (s.withArgs a0 a1) = (ownStep s).withArgs a0 a1 := by
  unfold ownStep
  rw [sequencerStep_withArgs, dmaStep_withArgs]
  cases sequencerStep? s with
  | some t => rfl
  | none => exact getD_withArgs a0 a1

end

/-- Settles O52: each turn of the SBT commutes with a change of ARG0 and ARG1. -/
theorem runningOperationIgnoresArgs : Obligations.RunningOperationIgnoresArgs := by
  refine fun s a0 a1 => ⟨ownStep_withArgs a0 a1 s, fun rest hag => ?_⟩
  have hturn : ∀ (a : Atomic) (turn : State → State), s.agenda = .atomic a :: rest → (∀ u, atomicStep a u = .next (turn u)) →
      (∀ u, turn (u.withArgs a0 a1) = (turn u).withArgs a0 a1) →
      ∃ t, step s = .next t ∧ step (s.withArgs a0 a1) = .next (t.withArgs a0 a1) := by
    intro a turn hag hatomic hcomm
    refine ⟨turn { s with agenda := rest }, by simp only [step, hag, hatomic], ?_⟩
    rw [← hcomm, ← hatomic]
    simp only [step, State.withArgs, hag]
  rcases hag with hag | hag | hag
  · exact hturn .sequencer (fun u => (sequencerStep? u).getD u) hag (fun _ => rfl)
      fun u => by rw [sequencerStep_withArgs]; exact getD_withArgs a0 a1
  · exact hturn .dma (fun u => (dmaStep? u).getD u) hag (fun _ => rfl)
      fun u => by rw [dmaStep_withArgs]; exact getD_withArgs a0 a1
  · exact hturn .own ownStep hag (fun _ => rfl) (ownStep_withArgs a0 a1)

/-! ### A request is its micro-steps -/

/-- The word of an operation decodes to it, so writing it to CMD issues the operation. -/
theorem issueWord_encode (i : Instr) (s : State) :
    issueWord (encode i) s = issueThen i (issueCheck i s) (firstStatement i s) id s := by
  have hdecode : decode (encode i) = .ok i := by
    unfold decode encode; rw [fieldsOf_assembleFields, decodeFields_fields]
  unfold issueWord
  rw [hdecode]

/-- Settles O54: a request that is ignored or faults ends at its issue step, and one that is accepted reaches its whole run by own steps,
which an empty schedule takes. -/
theorem requestIsItsMicroSteps : Obligations.RequestIsItsMicroSteps := by
  intro i s hag
  rw [issueWord_encode]
  unfold issueThen
  rcases exec_cases i s with ⟨hf, he⟩ | ⟨hf, hb, he⟩ | ⟨⟨hf, hb⟩, code, hc, he⟩ | ⟨ha, hc, he⟩
  · exact ⟨0, s, he, by rw [hf]; rfl⟩
  · exact ⟨0, _, he, by rw [hf, hb]; rfl⟩
  · exact ⟨0, _, he, by rw [hf, hb, hc]; rfl⟩
  · obtain ⟨n, hn, -⟩ := reaches_wholeRun i ha
    refine ⟨n, _, he, ?_⟩
    rw [ha.1, ha.2, hc, ← hn]
    exact core_run_ownSteps n hag

end Sys2Proof.Machine
end

section
/-! SUPPORT. The register window (10_state.md R23, R24, R28 to R41): the words a 32-bit read assembles, as the sums of their fields, and
what each access of the window does. -/

namespace Sys2Proof.Machine

/-! ### Words as sums of their fields -/

/-- Placing `x` above the `n` bits of `y` adds `x` times `2 ^ n`. -/
theorem toNat_append_eq_add {m n : Nat} (x : BitVec m) (y : BitVec n) : (x ++ y).toNat = 2 ^ n * x.toNat + y.toNat := by
  rw [BitVec.toNat_append, ← Nat.shiftLeft_add_eq_or_of_lt y.isLt, Nat.shiftLeft_eq, Nat.mul_comm]

theorem Channel.flags_toNat (c : Channel) :
    c.flags.toNat = c.en.toNat + 2 * c.done.toNat + 4 * c.loaded.toNat + 8 * c.cfg.toNat := by
  simp only [Channel.flags, toNat_append_eq_add, BitVec.toNat_ofBool]
  omega

theorem resultWord_eq (s : State) : resultWord s = s.resultData.setWidth 32 + 0x100 * s.resultCode.code.setWidth 32 := by
  have := s.resultData.isLt
  have := s.resultCode.code.isLt
  apply BitVec.eq_of_toNat_eq
  simp only [resultWord, toNat_append_eq_add, BitVec.toNat_add, BitVec.toNat_mul, BitVec.toNat_setWidth, BitVec.ofNat_eq_ofNat,
    BitVec.toNat_ofNat]
  omega

theorem faultWord_eq (s : State) : faultWord s = s.fcode.code.setWidth 32 := by
  have := s.fcode.code.isLt
  apply BitVec.eq_of_toNat_eq
  simp only [faultWord, toNat_append_eq_add, BitVec.toNat_setWidth, BitVec.ofNat_eq_ofNat, BitVec.toNat_ofNat]
  omega

theorem Channel.countWord_eq (c : Channel) : c.countWord = c.count.setWidth 32 + 0x10000 * c.rem.setWidth 32 := by
  have := c.count.isLt
  have := c.rem.isLt
  apply BitVec.eq_of_toNat_eq
  simp only [Channel.countWord, toNat_append_eq_add, BitVec.toNat_add, BitVec.toNat_mul, BitVec.toNat_setWidth, BitVec.ofNat_eq_ofNat,
    BitVec.toNat_ofNat]
  omega

theorem sectorWord_eq (s : State) : sectorWord s = s.sector.setWidth 32 := by
  have := s.sector.isLt
  apply BitVec.eq_of_toNat_eq
  simp only [sectorWord, toNat_append_eq_add, BitVec.toNat_setWidth, BitVec.ofNat_eq_ofNat, BitVec.toNat_ofNat]
  omega

/-- Settles O40: STATUS is the concatenation of its fields, and every field stands for its number at its place. -/
theorem statusBits : Obligations.StatusBits := by
  intro s phase sdir
  have hphase : s.phase.code.toNat = phase := by simp only [phase]; cases s.phase <;> rfl
  have hsdir : s.sdir.code.toNat = sdir := by simp only [sdir]; cases s.sdir <;> rfl
  simp only [statusWord, toNat_append_eq_add, Channel.flags_toNat, BitVec.toNat_ofBool, hphase, hsdir, BitVec.ofNat_eq_ofNat,
    BitVec.toNat_ofNat]
  omega

/-! ### Reads and writes -/

/-- The table of R23, offset by offset. -/
theorem windowValue_eq (s : State) (off : Nat) : windowValue s off =
    if off = 0x04 then s.arg0
    else if off = 0x08 then s.arg1
    else if off = 0x0C then resultWord s
    else if off = 0x10 then statusWord s
    else if off = 0x14 then faultWord s
    else if off = 0x18 then s.faultCmd
    else if off = 0x1C then s.tx.ptr
    else if off = 0x20 then s.tx.countWord
    else if off = 0x24 then s.rx.ptr
    else if off = 0x28 then s.rx.countWord
    else if off = 0x2C then sectorWord s
    else 0 := by
  unfold windowValue
  split <;> simp_all

/-- Settles O39: the offset is inside the window, and each register reads as the sum of its fields. -/
theorem windowReadsRegisters : Obligations.WindowReadsRegisters := by
  intro s off rest h4 hlt hag code fcode
  have hcode : s.resultCode.code.setWidth 32 = code := by simp only [code]; cases s.resultCode <;> rfl
  have hfcode : s.fcode.code.setWidth 32 = fcode := by simp only [fcode]; cases s.fcode <;> rfl
  rw [← hcode, ← hfcode, ← resultWord_eq, ← faultWord_eq, ← Channel.countWord_eq, ← Channel.countWord_eq, ← sectorWord_eq,
    ← windowValue_eq]
  simp only [step, hag, atomicStep, windowOffset_inside s.params off h4 hlt]
  rfl

/-- A write at any offset but CMD's stores ARG0 or ARG1 or nothing. -/
theorem windowStore_eq {off : Nat} (h0 : off ≠ 0) (v : Word) (s : State) : windowStore off v s =
    if off = 0x04 then { s with arg0 := v } else if off = 0x08 then { s with arg1 := v } else s := by
  unfold windowStore
  split <;> simp_all

/-- Settles O41. -/
theorem windowWrites : Obligations.WindowWrites := by
  intro s off v rest h4 hlt h0 hag
  simp only [step, hag, atomicStep, windowOffset_inside s.params off h4 hlt, windowStore_eq h0]

theorem windowOffset_none {p : Params} {width : Nat} {addr : Word}
    (h : width ≠ 32 ∨ (addr - p.sbtBase).toNat % 4 ≠ 0 ∨ 0x100 ≤ (addr - p.sbtBase).toNat) : windowOffset p width addr = none :=
  if_neg fun ⟨hwidth, halign, hlt⟩ => by omega

/-- Settles O42: such an access has no offset in the window, and a second agent's is refused wherever it is. -/
theorem otherWindowAccessRefused : Obligations.OtherWindowAccessRefused := by
  refine fun s width addr v rest => ⟨fun h => ?_, fun hag => by simp only [step, hag, atomicStep]⟩
  have hnone := windowOffset_none h
  exact ⟨fun hag => by simp only [step, hag, atomicStep, hnone], fun hag => by simp only [step, hag, atomicStep, hnone]⟩

end Sys2Proof.Machine
end

section
/-! SUPPORT. The proofs for spec/20_memory.md: the order in which runs of both channels send and store (R62, R67), the host's byte accesses
(R70), and the canonical form of memory. -/

namespace Sys2Proof.Machine

/-! ### Turns of the DMA engine (R62, R67; 41_dma.md R152) -/

/-- The channel after `k` bytes of its run, by the bytes that were left. -/
theorem Channel.after_eq {c : Channel} {k : Nat} (h0 : k ≠ 0) (hk : k ≤ c.rem.toNat) :
    c.after k = { c with rem := c.rem - BitVec.ofNat 16 k, done := c.done || decide (c.rem.toNat = k) } := by
  have hzero : c.rem - BitVec.ofNat 16 k = 0 ↔ c.rem.toNat = k := by
    rw [← BitVec.toNat_inj, Channel.rem_after_toNat c hk, show (0 : BitVec 16).toNat = 0 from rfl]
    omega
  simp only [Channel.after, bne_iff_ne.mpr h0, Bool.true_and, beq_eq_decide, hzero]

/-- The engine has a step after `k` bytes of a TX run, whatever RX, memory and the wire hold by then, if its next bytes are admitted. -/
theorem dmaEnabled_after {s : State} {k : Nat} {r : Channel} {m : Memory} {h : List Exchange} (hf : s.faulted = false)
    (hen : s.tx.en = true) (hle : s.tx.rem ≤ s.tx.count) (hk : k < s.tx.rem.toNat)
    (hout : s.txFill = true ∨ admits s.params (s.tx.address + BitVec.ofNat 32 k) = true)
    (hin : r.running = true → admits s.params r.address = true) :
    dmaEnabled ({ s with tx := s.tx.after k, rx := r, mem := m }.exchanged h) = true := by
  rw [← Channel.address_after s.tx hle (Nat.le_of_lt hk)] at hout
  exact dmaEnabled_of hf (Channel.after_running hen hk) hout hin

/-- A schedule of enabled DMA turns and nothing else. -/
theorem core_run_of_dmaAgenda {s : State} {n : Nat} (hag : s.agenda = List.replicate n (.atomic .dma))
    (h : ∀ j < n, dmaEnabled (dmaMoves j s) = true) : core.run n s = .next { dmaMoves n s with agenda := [] } := by
  have hs : s = { s with agenda := List.replicate n (.atomic .dma) ++ [] } := by rw [List.append_nil, ← hag]
  exact (congrArg (core.run n) hs).trans (core_run_dmaTurns n [] h)

/-- Settles O23: every turn is enabled, and the moves of a run without RX send the buffer in order. -/
theorem dmaRunSendsInOrder : Obligations.DmaRunSendsInOrder := by
  intro s hf hen hfull h0 hfill hrx hadm hag
  have hrem : s.tx.rem.toNat = s.tx.count.toNat := by rw [hfull]
  have hle : s.tx.rem ≤ s.tx.count := Nat.le_of_eq hrem
  have hoff : s.rx.running = false := by simp [Channel.running, hrx]
  have hsend := fun k hk => dmaMoves_send (k := k) hfill hoff hle hk
  simp only [Channel.address_start _ hfull] at hsend
  have henabled : ∀ j < s.tx.count.toNat, dmaEnabled (dmaMoves j s) = true := by
    intro j hj
    obtain ⟨g, hmoves, -, -⟩ := hsend j (by omega)
    rw [hmoves]
    refine dmaEnabled_after hf hen hle (by omega) (.inr ?_) fun hr => absurd hr (by simp [hoff])
    rw [Channel.address_start _ hfull]
    exact hadm j hj
  obtain ⟨h, hmoves, hwire, hans⟩ := hsend s.tx.count.toNat (Nat.le_of_eq hrem.symm)
  refine ⟨h, ?_, hwire, hans⟩
  rw [core_run_of_dmaAgenda hag henabled, hmoves, Channel.after_all hrem.symm fun e => h0 (BitVec.eq_of_toNat_eq e)]
  rfl

/-- Settles O60: every turn is enabled, and the moves of runs of both channels store what they receive in order. -/
theorem dmaRunStoresInOrder : Obligations.DmaRunStoresInOrder := by
  intro s n hf hen hrxen hlet hle h0 hnt hnr hwf ta ra hout hin hag
  have hmoves := fun k hk hkt => dmaMoves_capture (k := k) hrxen hle hlet hk hkt hwf
  have henabled : ∀ j < n, dmaEnabled (dmaMoves j s) = true := by
    intro j hj
    obtain ⟨g, m, hmid, -⟩ := hmoves j (by omega) (by omega)
    rw [hmid]
    refine dmaEnabled_after hf hen hlet (by omega) (hout.imp_right fun ha => ha j hj) fun _ => ?_
    rw [Channel.address_after _ hle (by omega)]
    exact hin j hj
  obtain ⟨h, m, hn, hlen, hcs, hans, -, hstored, hframe, hfiller, hfresh, hstale⟩ := hmoves n hnr hnt
  refine ⟨h, m, ?_, hlen, hcs, hans, hstored, hframe, hfiller, hfresh, hstale⟩
  rw [core_run_of_dmaAgenda hag henabled, hn, Channel.after_eq h0 hnt, Channel.after_eq h0 hnr]
  rfl

/-! ### The canonical form (R60, R66, R70) -/

/-- A DMA step writes at most one byte, at an address of 32 bits. -/
theorem dmaMove_mem_wf {s : State} (h : s.mem.wf = true) : (dmaMove s).mem.wf = true := by
  rw [dmaMove_mem]
  split
  · exact Memory.wf_write _ s.rx.address.isLt h
  · exact h

/-- Settles O55, by the induction over what a step can do: only DMA steps and host stores write memory. -/
theorem stepKeepsMemoryCanonical : Obligations.StepKeepsMemoryCanonical := fun _ _ hs h =>
  step_keeps (P := fun s => s.mem.wf = true)
    (hagenda := fun _ _ h => h) (hseq := fun _ _ h hseq => (sequencerStep_quiet hseq).2.symm ▸ h)
    (hdma := fun _ h _ => dmaMove_mem_wf h) (hissue := fun _ _ h _ _ => h) (hfault := fun _ _ _ h _ _ => h)
    (harg0 := fun _ _ h => h) (harg1 := fun _ _ h => h) (hread := fun _ _ h => h)
    (hstore := fun _ a v h => Memory.wf_write v a.isLt h) (hreset := fun _ h => h) hs h

/-! ### The host's byte accesses (R70; 00_scope.md R9) -/

/-- A host store of a byte: it goes through where the address is admitted, and ends the run elsewhere. -/
theorem step_memoryStore_eq {s : State} {a : Word} {b : Byte} {rest : List Move}
    (hag : s.agenda = .atomic (.memoryStore a b) :: rest) :
    step s = if admits s.params a then .next (memWriteByte a b { s with agenda := rest }) else .fault .hostAccessUnbacked := by
  simp only [step, hag, atomicStep]

/-- A host load of a byte: it delivers what memory holds where the address is admitted, and ends the run elsewhere. -/
theorem step_memoryLoad_eq {s : State} {a : Word} {rest : List Move} (hag : s.agenda = .atomic (.memoryLoad a) :: rest) :
    step s = if admits s.params a then .next { s with agenda := rest, hostData := (s.mem.read a.toNat).setWidth 32 }
      else .fault .hostAccessUnbacked := by
  simp only [step, hag, atomicStep, memReadByte]

/-- Settles O43: what a store leaves is memory's law of a read after a write. -/
theorem hostMemoryAccesses : Obligations.HostMemoryAccesses := by
  refine fun s addr b rest => ⟨fun hwf hadm hag => ?_, fun hadm hag => ?_, fun hadm hag => ?_⟩
  · refine ⟨memWriteByte addr b { s with agenda := rest }, ?_, ?_, fun a ha => Memory.read_write_ne s.mem b ha, rfl⟩
    · rw [step_memoryStore_eq hag, if_pos hadm]
    · exact (Memory.read_write hwf addr.toNat b addr.toNat).trans (if_pos rfl)
  · rw [step_memoryLoad_eq hag, if_pos hadm]
  · rcases hag with hag | hag
    · rw [step_memoryStore_eq hag, hadm]; rfl
    · rw [step_memoryLoad_eq hag, hadm]; rfl

end Sys2Proof.Machine
end

section
/-! SUPPORT. The proofs for the request encoding (30_encoding.md R91 to R95, R106): the decoder and the encoder invert each other, a word
decodes exactly when its fields are well formed, and a row of the match and mask table fixes the fields its operation does not take as
an operand. -/

namespace Sys2Proof

/-! ### The decoder and the encoder -/

theorem decode_encode (i : Instr) : decode (encode i) = .ok i := by
  rw [decode, encode, fieldsOf_assembleFields, decodeFields_fields]

theorem encode_of_decode {w : Word} {i : Instr} (h : decode w = .ok i) : encode i = w := by
  rw [encode, fields_of_decodeFields h, assembleFields_fieldsOf]

/-- Settles O2: no field of a word overlaps another, and the fields of an operation decode to it. -/
theorem decodeInvertsEncode : Obligations.DecodeInvertsEncode := decode_encode

/-- Settles O3: fields that decode are those of the operation, and the fields make up the whole word. -/
theorem encodeInvertsDecode : Obligations.EncodeInvertsDecode := fun _ _ => encode_of_decode

/-! ### Illegal words (R94) -/

/-- The operations without an operand byte: what each OP allows of DIR and FILL. -/
theorem decodeOp_isOk (op : BitVec 6) (dir fill : Bool) (h3 : op ≠ 0x03) (h5 : op ≠ 0x05) :
    (decodeOp op dir fill).isOk = (Fields.mk op dir fill 0 0).wf := by
  revert op dir fill
  decide

theorem withoutFlags_isOk (dir fill : Bool) (i : Instr) : (withoutFlags dir fill i).isOk = (!dir && !fill) := by
  cases dir <;> cases fill <;> rfl

/-- The decoder accepts exactly the well-formed fields. -/
theorem decodeFields_isOk (f : Fields) : (decodeFields f).isOk = f.wf := by
  obtain ⟨op, dir, fill, imm, res⟩ := f
  simp only [decodeFields]
  split_ifs with hres h3 h5 himm
  · simp_all [Fields.wf, Except.isOk, Except.toBool]
  · subst h3
    simp_all [withoutFlags_isOk, Fields.wf, Fields.opKnown, Fields.dirAllowed, Fields.fillAllowed, Fields.immAllowed]
  · subst h5
    simp_all [withoutFlags_isOk, Fields.wf, Fields.opKnown, Fields.dirAllowed, Fields.fillAllowed, Fields.immAllowed]
  · simp_all [Fields.wf, Fields.immAllowed, Except.isOk, Except.toBool]
  · rw [decodeOp_isOk op dir fill h3 h5]
    simp_all

theorem exists_decode_error_iff (w : Word) : (∃ r, decode w = .error r) ↔ (fieldsOf w).wf = false := by
  rw [← decodeFields_isOk, ← decode]
  cases decode w <;> simp [Except.isOk, Except.toBool]

/-- OP is in one of the reserved ranges. -/
theorem opKnown_eq_false_iff (f : Fields) : f.opKnown = false ↔
    (0x07 ≤ f.op ∧ f.op ≤ 0x0F) ∨ (0x14 ≤ f.op ∧ f.op ≤ 0x1F) ∨ 0x25 ≤ f.op := by
  simp only [Fields.opKnown, Bool.or_eq_false_iff, Bool.and_eq_false_iff, decide_eq_false_iff_not, BitVec.le_def,
    BitVec.ofNat_eq_ofNat, BitVec.toNat_ofNat]
  omega

/-- One way to be ill formed for each check. -/
theorem wf_eq_false_iff (f : Fields) : f.wf = false ↔
    f.reserved ≠ 0 ∨ f.opKnown = false ∨ (f.dir = true ∧ ¬ (0x10 ≤ f.op ∧ f.op ≤ 0x13)) ∨
    (f.fill = true ∧ ¬ (f.op = 0x10 ∧ f.dir = false)) ∨ (f.imm8 ≠ 0 ∧ f.op ≠ 0x03 ∧ f.op ≠ 0x05) := by
  simp only [Fields.wf, Fields.dirAllowed, Fields.fillAllowed, Fields.immAllowed, Bool.and_eq_false_iff, Bool.or_eq_false_iff,
    beq_eq_false_iff_ne, decide_eq_false_iff_not, Bool.not_eq_false']
  grind

/-- Settles O5: the decoder accepts exactly the well-formed fields, and the five cases are the five ways to fail their checks. -/
theorem illegalWordsAreListed : Obligations.IllegalWordsAreListed := by
  intro w
  rw [exists_decode_error_iff, wf_eq_false_iff, opKnown_eq_false_iff]
  rfl

/-- Settles O1: each listed word evaluates, the illegal ones to a rejection. -/
theorem decodeReadsVectorWords : Obligations.DecodeReadsVectorWords := by
  refine ⟨by decide, by decide, by decide, ?_⟩
  simp only [List.forall_mem_cons]
  exact ⟨⟨_, rfl⟩, ⟨_, rfl⟩, ⟨_, rfl⟩, ⟨_, rfl⟩, ⟨_, rfl⟩, ⟨_, rfl⟩, ⟨_, rfl⟩, ⟨_, rfl⟩, ⟨_, rfl⟩, ⟨_, rfl⟩, ⟨_, rfl⟩,
    ⟨_, rfl⟩, ⟨_, rfl⟩, ⟨_, rfl⟩, nofun⟩

/-! ### The match and mask table (R93) -/

/-- Bitwise and, field by field. -/
def Fields.and (f g : Fields) : Fields :=
  { op := f.op &&& g.op, dir := f.dir && g.dir, fill := f.fill && g.fill, imm8 := f.imm8 &&& g.imm8,
    reserved := f.reserved &&& g.reserved }

theorem assembleFields_and (f g : Fields) : assembleFields f &&& assembleFields g = assembleFields (f.and g) := by
  have hand : ∀ {m n : Nat} (a b : BitVec m) (c d : BitVec n), (a ++ c) &&& (b ++ d) = (a &&& b) ++ (c &&& d) :=
    fun _ _ _ _ => BitVec.and_append
  refine (hand _ _ _ _).trans ?_
  rw [hand, hand, hand, BitVec.ofBool_and_ofBool, BitVec.ofBool_and_ofBool]
  rfl

theorem assembleFields_inj {f g : Fields} : assembleFields f = assembleFields g ↔ f = g :=
  (Function.LeftInverse.injective fieldsOf_assembleFields).eq_iff

/-- Every bit 0. -/
def Fields.zeros : Fields := { op := 0, dir := false, fill := false, imm8 := 0, reserved := 0 }

/-- Every bit 1. -/
def Fields.ones : Fields :=
  { op := BitVec.allOnes 6, dir := true, fill := true, imm8 := BitVec.allOnes 8, reserved := BitVec.allOnes 16 }

/-- The fields an operation's row fixes: all but the one that holds its operand. -/
def Instr.fixedFields : Instr → Fields
  | .writeByte _ | .sendCommand _ => { Fields.ones with imm8 := 0 }
  | .dmaConfigure _ | .dmaEnable _ | .dmaIsComplete _ | .dmaDisable _ => { Fields.ones with dir := false }
  | _ => Fields.ones

/-- The operation with its operand read from the fields `f`. -/
def Instr.withOperand (f : Fields) : Instr → Instr
  | .writeByte _ => .writeByte f.imm8
  | .sendCommand _ => .sendCommand f.imm8
  | .dmaConfigure _ => .dmaConfigure (chanOf f.dir)
  | .dmaEnable _ => .dmaEnable (chanOf f.dir)
  | .dmaIsComplete _ => .dmaIsComplete (chanOf f.dir)
  | .dmaDisable _ => .dmaDisable (chanOf f.dir)
  | i => i

/-- The row of an operation: its mnemonic, its word with operand 0, and the bits that are fixed. -/
def Instr.row (i : Instr) : TableRow := (mnemonic i, encode (i.withOperand Fields.zeros), assembleFields i.fixedFields)

@[simp] theorem chanOf_dir (ch : Chan) : chanOf ch.dir = ch := by cases ch <;> rfl
@[simp] theorem dir_chanOf (dir : Bool) : (chanOf dir).dir = dir := by cases dir <;> rfl

theorem mnemonic_withOperand (f : Fields) (i : Instr) : mnemonic (i.withOperand f) = mnemonic i := by cases i <;> rfl

theorem withOperand_fields (i : Instr) : i.withOperand i.fields = i := by
  cases i <;> simp [Instr.withOperand, Instr.fields]

/-- Fields agree with an operation on what its row fixes exactly when they are the operation's fields for some operand, which is then
their own. -/
theorem and_fixedFields_eq_iff (i : Instr) (f : Fields) :
    f.and i.fixedFields = (i.withOperand Fields.zeros).fields ↔ (i.withOperand f).fields = f := by
  rw [eq_comm (b := f)]
  obtain ⟨op, dir, fill, imm, res⟩ := f
  cases i <;> simp [-BitVec.reduceAllOnes, Fields.and, Instr.fixedFields, Fields.ones, Fields.zeros, Instr.withOperand, Instr.fields]

/-- A word spells the row of `i` exactly when it is the word of `i` with some operand, which is then the word's own. -/
theorem spells_row_iff (w : Word) (i : Instr) :
    w &&& i.row.2.2 = i.row.2.1 ↔ encode (i.withOperand (fieldsOf w)) = w :=
  calc w &&& i.row.2.2 = i.row.2.1
    _ ↔ (fieldsOf w).and i.fixedFields = (i.withOperand Fields.zeros).fields := by
      rw [← assembleFields_inj, ← assembleFields_and, assembleFields_fieldsOf]; rfl
    _ ↔ (i.withOperand (fieldsOf w)).fields = fieldsOf w := and_fixedFields_eq_iff i (fieldsOf w)
    _ ↔ encode (i.withOperand (fieldsOf w)) = w := by
      rw [← assembleFields_inj, assembleFields_fieldsOf, encode]

/-- The operations in the order of the table. -/
def operations : List Instr :=
  [.nop, .select, .deselect, .writeByte 0, .readByte, .sendCommand 0, .waitNotBusy, .dmaConfigure .tx, .dmaConfigureFill,
   .dmaEnable .tx, .dmaIsComplete .tx, .dmaDisable .tx, .openWrite, .transfer, .closeWrite, .openRead, .closeRead]

theorem matchMaskTable_eq : matchMaskTable = operations.map Instr.row := by decide

theorem row_mem_matchMaskTable (i : Instr) : i.row ∈ matchMaskTable := by
  have hzero : i.withOperand Fields.zeros ∈ operations := by
    cases i <;> simp [Instr.withOperand, operations, Fields.zeros, chanOf]
  have hrow : i.row = (i.withOperand Fields.zeros).row := by cases i <;> rfl
  rw [matchMaskTable_eq, hrow]
  exact List.mem_map_of_mem hzero

/-- Each mnemonic names one row. -/
theorem row_eq_of_mnemonic {row row' : TableRow} (h : row ∈ matchMaskTable) (h' : row' ∈ matchMaskTable) (hname : row.1 = row'.1) :
    row = row' :=
  List.inj_on_of_nodup_map (f := Prod.fst) (by decide) h h' hname

/-- A word spells a row exactly when it decodes to an operation of that row. -/
theorem spells_iff_decodes (w : Word) {row : TableRow} (hrow : row ∈ matchMaskTable) :
    w &&& row.2.2 = row.2.1 ↔ ∃ i, decode w = .ok i ∧ mnemonic i = row.1 ∧ encode i = w := by
  constructor
  · intro h
    obtain ⟨i, -, rfl⟩ := List.mem_map.mp (matchMaskTable_eq ▸ hrow)
    have henc := (spells_row_iff w i).mp h
    exact ⟨i.withOperand (fieldsOf w), by rw [← decode_encode, henc], mnemonic_withOperand _ i, henc⟩
  · rintro ⟨i, -, hname, rfl⟩
    rw [← row_eq_of_mnemonic (row_mem_matchMaskTable i) hrow hname, spells_row_iff]
    exact congrArg encode (by rw [encode, fieldsOf_assembleFields, withOperand_fields])

/-- Settles O4: a word that spells two rows decodes to one operation, whose mnemonic names both. -/
theorem decodeAgreesWithTable : Obligations.DecodeAgreesWithTable := by
  refine ⟨fun w row hrow => spells_iff_decodes w hrow, fun w row hrow row' hrow' h h' => ?_⟩
  obtain ⟨i, hi, hname, -⟩ := (spells_iff_decodes w hrow).mp h
  obtain ⟨j, hj, hname', -⟩ := (spells_iff_decodes w hrow').mp h'
  obtain rfl : i = j := Except.ok.inj (hi.symm.trans hj)
  exact row_eq_of_mnemonic hrow hrow' (hname.symm.trans hname')

end Sys2Proof
end

section
/-! SUPPORT. The proofs for the requests of 30_encoding.md: the card byte address and the data-response token (R97, R101), the step a
request and a write of CMD take (R107), and the expansion of a request with its POLL (R104, R105). -/

namespace Sys2Proof.Machine

/-! ### Words on the wire (R97, R101) -/

/-- Masking with DR_MASK keeps the low nibble. -/
theorem and_drMask (t : Byte) : t &&& drMask = (t.extractLsb' 0 4).setWidth 8 := by
  apply BitVec.eq_of_toNat_eq
  calc (t &&& drMask).toNat
    _ = t.toNat % 2 ^ 4 := (BitVec.toNat_and t drMask).trans (Nat.and_two_pow_sub_one_eq_mod t.toNat 4)
    _ = ((t.extractLsb' 0 4).setWidth 8).toNat := by
      simp only [BitVec.toNat_setWidth, BitVec.extractLsb'_toNat, Nat.shiftRight_zero]
      omega

/-- Settles O25: the masked token is its low nibble, and widening a nibble to a byte is injective. -/
theorem tokenAcceptedByLowNibble : Obligations.TokenAcceptedByLowNibble := by
  intro p t
  have hinj : Function.Injective (BitVec.setWidth 8 : BitVec 4 → Byte) := by
    intro a b h
    have := congrArg (BitVec.setWidth 4) h
    simpa using this
  rw [tokenAccepted, beq_iff_eq, and_drMask, hinj.eq_iff]

theorem sectorAddress_toNat (index : BitVec 23) : (sectorAddress index).toNat = index.toNat * 512 := by
  have := index.isLt
  simp only [sectorAddress, sectorShift, BitVec.toNat_shiftLeft, BitVec.toNat_setWidth, Nat.shiftLeft_eq]
  omega

/-- Settles O24: the shift by 9 multiplies a 23-bit index by 512 within 32 bits, and the bit fields are its remainder and quotient. -/
theorem sectorAddressIsIndexTimes512 : Obligations.SectorAddressIsIndexTimes512 := by
  intro index
  have haddr := sectorAddress_toNat index
  have hlt := index.isLt
  refine ⟨haddr, BitVec.eq_of_toNat_eq ?_, BitVec.eq_of_toNat_eq ?_⟩ <;>
    simp only [BitVec.extractLsb'_toNat, haddr, Nat.shiftRight_eq_div_pow, BitVec.ofNat_eq_ofNat, BitVec.toNat_ofNat] <;> omega

/-! ### Requests and CMD writes (R107) -/

theorem step_request {s : State} {w : Word} {rest : List Move} {i : Instr} (ha : s.agenda = .request w :: rest)
    (hw : decode w = .ok i) : step s = exec i { s with agenda := rest } := by
  simp only [step, ha, hw]

/-- Settles O6: the placed word is 32 bits wide, so placing it loses nothing. -/
theorem stepRunsDecodedRequest : Obligations.StepRunsDecodedRequest := by
  refine ⟨fun s w rest i ha hw => step_request ha hw, fun s w i hw => ?_⟩
  have hword : BitVec.ofNat 32 (w.toNat % 2 ^ 32) = w := by rw [Nat.mod_eq_of_lt w.isLt, BitVec.ofNat_toNat, BitVec.setWidth_eq]
  exact step_request (s := s.withFetchWord 32 w.toNat) (rest := s.agenda) rfl (hword.symm ▸ hw)

/-- A write of CMD, as one atomic step, is the issue step of its word. -/
theorem step_cmdWrite {s : State} {w : Word} {rest : List Move}
    (ha : s.agenda = .atomic (.windowWrite 32 s.params.sbtBase w) :: rest) :
    step s = .next (issueWord w { s with agenda := rest }) := by
  simp only [step, ha, atomicStep, windowOffset_base]; rfl

/-- Settles O7: the cases of the issue step, where its checks find the code of the fault table and the word is the operation's own. -/
theorem cmdWriteIssues : Obligations.CmdWriteIssues := by
  intro s w rest ha
  rw [step_cmdWrite ha]
  congr 1
  unfold issueWord
  cases hw : decode w with
  | error r => rfl
  | ok i =>
    simp only [issueThen, encode_of_decode hw, issueCheck_agenda, firstStatement_agenda]
    by_cases hf : s.faulted = true
    · rw [if_pos hf, if_pos hf]
    by_cases hb : s.busy = true
    · rw [if_neg hf, if_neg hf, if_pos hb, if_pos hb]; rfl
    rw [if_neg hf, if_neg hf, if_neg hb, if_neg hb, issueCheck_eq_faultOf i s (by simpa using hb)]
    cases faultOf i s <;> rfl

/-! ### The expansion of a request (R104, R105) -/

theorem pollAgain_agent {a : Atomic} (later : List Move) (h : a.byHost = false) :
    pollAgain (.atomic a :: later) = .atomic a :: .poll :: later := by
  simp [pollAgain, h]

theorem pollAgain_own {rest : List Move} (h : ∀ a later, rest = .atomic a :: later → a.byHost = true) :
    pollAgain rest = .atomic .own :: .poll :: rest := by
  unfold pollAgain
  split
  · next a later => rw [if_pos (h a later rfl)]
  · rfl

/-- A faulted SBT takes no step of its own (60_exceptions.md R227). -/
theorem ownStep_faulted {s : State} (h : s.faulted = true) : ownStep s = s := by
  simp [ownStep, sequencerStep?, dmaStep?, dmaEnabled, h]

/-- `W32` at an offset of the window, as the next move. -/
theorem core_run_w32 (n : Nat) (s : State) (rest : List Move) {off : Nat} (v : Word) (h4 : off % 4 = 0) (hlt : off < 0x100) :
    core.run (n + 1) { s with agenda := w32 s.params (BitVec.ofNat 32 off) v :: rest } =
      core.run n (windowStore off v { s with agenda := rest }) := by
  refine core_run_succ n ?_
  simp only [step, w32, atomicStep, windowOffset_inside s.params off h4 hlt]

/-- The `W32` of an argument register, which the expansion has only where the request gives a value. -/
theorem core_run_argWrite (s : State) (rest : List Move) {off : Nat} (o : Option Word) (h4 : off % 4 = 0) (hlt : off < 0x100) :
    ∃ k, ∀ m, core.run (k + m) { s with agenda := (o.map (w32 s.params (BitVec.ofNat 32 off))).toList ++ rest } =
      core.run m (o.elim { s with agenda := rest } fun v => windowStore off v { s with agenda := rest }) := by
  cases o with
  | none => exact ⟨0, fun m => by rw [Nat.zero_add]; rfl⟩
  | some v => exact ⟨1, fun m => by rw [Nat.add_comm]; exact core_run_w32 m s rest v h4 hlt⟩

/-- The argument registers are written, as far as values are given, and the write of CMD comes next. -/
theorem core_run_args (s : State) (r : Request) :
    ∃ k, ∀ m, core.run (k + m) { s with agenda := r.moves s.params } =
      core.run m { s with arg0 := r.arg0.getD s.arg0, arg1 := r.arg1.getD s.arg1,
                          agenda := [w32 s.params 0x00 (encode r.op), .poll] } := by
  obtain ⟨op, a0, a1⟩ := r
  obtain ⟨k0, h0⟩ := core_run_argWrite s ((a1.map (w32 s.params 0x08)).toList ++ [w32 s.params 0x00 (encode op), .poll])
    (off := 0x04) a0 rfl (by omega)
  obtain ⟨k1, h1⟩ := core_run_argWrite { s with arg0 := a0.getD s.arg0 } [w32 s.params 0x00 (encode op), .poll]
    (off := 0x08) a1 rfl (by omega)
  refine ⟨k0 + k1, fun m => ?_⟩
  rw [Nat.add_assoc, Request.moves, List.append_assoc]
  refine (h0 (k1 + m)).trans (Eq.trans ?_ ((h1 m).trans ?_))
  · cases a0 <;> rfl
  · cases a1 <;> rfl

/-- The schedule plays no part in the issue step. -/
theorem issueWord_agenda (i : Instr) (s : State) (l : List Move) :
    issueWord (encode i) { s with agenda := l } = { issueWord (encode i) s with agenda := l } := by
  rw [issueWord_encode, issueWord_encode, issueCheck_agenda, firstStatement_agenda]
  unfold issueThen
  by_cases hf : s.faulted = true
  · rw [if_pos hf, if_pos hf]
  by_cases hb : s.busy = true
  · rw [if_neg hf, if_neg hf, if_pos hb, if_pos hb]; rfl
  rw [if_neg hf, if_neg hf, if_neg hb, if_neg hb]
  cases issueCheck i s <;> rfl

theorem core_run_cmdWrite (n : Nat) (i : Instr) (s : State) :
    core.run (n + 1) { s with agenda := [w32 s.params 0x00 (encode i), .poll] } =
      core.run n { issueWord (encode i) s with agenda := [.poll] } := by
  rw [← issueWord_agenda]
  exact core_run_w32 n s [.poll] (off := 0) (encode i) rfl (by omega)

/-- POLL goes on from the issue step until the SBT reaches the state `exec` answers; if that is busy, the SBT stays there. -/
theorem core_run_issued (i : Instr) (s : State) :
    ∃ t, exec i s = .next t ∧ (t.busy = true → ownStep t = t) ∧
      ∃ n v, ∀ m, core.run (n + m) { issueWord (encode i) s with agenda := [.poll] } = core.run m (t.hosted [.poll] v) := by
  rw [issueWord_encode]
  unfold issueThen
  rcases exec_cases i s with ⟨hf, he⟩ | ⟨hf, hb, he⟩ | ⟨⟨hf, hb⟩, code, hc, he⟩ | ⟨ha, hc, he⟩
  · exact ⟨s, he, fun _ => ownStep_faulted hf, 0, s.hostData, fun m => by rw [Nat.zero_add, if_pos hf]; rfl⟩
  · exact ⟨_, he, nofun, 0, s.hostData, fun m => by rw [Nat.zero_add, hf, hb]; rfl⟩
  · exact ⟨_, he, nofun, 0, s.hostData, fun m => by rw [Nat.zero_add, hf, hb, hc]; rfl⟩
  · obtain ⟨n, hn, hbusy⟩ := reaches_wholeRun i ha
    obtain ⟨v, hv⟩ := core_run_poll (s := (latch i (firstStatement i s) s).hosted [.poll] s.hostData) n rfl
      fun j hj => by rw [ownSteps_hosted]; exact hbusy j hj
    rw [ownSteps_hosted, hn] at hv
    exact ⟨_, he, wholeRun_holds i ha, 2 * n, v, fun m => by rw [ha.1, ha.2, hc]; exact hv m⟩

/-- The expansion leads, with POLL still to come, to the state `exec` answers. -/
theorem core_run_expansion (s : State) (r : Request) :
    ∃ t, exec r.op { s with agenda := [], arg0 := r.arg0.getD s.arg0, arg1 := r.arg1.getD s.arg1 } = .next t ∧
      (t.busy = true → ownStep t = t) ∧
      ∃ n v, ∀ m, core.run (n + m) { s with agenda := r.moves s.params } = core.run m (t.hosted [.poll] v) := by
  obtain ⟨k, hargs⟩ := core_run_args s r
  obtain ⟨t, he, hholds, n, v, hn⟩ :=
    core_run_issued r.op { s with agenda := [], arg0 := r.arg0.getD s.arg0, arg1 := r.arg1.getD s.arg1 }
  refine ⟨t, he, hholds, k + (n + 1), v, fun m => ?_⟩
  rw [Nat.add_assoc, Nat.add_right_comm]
  exact (hargs _).trans ((core_run_cmdWrite (n + m) r.op _).trans (hn m))

/-- Settles O44: the expansion leads to POLL at the state `exec` answers, which ends POLL at its next read or never changes again. -/
theorem expansionRunsOperation : Obligations.ExpansionRunsOperation := by
  refine ⟨fun s rest ha => ⟨fun hb => step_poll_idle ha hb, fun hb => ⟨?_, fun hhost => ?_⟩⟩, fun s r => ?_⟩
  · rintro a later rfl hagent
    rw [step_poll_busy ha hb, pollAgain_agent later hagent]; rfl
  · rw [step_poll_busy ha hb, pollAgain_own hhost]; rfl
  · obtain ⟨t, he, hholds, n, v, hn⟩ := core_run_expansion s r
    have hagenda : t.agenda = [] := (exec_keepsHost he).2.2.2.1
    refine ⟨t, he, fun hb => ⟨n + 1, ?_⟩, fun hb => ⟨n, fun m => ?_⟩⟩
    · have hlast : step (t.hosted [.poll] v) = .next (t.hosted t.agenda (statusWord t)) := by
        rw [hagenda]; exact step_poll_idle rfl hb
      exact (hn 1).trans ((core_run_one _).trans hlast)
    · rw [hn]; exact core_run_poll_holds (hholds hb) hb m v

end Sys2Proof.Machine
end

section
/-! SUPPORT. The proofs for the block transport (40_transport.md R121 to R128): the state each operation's run leaves from its issue, what
each operation that passes its checks completes with, and what all of them leave unchanged. -/

namespace Sys2Proof.Machine

/-! ### The run of each operation, from its issue at position `p` -/

theorem wholeRun_nop (p : Pos) (s : State) : wholeRun .nop (latch .nop p s) = s.completed .ok 0 := rfl

theorem wholeRun_select (p : Pos) (s : State) :
    wholeRun .select (latch .select p s) = { s with cs := true }.completed .ok 0 := rfl

theorem wholeRun_deselect (p : Pos) (s : State) :
    wholeRun .deselect (latch .deselect p s) = { s with cs := false }.completed .ok 0 := rfl

theorem wholeRun_writeByte (b : Byte) (p : Pos) (s : State) :
    wholeRun (.writeByte b) (latch (.writeByte b) p s) = (s.exchanged [⟨s.cs, b, cardAnswer b s⟩]).completed .ok 0 := by
  rw [wholeRun, runWriteByte, uWrite_eq]; rfl

theorem wholeRun_readByte (p : Pos) (s : State) :
    wholeRun .readByte (latch .readByte p s) =
      (s.exchanged [⟨s.cs, 0xFF, cardAnswer 0xFF s⟩]).completed .ok (cardAnswer 0xFF s) := by
  rw [wholeRun, runReadByte, uRead_snd, afterExchange_eq]; rfl

theorem wholeRun_sendCommand (o : Byte) (p : Pos) (s : State) :
    ∃ r h, wholeRun (.sendCommand o) (latch (.sendCommand o) p s) = ({ s with cs := true }.exchanged h).completed .ok r ∧
      CommandExchanges s.params o s.arg0 r h ∧ answersScripted s h := by
  obtain ⟨h, hstate, hwire, hscript⟩ := uCommand_spec o s.arg0 (latch (.sendCommand o) p s)
  refine ⟨_, h, ?_, hwire, answersScripted_congr rfl hscript⟩
  rw [wholeRun, runSendCommand, latch_larg0, hstate]; rfl

theorem boolByte_eq (b : Bool) : boolByte b = if b = true then 1 else 0 := by cases b <;> rfl

theorem wholeRun_waitNotBusy (p : Pos) (s : State) :
    ∃ ok h, wholeRun .waitNotBusy (latch .waitNotBusy p s) =
        ({ s with cs := false }.exchanged h).completed .ok (if ok = true then 1 else 0) ∧
      BusyPoll s.params s.arg0.toNat ok h ∧ answersScripted s h := by
  obtain ⟨h, hstate, hpoll, hscript⟩ := uWaitNotBusy_spec s.arg0 (latch .waitNotBusy p s)
  refine ⟨_, h, ?_, hpoll, answersScripted_congr rfl hscript⟩
  rw [wholeRun, runWaitNotBusy, latch_larg0, hstate, boolByte_eq]; rfl

/-! ### What each operation completes with -/

/-- All the transport operations but NOP make the same checks (R128). -/
theorem exec_transport {i : Instr} {s : State} (hi : isTransport i = true) (h : s.quiet) :
    exec i s = .next (wholeRun i (latch i (firstStatement i s) s)) := by
  refine exec_accepted h.1 ?_
  have hcheck := transportCheck_quiet h
  cases i with
  | select | deselect | writeByte _ | readByte | sendCommand _ | waitNotBusy => exact hcheck
  | _ => cases hi

/-- Settles O14: the run is the command of R120 with the latched ARG0. -/
theorem sendCommandCompletes : Obligations.SendCommandCompletes := by
  intro s o h
  obtain ⟨r, l, hrun, hspec⟩ := wholeRun_sendCommand o (firstStatement (.sendCommand o) s) s
  exact ⟨r, l, by rw [exec_transport rfl h, hrun], hspec⟩

/-- Settles O15: the run is the busy poll of R120 with the latched ARG0 as its bound. -/
theorem waitNotBusyCompletes : Obligations.WaitNotBusyCompletes := by
  intro s h
  obtain ⟨ok, l, hrun, hspec⟩ := wholeRun_waitNotBusy (firstStatement .waitNotBusy s) s
  exact ⟨ok, l, by rw [exec_transport rfl h, hrun], hspec⟩

/-- Settles O10. -/
theorem nopSelectDeselectComplete : Obligations.NopSelectDeselectComplete := by
  intro s
  refine ⟨fun h => ?_, fun h => ?_, fun h => ?_⟩
  · rw [exec_accepted h rfl, wholeRun_nop]
  · rw [exec_transport rfl h, wholeRun_select]
  · rw [exec_transport rfl h, wholeRun_deselect]

/-- Settles O11. -/
theorem writeByteCompletes : Obligations.WriteByteCompletes := by
  intro s b h
  rw [exec_transport rfl h, wholeRun_writeByte]

/-- Settles O12. -/
theorem readByteCompletes : Obligations.ReadByteCompletes := by
  intro s h
  rw [exec_transport rfl h, wholeRun_readByte]

/-! ### What the operations leave unchanged -/

/-- Every transport operation, once issued, completes with OK and changes only chip-select and the wire; NOP, WRITE_BYTE and READ_BYTE keep
chip-select, and NOP, SELECT and DESELECT make no exchange. -/
theorem wholeRun_transport {i : Instr} (hi : i = .nop ∨ isTransport i = true) (p : Pos) (s : State) :
    ∃ data cs h, wholeRun i (latch i p s) = ({ s with cs := cs }.exchanged h).completed .ok data ∧
      (i = .nop ∨ i = .readByte ∨ (∃ b, i = .writeByte b) → cs = s.cs) ∧
      (i = .nop ∨ i = .select ∨ i = .deselect → h = []) := by
  cases i with
  | nop => exact ⟨0, s.cs, [], by rw [wholeRun_nop, State.exchanged_nil], fun _ => rfl, fun _ => rfl⟩
  | select => exact ⟨0, true, [], by rw [wholeRun_select, State.exchanged_nil], by simp, fun _ => rfl⟩
  | deselect => exact ⟨0, false, [], by rw [wholeRun_deselect, State.exchanged_nil], by simp, fun _ => rfl⟩
  | writeByte b => exact ⟨0, s.cs, _, wholeRun_writeByte b p s, fun _ => rfl, by simp⟩
  | readByte => exact ⟨_, s.cs, _, wholeRun_readByte p s, fun _ => rfl, by simp⟩
  | sendCommand o =>
    obtain ⟨r, h, hrun, -⟩ := wholeRun_sendCommand o p s
    exact ⟨r, true, h, hrun, by simp, by simp⟩
  | waitNotBusy =>
    obtain ⟨ok, h, hrun, -⟩ := wholeRun_waitNotBusy p s
    exact ⟨_, false, h, hrun, by simp, by simp⟩
  | _ => simp [isTransport] at hi

/-- Settles O16: a request is ignored, changes only the fault record and the sequencer, or runs and changes only chip-select, the wire and
RESULT besides. -/
theorem transportFrame : Obligations.TransportFrame := by
  intro i s t hi h
  rcases exec_next h with rfl | ⟨code, rfl, hfaulted⟩ | ⟨-, -, rfl⟩
  · exact ⟨⟨rfl, rfl, rfl⟩, ⟨rfl, rfl, rfl, rfl⟩, fun _ => rfl, fun _ => rfl, fun _ => rfl, fun _ => ⟨rfl, rfl⟩⟩
  · have hentry : (s.withFault code (encode i)).faulted ≠ s.faulted := by rw [hfaulted]; nofun
    exact ⟨⟨rfl, rfl, rfl⟩, ⟨rfl, rfl, rfl, rfl⟩, fun _ => rfl, fun _ => rfl, fun _ => rfl, fun hf => absurd hf hentry⟩
  · obtain ⟨data, cs, l, hrun, hcs, hwire⟩ := wholeRun_transport hi (firstStatement i s) s
    rw [hrun]
    refine ⟨⟨rfl, rfl, rfl⟩, ⟨rfl, rfl, rfl, rfl⟩, fun _ => rfl, hcs, fun hq => ?_, fun _ => ⟨rfl, rfl⟩⟩
    rw [hwire hq]; exact List.append_nil s.history

end Sys2Proof.Machine
end

section
/-! SUPPORT. The proofs for the DMA channels (41_dma.md R152 to R161): the state each operation's run leaves from its issue, what all of them
leave unchanged, what each operation that passes its checks completes with, and the engine's turn. -/

namespace Sys2Proof.Machine

/-! ### The run of each operation, from its issue at position `p` -/

theorem wholeRun_dmaConfigure (ch : Chan) (p : Pos) (s : State) :
    wholeRun (.dmaConfigure ch) (latch (.dmaConfigure ch) p s) =
      (uLoad ch s.arg0 (countOperand s.arg1) false s).completed .ok 0 := by
  cases ch <;> rfl

theorem wholeRun_dmaConfigureFill (p : Pos) (s : State) :
    wholeRun .dmaConfigureFill (latch .dmaConfigureFill p s) = (uLoad .tx 0 (countOperand s.arg1) true s).completed .ok 0 := rfl

theorem wholeRun_dmaEnable (ch : Chan) (p : Pos) (s : State) :
    wholeRun (.dmaEnable ch) (latch (.dmaEnable ch) p s) = (uEnable ch s).completed .ok 0 := by
  cases ch <;> rfl

theorem wholeRun_dmaIsComplete (ch : Chan) (p : Pos) (s : State) :
    wholeRun (.dmaIsComplete ch) (latch (.dmaIsComplete ch) p s) =
      s.completed .ok (if (s.chan ch).done = true then 1 else 0) := by
  rw [← boolByte_eq]
  cases ch <;> rfl

theorem wholeRun_dmaDisable (ch : Chan) (p : Pos) (s : State) :
    wholeRun (.dmaDisable ch) (latch (.dmaDisable ch) p s) = (uDisable ch s).completed .ok 0 := by
  cases ch <;> rfl

/-! ### What the operations leave unchanged -/

/-- `t` is `s` but for the record of `ch`; FILL belongs to TX (10_state.md R40). -/
structure OnlyChannel (ch : Chan) (s t : State) : Prop where
  outside : t = { s with tx := t.tx, rx := t.rx, txFill := t.txFill }
  ofTx    : ch = .tx → t.rx = s.rx
  ofRx    : ch = .rx → t.tx = s.tx ∧ t.txFill = s.txFill

theorem OnlyChannel.refl (ch : Chan) (s : State) : OnlyChannel ch s s := ⟨rfl, fun _ => rfl, fun _ => ⟨rfl, rfl⟩⟩

theorem setChan_onlyChannel (ch : Chan) (c : Channel) (s : State) : OnlyChannel ch s (s.setChan ch c) := by
  cases ch
  · exact ⟨rfl, fun _ => rfl, nofun⟩
  · exact ⟨rfl, nofun, fun _ => ⟨rfl, rfl⟩⟩

/-- A load of TX writes FILL besides the record. -/
theorem uLoad_onlyChannel (ch : Chan) (p : Word) (n : BitVec 16) (f : Bool) (s : State) : OnlyChannel ch s (uLoad ch p n f s) := by
  cases ch
  · exact ⟨rfl, fun _ => rfl, nofun⟩
  · exact setChan_onlyChannel .rx _ s

theorem uEnable_onlyChannel (ch : Chan) (s : State) : OnlyChannel ch s (uEnable ch s) := setChan_onlyChannel ch _ s

theorem uDisable_onlyChannel (ch : Chan) (s : State) : OnlyChannel ch s (uDisable ch s) := setChan_onlyChannel ch _ s

/-- Every DMA operation, once issued, completes with OK and changes only the record of its channel; DMA_IS_COMPLETE changes no record. -/
theorem wholeRun_dma {i : Instr} {ch : Chan}
    (hi : i = .dmaConfigure ch ∨ (i = .dmaConfigureFill ∧ ch = .tx) ∨ i = .dmaEnable ch ∨ i = .dmaIsComplete ch ∨ i = .dmaDisable ch)
    (p : Pos) (s : State) :
    ∃ data u, wholeRun i (latch i p s) = u.completed .ok data ∧ OnlyChannel ch s u ∧ (i = .dmaIsComplete ch → u = s) := by
  rcases hi with rfl | ⟨rfl, rfl⟩ | rfl | rfl | rfl
  · exact ⟨_, _, wholeRun_dmaConfigure ch p s, uLoad_onlyChannel .., nofun⟩
  · exact ⟨_, _, wholeRun_dmaConfigureFill p s, uLoad_onlyChannel .., nofun⟩
  · exact ⟨_, _, wholeRun_dmaEnable ch p s, uEnable_onlyChannel .., nofun⟩
  · exact ⟨_, _, wholeRun_dmaIsComplete ch p s, .refl ch s, fun _ => rfl⟩
  · exact ⟨_, _, wholeRun_dmaDisable ch p s, uDisable_onlyChannel .., nofun⟩

/-- Settles O21: a request is ignored, changes only the fault record and the sequencer, or runs and changes only the record of its channel and
RESULT besides. -/
theorem dmaFrame : Obligations.DmaFrame := by
  intro i s t ch hi h
  rcases exec_next h with rfl | ⟨code, rfl, hfaulted⟩ | ⟨-, -, rfl⟩
  · exact ⟨⟨rfl, rfl, rfl, rfl, rfl⟩, ⟨rfl, rfl, fun _ => rfl⟩, fun _ => rfl, fun _ => ⟨rfl, rfl⟩, fun _ => ⟨rfl, rfl, rfl⟩,
      fun _ => ⟨rfl, rfl⟩⟩
  · have hentry : (s.withFault code (encode i)).faulted ≠ s.faulted := by rw [hfaulted]; nofun
    exact ⟨⟨rfl, rfl, rfl, rfl, rfl⟩, ⟨rfl, rfl, fun _ => rfl⟩, fun _ => rfl, fun _ => ⟨rfl, rfl⟩, fun _ => ⟨rfl, rfl, rfl⟩,
      fun hf => absurd hf hentry⟩
  · obtain ⟨data, u, hrun, ⟨hout, htx, hrx⟩, hread⟩ := wholeRun_dma hi (firstStatement i s) s
    rw [hrun]
    refine ⟨?_, ?_, htx, hrx, fun hq => ?_, ?_⟩
    · rw [hout]; exact ⟨rfl, rfl, rfl, rfl, rfl⟩
    · rw [hout]; exact ⟨rfl, rfl, fun _ => rfl⟩
    · rw [hread hq]; exact ⟨rfl, rfl, rfl⟩
    · rw [hout]; exact fun _ => ⟨rfl, rfl⟩

/-! ### What each operation completes with -/

/-- A load passes its checks outside a session, with a count of 16 bits and its channel disabled (R155, R156). -/
theorem checkDmaConfigure_none {ch : Chan} {s : State} (hopen : sessionOpen s = false) (hcount : s.arg1.extractLsb' 16 16 = 0)
    (hen : (s.chan ch).en = false) : checkDmaConfigure ch s = none := by
  have hrange : countOutOfRange s.arg1 = false := by rw [countOutOfRange, hcount]; rfl
  rw [checkDmaConfigure, hopen, hrange, hen]; rfl

/-- Settles O17: each load runs `uLoad` of R160 with the latched operands. -/
theorem dmaConfigureCompletes : Obligations.DmaConfigureCompletes := by
  intro s ha hopen hcount
  refine ⟨fun hen => ?_, fun hen => ?_, fun hen => ?_⟩
  · rw [exec_accepted (i := .dmaConfigure .tx) ha (checkDmaConfigure_none hopen hcount hen), wholeRun_dmaConfigure]; rfl
  · rw [exec_accepted (i := .dmaConfigure .rx) ha (checkDmaConfigure_none hopen hcount hen), wholeRun_dmaConfigure]; rfl
  · rw [exec_accepted (i := .dmaConfigureFill) ha (checkDmaConfigure_none (ch := .tx) hopen hcount hen), wholeRun_dmaConfigureFill]; rfl

/-- DMA_ENABLE passes its checks outside a session, with its channel disabled and loaded at some time since reset (R157). -/
theorem exec_dmaEnable {ch : Chan} {s : State} (ha : s.accepts) (hopen : sessionOpen s = false) (hen : (s.chan ch).en = false)
    (hcfg : (s.chan ch).cfg = true) : exec (.dmaEnable ch) s = .next ((uEnable ch s).completed .ok 0) := by
  have hcheck : issueCheck (.dmaEnable ch) s = none := by rw [issueCheck, checkDmaEnable, hopen, hen, hcfg]; rfl
  rw [exec_accepted ha hcheck, wholeRun_dmaEnable]

/-- Settles O18: `uEnable` of R160 on each channel. -/
theorem dmaEnableCompletes : Obligations.DmaEnableCompletes := fun _ ha hopen =>
  ⟨exec_dmaEnable (ch := .tx) ha hopen, exec_dmaEnable (ch := .rx) ha hopen⟩

/-- DMA_IS_COMPLETE makes no checks (R158). -/
theorem exec_dmaIsComplete (ch : Chan) {s : State} (ha : s.accepts) :
    exec (.dmaIsComplete ch) s = .next (s.completed .ok (if (s.chan ch).done = true then 1 else 0)) := by
  rw [exec_accepted ha rfl, wholeRun_dmaIsComplete]

/-- Settles O19: the run of either channel, which no check stops. -/
theorem dmaIsCompleteCompletes : Obligations.DmaIsCompleteCompletes := fun _ ha =>
  ⟨exec_dmaIsComplete .tx ha, exec_dmaIsComplete .rx ha⟩

/-- DMA_DISABLE passes its checks outside a session (R159). -/
theorem exec_dmaDisable (ch : Chan) {s : State} (ha : s.accepts) (hopen : sessionOpen s = false) :
    exec (.dmaDisable ch) s = .next ((uDisable ch s).completed .ok 0) := by
  have hcheck : issueCheck (.dmaDisable ch) s = none := by rw [issueCheck, checkDmaDisable, hopen]; rfl
  rw [exec_accepted ha hcheck, wholeRun_dmaDisable]

/-- Settles O20: `uDisable` of R160 on each channel. -/
theorem dmaDisableCompletes : Obligations.DmaDisableCompletes := fun _ ha hopen =>
  ⟨exec_dmaDisable .tx ha hopen, exec_dmaDisable .rx ha hopen⟩

/-! ### The engine's turn (R152) -/

theorem Channel.running_iff (c : Channel) : c.running = true ↔ c.en = true ∧ c.rem ≠ 0 := by
  simp [Channel.running]

/-- The enabling condition of R152, from the fields of the channel records. -/
theorem dmaEnabled_iff (s : State) : dmaEnabled s = true ↔
    s.faulted = false ∧ s.tx.en = true ∧ s.tx.rem ≠ 0 ∧ (s.txFill = true ∨ admits s.params s.tx.address = true) ∧
      (s.rx.en = true ∧ s.rx.rem ≠ 0 → admits s.params s.rx.address = true) := by
  rw [← Channel.running_iff s.rx]
  refine ⟨fun h => ?_, fun ⟨hf, hen, hrem, hout, hin⟩ => dmaEnabled_of hf ((Channel.running_iff _).2 ⟨hen, hrem⟩) hout hin⟩
  simp only [dmaEnabled, rxCaptures, Bool.and_eq_true, Bool.or_eq_true, Bool.not_eq_true'] at h
  obtain ⟨⟨⟨hf, htx⟩, hout⟩, hin⟩ := h
  obtain ⟨hen, hrem⟩ := (Channel.running_iff _).1 htx
  exact ⟨hf, hen, hrem, hout, fun hr => hin.resolve_left (by simp [hr])⟩

/-- A move with RX running sends a byte of TX and stores the answer. -/
theorem dmaMove_of_captures {s : State} (h : s.rx.running = true) :
    dmaMove s = rxStore (cardAnswer (dmaOut s) s) { afterExchange (dmaOut s) s with tx := s.tx.countDown } := if_pos h

/-- A move with RX not running sends a byte of TX and drops the answer. -/
theorem dmaMove_of_not_captures {s : State} (h : ¬ s.rx.running = true) :
    dmaMove s = { afterExchange (dmaOut s) s with tx := s.tx.countDown } := if_neg h

/-- The engine's turn on the schedule: its move if it is enabled, and otherwise the turn passes. -/
theorem step_dma {s : State} {rest : List Move} (hag : s.agenda = .atomic .dma :: rest) :
    step s = .next (if dmaEnabled s = true then { dmaMove s with agenda := rest } else { s with agenda := rest }) := by
  have hen : dmaEnabled { s with agenda := rest } = dmaEnabled s := rfl
  simp only [step, hag, atomicStep, dmaStep?, hen]
  split
  · rw [dmaMove_eq, dmaMove_eq]; rfl
  · rfl

/-- Settles O22, by the cases of the enabling condition and of RX running. -/
theorem dmaStepMovesOneByte : Obligations.DmaStepMovesOneByte := by
  intro s rest hag ta ra cap out inp sent enabled
  have henabled : dmaEnabled s = true ↔ enabled := dmaEnabled_iff s
  have hcap : s.rx.running = true ↔ cap := Channel.running_iff s.rx
  rw [step_dma hag]
  refine ⟨fun he hc => ?_, fun he hc => ?_, fun he => ?_⟩
  · rw [if_pos (henabled.2 he), dmaMove_of_captures (hcap.2 hc)]; rfl
  · rw [if_pos (henabled.2 he), dmaMove_of_not_captures (mt hcap.1 hc)]; rfl
  · rw [if_neg (mt henabled.1 he)]

end Sys2Proof.Machine
end

section
/-! SUPPORT. The proofs for the OPENs and the CLOSEs of the sector session (42_session.md R182, R186 to R188, R193): the state each
operation's run leaves from its issue, what each that passes its checks completes with, and an OPEN of a card that accepts. -/

namespace Sys2Proof.Machine

/-! ### The run of each OPEN, from its issue at position `p` (R182, R187) -/

theorem wholeRun_openWrite (p : Pos) (s : State) :
    ∃ code data phase cs h, wholeRun .openWrite (latch .openWrite p s) =
        ({ s with sector := s.arg0.extractLsb' 0 23, sdir := .write, dataAccepted := false, phase := phase,
                  cs := cs }.exchanged h).completed code data ∧
      OpenOutcome s.params s.params.cmdWriteBlock (sectorAddress (s.arg0.extractLsb' 0 23)) [0xFF, s.params.startToken]
        code data phase cs h ∧ answersScripted s h := by
  obtain ⟨code, data, phase, cs, h, hrun, hout, hscript⟩ := openSession_spec s.params.cmdWriteBlock _ _
    (recordSession .write (latch .openWrite p s)) (sendBytes_spec [clockByte, s.params.startToken])
  exact ⟨code, data, phase, cs, h, hrun, hout, answersScripted_congr rfl hscript⟩

/-- As OPEN_WRITE, with both channels loaded besides. -/
theorem wholeRun_openRead (p : Pos) (s : State) :
    ∃ code data phase cs h, wholeRun .openRead (latch .openRead p s) =
        ((uLoad .tx 0 512 true (uLoad .rx s.arg1 512 false
          { s with sector := s.arg0.extractLsb' 0 23, sdir := .read, dataAccepted := false, phase := phase,
                   cs := cs })).exchanged h).completed code data ∧
      OpenOutcome s.params s.params.cmdReadBlock (sectorAddress (s.arg0.extractLsb' 0 23)) [0xFF] code data phase cs h ∧
      answersScripted s h := by
  obtain ⟨code, data, phase, cs, h, hrun, hout, hscript⟩ := openSession_spec s.params.cmdReadBlock _ _
    (uLoad .tx 0 sectorSize true (uLoad .rx s.arg1 sectorSize false (recordSession .read (latch .openRead p s))))
    (sendBytes_spec [clockByte])
  exact ⟨code, data, phase, cs, h, hrun, hout, answersScripted_congr rfl hscript⟩

/-! ### What an OPEN completes with (R182, R187, R193) -/

/-- Both OPENs make the same checks (R181) and start at their first statement. -/
theorem exec_open {i : Instr} {s : State} (hi : i = .openWrite ∨ i = .openRead) (h : s.mayOpen) :
    exec i s = .next (wholeRun i (latch i (.body 0) s)) := by
  rcases hi with rfl | rfl <;> exact exec_accepted h.1 (openCheck_mayOpen h)

/-- Settles O26: the run is that of the shared part of the OPENs with the write command and two bytes after it. -/
theorem openWriteCompletes : Obligations.OpenWriteCompletes := by
  intro s hopen
  obtain ⟨code, data, phase, cs, h, hrun, hspec⟩ := wholeRun_openWrite (.body 0) s
  exact ⟨code, data, phase, cs, h, by rw [exec_open (.inl rfl) hopen, hrun], hspec⟩

/-- Settles O27: as O26, and the loads leave the channels disabled, as the checks found them. -/
theorem openReadCompletes : Obligations.OpenReadCompletes := by
  intro s hopen
  obtain ⟨code, data, phase, cs, h, hrun, hspec⟩ := wholeRun_openRead (.body 0) s
  refine ⟨code, data, phase, cs, h, ?_, hspec⟩
  rw [exec_open (.inr rfl) hopen, hrun]
  obtain ⟨-, -, -, htx, hrx⟩ := hopen
  simp only [uLoad, State.setChan, State.chan, htx, hrx]

/-- Settles O28: of the three outcomes, only the vain busy poll reports CardBusyTimeout. -/
theorem openWriteBusyTimeoutSendsNothing : Obligations.OpenWriteBusyTimeoutSendsNothing := by
  intro s t hopen he hcode
  obtain ⟨code, data, phase, cs, h, hrun, hout, -⟩ := openWriteCompletes s hopen
  obtain rfl := Host.Outcome.next.inj (hrun.symm.trans he)
  have hcode : code = .cardBusyTimeout := hcode
  obtain ⟨-, -, -, hcs, hclock, hlen, -⟩ | ⟨hother, -⟩ | ⟨hother, -⟩ := hout
  · exact ⟨h, rfl, hlen, fun e he => (hclock e he).2, fun hne e he heq => hne (heq.symm.trans (hclock e he).2), hcs⟩
  all_goals exact absurd (hother.symm.trans hcode) nofun

/-! ### An OPEN of a card that accepts (R182, R187; 30_encoding.md R98, R102) -/

/-- The answers `script` let an OPEN succeed: busy polls within the budget and a ready one, those to the frame, idle polls within N_RESP, and
an accepting response, which is not IDLE_BYTE. -/
structure CardAccepts (p : Params) (script busy frame idle rest : List Byte) : Prop where
  busyWithin : busy.length < p.openBusyBudget.toNat
  notReady   : ∀ x ∈ busy, x ≠ p.readyByte
  frameBytes : frame.length = 6
  idleWithin : idle.length < p.nResp.toNat
  allIdle    : ∀ x ∈ idle, x = p.idleByte
  idleNotOk  : p.idleByte ≠ 0
  script     : script = busy ++ [p.readyByte] ++ frame ++ idle ++ [0x00] ++ rest

theorem uWaitNotBusy_scripted {n : Word} {s : State} {busy rest : List Byte} (hn : busy.length < n.toNat)
    (hb : ∀ b ∈ busy, b ≠ s.params.readyByte) (hs : s.cardScript = busy ++ s.params.readyByte :: rest) :
    ∃ h, uWaitNotBusy n s = (true, { s with cs := false }.exchanged h) ∧ h.length = busy.length + 1 := by
  obtain ⟨h, hpoll, hlen⟩ := pollReady_scripted (s := uSelect s) hn hb hs
  refine ⟨h, ?_, hlen⟩
  rw [uWaitNotBusy, hpoll]; rfl

/-- The answers to the frame are not looked at, whatever they are. -/
theorem uCommand_scripted {o : Byte} {a : Word} {s : State} {r : Byte} {frame idle rest : List Byte} (hf : frame.length = 6)
    (hn : idle.length < s.params.nResp.toNat) (hi : ∀ b ∈ idle, b = s.params.idleByte) (hr : r ≠ s.params.idleByte)
    (hs : s.cardScript = frame ++ (idle ++ r :: rest)) :
    ∃ h, uCommand o a s = (r, { s with cs := true }.exchanged h) ∧ h.length = 6 + (idle.length + 1) := by
  obtain ⟨f, hsent, hwire, -⟩ := sendBytes_spec (frameBytes o a s.params.cmdTrailer) (uSelect s)
  have hflen : f.length = 6 := by rw [← wireOut_length, hwire]; rfl
  have hleft : ((uSelect s).exchanged f).cardScript = idle ++ r :: rest := by
    rw [State.exchanged_cardScript, uSelect_cardScript, hs, hflen, List.drop_left' hf]
  obtain ⟨g, hpoll, hglen⟩ := pollResponse_scripted (s := (uSelect s).exchanged f) hn hi hr hleft
  refine ⟨f ++ g, ?_, by rw [List.length_append, hflen, hglen]⟩
  rw [uCommand, hsent, hpoll, State.exchanged_append]; rfl

/-- From the busy wait on, an OPEN of a card that accepts opens the session; `bytes` follow the command. -/
theorem openSession_accepted (o : Byte) (bytes : List Byte) {s : State} {busy frame idle rest : List Byte}
    (h : CardAccepts s.params s.cardScript busy frame idle rest) :
    ∃ g, openSession o (sendBytes bytes) s = finish .ok 0 ({ s with phase := .opened, cs := true }.exchanged g) ∧
      g.length = (busy.length + 1) + 6 + (idle.length + 1) + bytes.length := by
  obtain ⟨w, hwait, hwlen⟩ := uWaitNotBusy_scripted (rest := frame ++ (idle ++ 0 :: rest)) h.busyWithin h.notReady
    (by rw [h.script]; simp)
  have hleft : ({ s with cs := false }.exchanged w).cardScript = frame ++ (idle ++ 0 :: rest) := by
    rw [State.exchanged_cardScript, hwlen, h.script]; simp
  obtain ⟨c, hcmd, hclen⟩ := uCommand_scripted (o := o) (a := sectorAddress (sectorOperand s.larg0))
    (s := { s with cs := false }.exchanged w) h.frameBytes h.idleWithin h.allIdle h.idleNotOk.symm hleft
  obtain ⟨b, hsent, hwire, -⟩ := sendBytes_spec bytes ({ ({ s with cs := false }.exchanged w) with cs := true }.exchanged c)
  have hblen : b.length = bytes.length := by rw [← wireOut_length, hwire, List.length_map]
  refine ⟨w ++ c ++ b, ?_, by rw [List.length_append, List.length_append, hwlen, hclen, hblen]; omega⟩
  rw [openSession, hwait]
  simp only [if_true]
  rw [hcmd]
  simp only [accepted, respOk, beq_self_eq_true, if_true, hsent]
  rw [← State.exchanged_append, ← State.exchanged_append]; rfl

/-- Settles O29: the busy wait, the command and the bytes after it each use up their part of the script. -/
theorem openSucceedsWhenCardAccepts : Obligations.OpenSucceedsWhenCardAccepts := by
  intro s busy frame idle rest hopen hbusy hnotReady hframe hidle hallIdle hidleNotOk hscript
  have hcard : CardAccepts s.params s.cardScript busy frame idle rest :=
    ⟨hbusy, hnotReady, hframe, hidle, hallIdle, hidleNotOk, hscript⟩
  constructor
  · obtain ⟨g, hrun, hlen⟩ := openSession_accepted s.params.cmdWriteBlock [clockByte, s.params.startToken]
      (s := recordSession .write (latch .openWrite (.body 0) s)) hcard
    refine ⟨_, (exec_open (.inl rfl) hopen).trans (congrArg _ hrun), rfl, rfl, rfl, rfl, ?_⟩
    exact List.length_append.trans (congrArg _ hlen)
  · obtain ⟨g, hrun, hlen⟩ := openSession_accepted s.params.cmdReadBlock [clockByte]
      (s := uLoad .tx 0 sectorSize true (uLoad .rx s.arg1 sectorSize false (recordSession .read (latch .openRead (.body 0) s)))) hcard
    refine ⟨_, (exec_open (.inr rfl) hopen).trans (congrArg _ hrun), rfl, rfl, rfl, rfl, ?_⟩
    exact List.length_append.trans (congrArg _ hlen)

/-! ### CLOSE_READ (R188) -/

theorem wholeRun_closeRead (p : Pos) (s : State) :
    ∃ h, wholeRun .closeRead (latch .closeRead p s) = ({ s with phase := .closed, cs := false }.exchanged h).completed .ok 0 ∧
      wireOut h = List.replicate 2 (s.cs, 0xFF) ∧ answersScripted s h := by
  obtain ⟨h, hrun, hwire, hscript⟩ := sendBytes_spec [clockByte, clockByte] { latch .closeRead p s with phase := .closing }
  refine ⟨h, ?_, hwire, answersScripted_congr rfl hscript⟩
  exact congrArg (fun u => finish .ok 0 { uDeselect u with phase := .closed }) hrun

/-- Settles O34: two bytes are exchanged at the session's chip-select, and nothing can go wrong. -/
theorem closeReadCompletes : Obligations.CloseReadCompletes := by
  intro s ha hphase hdir
  have hcheck : issueCheck .closeRead s = none := by simp [issueCheck, checkCloseRead, firstFault, hphase, hdir]
  obtain ⟨h, hrun, hspec⟩ := wholeRun_closeRead (firstStatement .closeRead s) s
  exact ⟨h, by rw [exec_accepted ha hcheck, hrun], hspec⟩

/-! ### CLOSE_WRITE (R186) -/

/-- The two CRC bytes, the token and the two trailing bytes: five exchanges of CLOCK_BYTE, the third of them answered by the token. -/
theorem closeWrite_exchanges (s : State) :
    ∃ five, uWrite clockByte (uWrite clockByte (uRead (uWrite clockByte (uWrite clockByte s))).2) = s.exchanged five ∧
      wireOut five = List.replicate 5 (s.cs, 0xFF) ∧
      five[2]?.map Exchange.inp = some (uRead (uWrite clockByte (uWrite clockByte s))).1 ∧ answersScripted s five := by
  obtain ⟨crc, hcrc, hcrcWire, hcrcScript⟩ := sendBytes_spec [clockByte, clockByte] s
  have hcrc : uWrite clockByte (uWrite clockByte s) = s.exchanged crc := hcrc
  have hcrcLen : crc.length = 2 := by rw [← wireOut_length, hcrcWire]; rfl
  rw [hcrc]
  generalize hx : (uRead (s.exchanged crc)).1 = x
  have htoken : (uRead (s.exchanged crc)).2 = s.exchanged (crc ++ [⟨s.cs, clockByte, x⟩]) := by
    rw [uRead_snd, afterExchange_eq, State.exchanged_append, ← hx]; rfl
  obtain ⟨trail, htrail, htrailWire, htrailScript⟩ :=
    sendBytes_spec [clockByte, clockByte] (s.exchanged (crc ++ [⟨s.cs, clockByte, x⟩]))
  refine ⟨crc ++ [⟨s.cs, clockByte, x⟩] ++ trail, ?_, ?_, ?_, ?_⟩
  · rw [htoken]; exact htrail.trans (State.exchanged_append ..)
  · rw [wireOut_append, wireOut_append, hcrcWire, htrailWire]; rfl
  · rw [List.append_assoc, List.getElem?_append_right (by omega), hcrcLen]; rfl
  · refine answersScripted_append (answersScripted_append (t := s.exchanged crc) hcrcScript rfl ?_) rfl htrailScript
    rw [← hx]; exact answersScripted_one (s.exchanged crc) s.cs clockByte

/-- How CLOSE_WRITE ends by the token `x`: the result code, the phase, DATA_ACCEPTED, and the exchanges `polls` after the card is
deselected. -/
def CloseOutcome (p : Params) (x : Byte) (code : ResultCode) (phase : Phase) (acc : Bool) (polls : List Exchange) : Prop :=
  (tokenAccepted p x = true ∧ phase = .closed ∧ acc = true ∧
    ∃ ok, ClosePolls p ok polls ∧ code = if ok = true then .ok else .cardBusyTimeout) ∨
  (tokenAccepted p x = false ∧ phase = .failed ∧ acc = false ∧ polls = [] ∧ code = .writeRejected)

theorem closeAfterToken_spec (x : Byte) (s : State) :
    ∃ code phase acc polls, closeAfterToken x (uDeselect s) =
        finish code x ({ s with phase := phase, cs := false, dataAccepted := acc }.exchanged polls) ∧
      CloseOutcome s.params x code phase acc polls ∧ answersScripted s polls := by
  unfold closeAfterToken
  rw [uDeselect_params]
  cases hx : tokenAccepted s.params x with
  | true =>
    obtain ⟨polls, hpolls, hscript, hspec⟩ := closePolls_spec s.params.closeRetries.toNat { uDeselect s with dataAccepted := true }
    rw [uDeselect_cs, ite_self] at hpolls
    exact ⟨_, .closed, true, polls, congrArg (finish _ x) (congrArg (fun u => { u with phase := .closed }) hpolls),
      .inl ⟨hx, rfl, rfl, _, hspec, rfl⟩, answersScripted_congr rfl hscript⟩
  | false =>
    exact ⟨.writeRejected, .failed, false, [], by rw [State.exchanged_nil]; rfl, .inr ⟨hx, rfl, rfl, rfl, rfl⟩, answersScripted_nil s⟩

theorem wholeRun_closeWrite (p : Pos) (s : State) :
    ∃ five x code phase acc polls, wholeRun .closeWrite (latch .closeWrite p s) =
        ({ s with phase := phase, cs := false, dataAccepted := acc }.exchanged (five ++ polls)).completed code x ∧
      wireOut five = List.replicate 5 (s.cs, 0xFF) ∧ five[2]?.map Exchange.inp = some x ∧ answersScripted s (five ++ polls) ∧
      CloseOutcome s.params x code phase acc polls := by
  obtain ⟨five, hfive, hwire, hx, hscript⟩ := closeWrite_exchanges { latch .closeWrite p s with phase := .closing }
  generalize hgen : (uRead (uWrite clockByte (uWrite clockByte { latch .closeWrite p s with phase := .closing }))).1 = x at hx
  obtain ⟨code, phase, acc, polls, hend, hout, hpolls⟩ :=
    closeAfterToken_spec x ({ latch .closeWrite p s with phase := .closing }.exchanged five)
  refine ⟨five, x, code, phase, acc, polls, ?_, hwire, hx, ?_, hout⟩
  · rw [wholeRun, runCloseWrite, hgen, hfive, hend, ← State.exchanged_append]; rfl
  · exact answersScripted_append (answersScripted_congr rfl hscript) rfl hpolls

/-- Settles O33: after the five exchanges, the token decides between the polls and the rejection. -/
theorem closeWriteCompletes : Obligations.CloseWriteCompletes := by
  intro s ha hphase hdir
  have hcheck : issueCheck .closeWrite s = none := by simp [issueCheck, checkCloseWrite, firstFault, hphase, hdir]
  obtain ⟨five, x, code, phase, acc, polls, hrun, hwire, hx, hscript, hout⟩ :=
    wholeRun_closeWrite (firstStatement .closeWrite s) s
  rw [exec_accepted ha hcheck, hrun]
  have hmask : tokenAccepted s.params x = true ↔ x &&& 0x0F = s.params.drAccept.setWidth 8 := beq_iff_eq
  obtain ⟨hacc, rfl, rfl, ok, hpolls, rfl⟩ | ⟨hrej, rfl, rfl, rfl, rfl⟩ := hout
  · refine ⟨five, x, polls, ok, hwire, hx, hscript, ?_⟩
    rw [if_pos (hmask.1 hacc)]
    exact ⟨hpolls, rfl⟩
  · refine ⟨five, x, [], false, hwire, hx, hscript, ?_⟩
    rw [if_neg (mt hmask.2 (by simp [hrej])), List.append_nil]
    exact ⟨rfl, rfl⟩

end Sys2Proof.Machine
end

section
/-! SUPPORT. The proofs for TRANSFER (42_session.md R183 to R185, R192): the states its awaits start from, what a run to the end leaves, and
what a read stores of what a write sent. -/

namespace Sys2Proof.Machine

/-! ### The awaits (R184, R185) -/

/-- The write path before its await: TX is loaded with the buffer at LARG0 and enabled. -/
def sendStart (s : State) : State := uEnable .tx (uLoad .tx s.larg0 sectorSize false { s with phase := .transferring })

/-- The read path before its await: both channels are enabled. -/
def receiveStart (s : State) : State := uEnable .tx (uEnable .rx { s with phase := .transferring })

/-- The write path disables TX and finishes if the await ends with TX.DONE, and otherwise holds there. -/
theorem transferWrite_eq {s u : State} (h : awaitDma (fun t => t.tx.done) (sendStart s).tx.rem.toNat (sendStart s) = u) :
    transferWrite s = if u.tx.done = true then finish .ok 0 (uDisable .tx u) else { u with pos := .body 4, locals.p := s.larg0 } := by
  subst h; rfl

/-- The read path disables both channels and finishes if the await ends with RX.DONE, and otherwise holds there. -/
theorem transferRead_eq {s u : State} (h : awaitDma (fun t => t.rx.done) (receiveStart s).tx.rem.toNat (receiveStart s) = u) :
    transferRead s = if u.rx.done = true then finish .ok 0 (uDisable .rx (uDisable .tx u)) else { u with pos := .readPath 3 } := by
  subst h; rfl

theorem runTransfer_write {s : State} (hdir : s.sdir = .write) : runTransfer s = transferWrite s := by
  unfold runTransfer; rw [hdir]

theorem runTransfer_read {s : State} (hdir : s.sdir = .read) : runTransfer s = transferRead s := by
  unfold runTransfer; rw [hdir]

/-! ### Runs to the end (R184, R185) -/

/-- Under its checks (R181) TRANSFER runs. -/
theorem exec_transfer {s : State} (ha : s.accepts) (hphase : s.phase = .opened) (hbuf : s.sdir = .read → s.arg0 = s.rx.ptr) :
    exec .transfer s = .next (runTransfer (latch .transfer (transferFirst s) s)) := by
  refine exec_accepted (i := .transfer) ha ?_
  cases hdir : s.sdir with
  | write => simp [issueCheck, checkTransfer, firstFault, hphase, hdir]
  | read => simp [issueCheck, checkTransfer, firstFault, hphase, hbuf hdir]

theorem sendStart_spec {s : State} (hf : s.faulted = false) (hrx : s.rx.en = false) : SendStart (sendStart s) where
  notFaulted := hf
  enabled := rfl
  notDone := rfl
  fromMemory := rfl
  alone := by simp [Channel.running, sendStart, hrx]
  full := rfl

/-- Settles O30: TX runs alone through an admitted buffer of 512 bytes, so the await ends with TX.DONE. -/
theorem transferSendsBuffer : Obligations.TransferSendsBuffer := by
  intro s ha hphase hdir hrx hadm
  obtain ⟨h, hawait, hwire, hscript⟩ :=
    (sendStart_spec (s := latch .transfer (transferFirst s) s) ha.1 hrx).await (by decide : sectorSize ≠ 0) hadm
  refine ⟨h, ?_, hwire, answersScripted_congr rfl hscript⟩
  rw [exec_transfer ha hphase (by rw [hdir]; nofun), runTransfer_write (s := latch _ _ s) hdir, transferWrite_eq hawait]
  rfl

theorem receiveStart_spec {s : State} (hf : s.faulted = false) (hfill : s.txFill = true) (hrx : s.rx.count = 512)
    (htx : s.tx.count = 512) (hwf : s.mem.wf = true) : ReceiveStart (receiveStart s) where
  notFaulted := hf
  txEnabled := rfl
  rxEnabled := rfl
  rxNotDone := by simp [receiveStart, hrx]
  filler := hfill
  txFull := rfl
  rxFull := rfl
  sameCount := htx.trans hrx.symm
  notEmpty := by simp [receiveStart, hrx]
  canonical := hwf

/-- Settles O31: both channels run through an admitted buffer of 512 bytes, so the await ends with RX.DONE. -/
theorem transferReceivesBuffer : Obligations.TransferReceivesBuffer := by
  intro s ha hphase hdir hbuf hrx htx hfill hwf hadm
  have hstart := receiveStart_spec (s := latch .transfer (transferFirst s) s) ha.1 hfill hrx htx hwf
  have hcount : (receiveStart (latch .transfer (transferFirst s) s)).rx.count.toNat = 512 := congrArg BitVec.toNat hrx
  obtain ⟨h, m, hawait, hwire, hscript, -, hstored, hframe⟩ := hstart.await (by rw [hcount]; exact hadm)
  rw [hcount] at hwire hstored hframe
  refine ⟨h, m, ?_, hwire, answersScripted_congr rfl hscript, hstored, hframe⟩
  rw [exec_transfer ha hphase fun _ => hbuf, runTransfer_read (s := latch _ _ s) hdir, transferRead_eq hawait]
  rfl

/-! ### The round trip (R192) -/

/-- Exchanges that the script answers receive its bytes. -/
theorem answersScripted.inp_eq {s : State} {h : List Exchange} (hs : answersScripted s h) {j : Nat} {x y : Byte}
    (hx : s.cardScript[j]? = some x) (hy : h[j]?.map Exchange.inp = some y) : y = x := by
  obtain ⟨e, he, rfl⟩ := Option.map_eq_some_iff.mp hy
  obtain ⟨hj, rfl⟩ := List.getElem?_eq_some_iff.mp he
  exact hs j hj x hx

/-- Settles O38: byte `j` of the write's buffer is byte `j` out, which is answer `j` of the read, which is stored at byte `j` of its
buffer. -/
theorem roundTripReturnsWrittenBytes : Obligations.RoundTripReturnsWrittenBytes := by
  intro s t u v ha hphase hdir hrx hadm hwrite ha' hphase' hdir' hbuf' hrx' htx' hfill' hwf' hadm' hcard hread j hj
  obtain ⟨h, hsent, hwire, -⟩ := transferSendsBuffer s ha hphase hdir hrx hadm
  obtain rfl := Host.Outcome.next.inj (hsent.symm.trans hwrite)
  obtain ⟨g, m, hreceived, -, hscript, hstored, -⟩ := transferReceivesBuffer u ha' hphase' hdir' hbuf' hrx' htx' hfill' hwf' hadm'
  obtain rfl := Host.Outcome.next.inj (hreceived.symm.trans hread)
  have hout : h.map Exchange.out = (List.range 512).map fun j => s.mem.read (s.arg0 + BitVec.ofNat 32 j).toNat := by
    simpa [wireOut, Function.comp_def] using congrArg (List.map Prod.snd) hwire
  have hcard : u.cardScript.take 512 = h.map Exchange.out := by
    rw [hcard]; exact congrArg (List.map Exchange.out) (List.drop_left ..)
  have hanswer : u.cardScript[j]? = some (s.mem.read (s.arg0 + BitVec.ofNat 32 j).toNat) := by
    rw [← List.getElem?_take_of_lt hj, hcard, hout]; simp [hj]
  exact hscript.inp_eq hanswer (hstored j hj)

end Sys2Proof.Machine
end

section
/-! SUPPORT. What the session operations leave unchanged (42_session.md R180 to R188, R190): where the bytes of a TRANSFER are stored, the
frame of each operation, the phase each ends in, and that every operation but TRANSFER finishes. -/

namespace Sys2Proof.Machine

/-! ### What DMA steps leave unchanged (41_dma.md R152) -/

theorem awaitDma_keeps {P : State → Prop} (hP : ∀ s, P s → P (dmaMove s)) (cond : State → Bool) (n : Nat) {s : State} (hs : P s) :
    P (awaitDma cond n s) := by
  obtain ⟨k, -, hmoves, -⟩ := awaitDma_eq cond n s
  rw [hmoves]
  clear hmoves
  induction k generalizing s with
  | zero => exact hs
  | succ k ih => exact ih (hP s hs)

/-- From `s` the DMA engine has moved some bytes: the channels have counted down, and memory has changed only at the working addresses of
RX's bytes left to move. -/
structure MovedFrom (s t : State) : Prop where
  outside : t = { s with tx := t.tx, rx := t.rx, mem := t.mem, history := t.history, cardScript := t.cardScript }
  record  : ∃ r d, t.rx = { s.rx with rem := r, done := d } ∧ r ≤ s.rx.rem
  mem     : ∀ a, (∀ n : BitVec 16, n ≠ 0 → n ≤ s.rx.rem → a ≠ ({ s.rx with rem := n }.address).toNat) →
    t.mem.read a = s.mem.read a
  idle    : s.rx.running = false → t.rx = s.rx ∧ t.mem = s.mem

theorem MovedFrom.refl (s : State) : MovedFrom s s :=
  ⟨rfl, ⟨s.rx.rem, s.rx.done, rfl, BitVec.le_refl _⟩, fun _ _ => rfl, fun _ => ⟨rfl, rfl⟩⟩

theorem MovedFrom.dmaMove {s t : State} (h : MovedFrom s t) : MovedFrom s (dmaMove t) := by
  obtain ⟨hout, ⟨r, d, hrx, hle⟩, hmem, hidle⟩ := h
  have hupdate : ∀ (tx rx : Channel) (m : Memory) (g : List Exchange) (l : List Byte),
      { t with tx := tx, rx := rx, mem := m, history := g, cardScript := l } =
        { s with tx := tx, rx := rx, mem := m, history := g, cardScript := l } := by intros; rw [hout]
  have hmove := dmaMove_eq t
  by_cases hrun : t.rx.running = true
  · have hr0 : r ≠ 0 := by
      have := ((Channel.running_iff _).1 hrun).2
      rwa [hrx] at this
    have hr : r.toNat ≠ 0 := fun e => hr0 (BitVec.eq_of_toNat_eq e)
    simp only [hrun, if_true] at hmove
    rw [hmove]
    refine ⟨hupdate .., ⟨r - 1, d || (r - 1 == 0), congrArg Channel.countDown hrx, ?_⟩, fun a ha => ?_, fun hoff => ?_⟩
    · have hleNat : r.toNat ≤ s.rx.rem.toNat := hle
      have hcount : (r - 1).toNat = r.toNat - 1 := Channel.countDown_rem_toNat { s.rx with rem := r } hr0
      exact BitVec.le_def.2 (by omega)
    · have hne : a ≠ t.rx.address.toNat := by rw [hrx]; exact ha r hr0 hle
      exact (Memory.read_write_ne t.mem _ hne).trans (hmem a ha)
    · rw [(hidle hoff).1, hoff] at hrun; cases hrun
  · simp only [hrun] at hmove
    rw [hmove]
    exact ⟨hupdate .., ⟨r, d, hrx, hle⟩, hmem, hidle⟩

theorem awaitDma_movedFrom (cond : State → Bool) (n : Nat) (s : State) : MovedFrom s (awaitDma cond n s) :=
  awaitDma_keeps (P := MovedFrom s) (fun _ h => h.dmaMove) cond n (.refl s)

/-! ### What TRANSFER leaves unchanged (R183 to R185) -/

/-- RX's record when the bytes of a TRANSFER move: the present one in a write session, that one started from its COUNT in a read session. -/
def transferRx (s : State) : Channel :=
  match s.sdir with
  | .write => s.rx
  | .read => { s.rx with en := true, rem := s.rx.count }

/-- What a run of TRANSFER from `s` to `t` does: it moves the phase, finishes with OK or holds, and stores only what RX receives. -/
structure TransferEffect (s t : State) : Prop where
  phase    : t.phase = .transferring
  session  : t.sector = s.sector ∧ t.sdir = s.sdir ∧ t.cs = s.cs ∧ t.dataAccepted = s.dataAccepted
  finished : t.busy = false → t.resultCode = .ok
  rx       : s.sdir = .write → s.rx.running = false → t.rx = s.rx
  mem      : ∀ a, (∀ n : BitVec 16, n ≠ 0 → n ≤ (transferRx s).rem → a ≠ ({ transferRx s with rem := n }.address).toNat) →
    t.mem.read a = s.mem.read a
  idle     : (transferRx s).running = false → t.mem = s.mem

/-- Up to the end of its await: from its start the phase has moved, and TX's and RX's records have been loaded or enabled. -/
theorem MovedFrom.transferEffect {s start u : State} (h : MovedFrom start u) (hb : s.busy = true)
    (hstart : start = { s with phase := .transferring, tx := start.tx, rx := start.rx, txFill := start.txFill })
    (hrecord : ∃ d l, start.rx = { transferRx s with done := d, loaded := l }) (hwrite : s.sdir = .write → start.rx = s.rx) :
    TransferEffect s u := by
  obtain ⟨hout, -, hmem, hidle⟩ := h
  obtain ⟨d, l, hrx⟩ := hrecord
  have hstartMem : start.mem = s.mem := by rw [hstart]
  rw [hstart] at hout
  rw [hstartMem] at hmem hidle
  refine ⟨congrArg State.phase hout, by rw [hout]; exact ⟨rfl, rfl, rfl, rfl⟩, fun hu => ?_, fun hdir hoff => ?_, ?_, fun hoff => ?_⟩
  · have hbusy : u.busy = true := by rw [hout]; exact hb
    exact absurd (hbusy.symm.trans hu) nofun
  · rw [← hwrite hdir] at hoff ⊢
    exact (hidle hoff).1
  · rw [hrx] at hmem; exact hmem
  · rw [hrx] at hidle; exact (hidle hoff).2

/-- The write path loads and enables TX alone. -/
theorem transferWrite_effect {s : State} (hb : s.busy = true) (hdir : s.sdir = .write) : TransferEffect s (transferWrite s) := by
  have h := (awaitDma_movedFrom (fun t => t.tx.done) (sendStart s).tx.rem.toNat (sendStart s)).transferEffect hb rfl
    ⟨s.rx.done, s.rx.loaded, by rw [transferRx, hdir]; rfl⟩ fun _ => rfl
  generalize hu : awaitDma _ _ _ = u at h
  rw [transferWrite_eq hu]
  split
  · exact ⟨h.phase, h.session, fun _ => rfl, h.rx, h.mem, h.idle⟩
  · exact ⟨h.phase, h.session, h.finished, h.rx, h.mem, h.idle⟩

/-- The read path enables RX from its COUNT, and TX. -/
theorem transferRead_effect {s : State} (hb : s.busy = true) (hdir : s.sdir = .read) : TransferEffect s (transferRead s) := by
  have hwrite : s.sdir ≠ .write := by rw [hdir]; nofun
  have h := (awaitDma_movedFrom (fun t => t.rx.done) (receiveStart s).tx.rem.toNat (receiveStart s)).transferEffect hb rfl
    ⟨s.rx.count == 0, false, by rw [transferRx, hdir]; rfl⟩ fun hw => absurd hw hwrite
  generalize hu : awaitDma _ _ _ = u at h
  rw [transferRead_eq hu]
  split
  · exact ⟨h.phase, h.session, fun _ => rfl, fun hw => absurd hw hwrite, h.mem, h.idle⟩
  · exact ⟨h.phase, h.session, h.finished, h.rx, h.mem, h.idle⟩

theorem wholeRun_transfer_effect (p : Pos) (s : State) : TransferEffect s (wholeRun .transfer (latch .transfer p s)) := by
  have h : TransferEffect (latch .transfer p s) (runTransfer (latch .transfer p s)) := by
    cases hdir : (latch .transfer p s).sdir with
    | write => rw [runTransfer_write hdir]; exact transferWrite_effect rfl hdir
    | read => rw [runTransfer_read hdir]; exact transferRead_effect rfl hdir
  exact ⟨h.phase, h.session, h.finished, h.rx, h.mem, h.idle⟩

/-- Settles O36: a request that does not run leaves memory, and a run stores at RX's working addresses only. -/
theorem transferStoresReceivedBytesOnly : Obligations.TransferStoresReceivedBytesOnly := by
  intro s t h rx
  have hrx : rx = transferRx s := rfl
  rw [hrx]
  rcases exec_next h with rfl | ⟨code, rfl, -⟩ | ⟨-, -, rfl⟩
  · exact ⟨fun _ _ => rfl, fun _ _ => rfl⟩
  · exact ⟨fun _ _ => rfl, fun _ _ => rfl⟩
  · have heff := wholeRun_transfer_effect (firstStatement .transfer s) s
    exact ⟨fun hoff a => by rw [heff.idle hoff], heff.mem⟩

/-! ### What each session operation leaves unchanged -/

/-- Settles O35: a request is ignored, changes only the fault record and the sequencer, or runs, and then changes what its run lists. -/
theorem sessionFrame : Obligations.SessionFrame := by
  intro i s t hi h
  rcases exec_next h with rfl | ⟨code, rfl, hfaulted⟩ | ⟨ha, -, rfl⟩
  · exact ⟨fun _ => ⟨rfl, rfl⟩, fun _ _ => rfl, fun _ => ⟨rfl, rfl, rfl⟩, fun _ => ⟨rfl, rfl⟩, fun _ => ⟨rfl, rfl⟩,
      fun _ _ _ => rfl, fun _ => rfl, fun _ => ⟨rfl, rfl⟩⟩
  · have hentry : (s.withFault code (encode i)).faulted ≠ s.faulted := by rw [hfaulted]; nofun
    exact ⟨fun _ => ⟨rfl, rfl⟩, fun _ _ => rfl, fun _ => ⟨rfl, rfl, rfl⟩, fun _ => ⟨rfl, rfl⟩, fun _ => ⟨rfl, rfl⟩,
      fun _ _ _ => rfl, fun _ => rfl, fun hf => absurd hf hentry⟩
  · have hout := wholeRun_outside i ha
    simp only [hout.fcode, hout.faultCmd]
    rcases hi with rfl | rfl | rfl | rfl | rfl
    · obtain ⟨code, data, phase, cs, l, hrun, -⟩ := wholeRun_openWrite (firstStatement .openWrite s) s
      simp [hrun, State.completed, State.exchanged]
    · obtain ⟨code, data, phase, cs, l, hrun, -⟩ := wholeRun_openRead (firstStatement .openRead s) s
      simp [hrun, State.completed, State.exchanged]
    · have heff := wholeRun_transfer_effect (firstStatement .transfer s) s
      obtain ⟨hsector, hsdir, hcs, hacc⟩ := heff.session
      simpa [hsector, hsdir, hcs, hacc] using heff.rx
    · obtain ⟨five, x, code, phase, acc, polls, hrun, -⟩ := wholeRun_closeWrite (firstStatement .closeWrite s) s
      simp [hrun, State.completed, State.exchanged]
    · obtain ⟨l, hrun, -⟩ := wholeRun_closeRead (firstStatement .closeRead s) s
      simp [hrun, State.completed, State.exchanged]

/-! ### The end of each operation (R190; 10_state.md R21) -/

/-- Every operation but TRANSFER, once issued, completes. -/
theorem wholeRun_completed {i : Instr} (hi : i ≠ .transfer) (p : Pos) (s : State) :
    ∃ (code : ResultCode) (data : Byte) (u : State), wholeRun i (latch i p s) = u.completed code data := by
  have htransport : i = .nop ∨ isTransport i = true → ∃ (data : Byte) (u : State), wholeRun i (latch i p s) = u.completed .ok data := by
    intro h
    obtain ⟨data, cs, l, hrun, -⟩ := wholeRun_transport h p s
    exact ⟨data, _, hrun⟩
  cases i with
  | nop | select | deselect | writeByte _ | readByte | sendCommand _ | waitNotBusy =>
    exact ⟨.ok, htransport (by simp [isTransport])⟩
  | dmaConfigure ch => exact ⟨.ok, 0, _, wholeRun_dmaConfigure ch p s⟩
  | dmaEnable ch => exact ⟨.ok, 0, _, wholeRun_dmaEnable ch p s⟩
  | dmaIsComplete ch => exact ⟨.ok, _, s, wholeRun_dmaIsComplete ch p s⟩
  | dmaDisable ch => exact ⟨.ok, 0, _, wholeRun_dmaDisable ch p s⟩
  | dmaConfigureFill => exact ⟨.ok, 0, _, wholeRun_dmaConfigureFill p s⟩
  | openWrite =>
    obtain ⟨code, data, phase, cs, h, hrun, -⟩ := wholeRun_openWrite p s
    exact ⟨code, data, _, hrun⟩
  | transfer => exact absurd rfl hi
  | closeWrite =>
    obtain ⟨five, x, code, phase, acc, polls, hrun, -⟩ := wholeRun_closeWrite p s
    exact ⟨code, x, _, hrun⟩
  | openRead =>
    obtain ⟨code, data, phase, cs, h, hrun, -⟩ := wholeRun_openRead p s
    exact ⟨code, data, _, hrun⟩
  | closeRead =>
    obtain ⟨h, hrun, -⟩ := wholeRun_closeRead p s
    exact ⟨.ok, 0, _, hrun⟩

/-- Settles O53: with no cause of a fault the request runs, and its run completes. -/
theorem operationsFinish : Obligations.OperationsFinish := by
  intro i s ha hi hfault
  have hexec := exec_accepted ha ((issueCheck_eq_faultOf i s ha.2).trans hfault)
  have hfaulted := (wholeRun_outside i ha).faulted.trans ha.1
  obtain ⟨code, data, u, hrun⟩ := wholeRun_completed hi (firstStatement i s) s
  rw [hrun] at hexec hfaulted
  exact ⟨_, hexec, rfl, rfl, rfl, hfaulted⟩

/-! ### The phase (R180, R181) -/

/-- A request in a phase that forbids it faults and leaves the phase. -/
theorem exec_phaseError {i : Instr} {s t : State} (ha : s.accepts) (hc : issueCheck i s = some .phaseError) (h : exec i s = .next t) :
    t.fcode = .phaseError ∧ t.faulted = true ∧ t.phase = s.phase := by
  have he : exec i s = .next (s.withFault .phaseError (encode i)) := by
    rw [exec_eq]; unfold issueThen; rw [ha.1, ha.2, hc]; rfl
  obtain rfl := Host.Outcome.next.inj (he.symm.trans h)
  exact ⟨rfl, rfl, rfl⟩

/-- A request that ends without a fault has run. -/
theorem exec_ran {i : Instr} {s t : State} (ha : s.accepts) (h : exec i s = .next t) (hf : t.faulted = false) :
    t = wholeRun i (latch i (firstStatement i s) s) := by
  rcases exec_cases i s with ⟨hfaulted, -⟩ | ⟨-, hbusy, -⟩ | ⟨-, code, -, he⟩ | ⟨-, -, he⟩
  · exact absurd (ha.1.symm.trans hfaulted) nofun
  · exact absurd (ha.2.symm.trans hbusy) nofun
  · obtain rfl := Host.Outcome.next.inj (he.symm.trans h)
    cases hf
  · exact Host.Outcome.next.inj (h.symm.trans he)

/-- The rows of the OPENs: opened with OK, or failed with one of the other two outcomes. -/
theorem OpenOutcome.phase_eq {p : Params} {o : Byte} {a : Word} {tail : List Byte} {code : ResultCode} {data : Byte} {phase : Phase}
    {cs : Bool} {h : List Exchange} (hout : OpenOutcome p o a tail code data phase cs h) :
    (code = .ok ∧ phase = .opened) ∨ ((code = .cardBusyTimeout ∨ code = .commandRejected) ∧ phase = .failed) := by
  obtain ⟨hcode, -, hphase, -⟩ | ⟨hcode, -, hphase, -⟩ | ⟨hcode, -, hphase, -⟩ := hout
  · exact .inr ⟨.inl hcode, hphase⟩
  · exact .inr ⟨.inr hcode, hphase⟩
  · exact .inl ⟨hcode, hphase⟩

/-- An OPEN that does not fault ends in the phase of its outcome. -/
theorem open_phase {i : Instr} (hi : i = .openWrite ∨ i = .openRead) {s t : State} (ha : s.accepts) (h : exec i s = .next t)
    (hf : t.faulted = false) :
    (t.resultCode = .ok ∧ t.phase = .opened) ∨
      ((t.resultCode = .cardBusyTimeout ∨ t.resultCode = .commandRejected) ∧ t.phase = .failed) := by
  obtain rfl := exec_ran ha h hf
  rcases hi with rfl | rfl
  · obtain ⟨code, data, phase, cs, l, hrun, hout, -⟩ := wholeRun_openWrite (firstStatement .openWrite s) s
    rw [hrun]; exact hout.phase_eq
  · obtain ⟨code, data, phase, cs, l, hrun, hout, -⟩ := wholeRun_openRead (firstStatement .openRead s) s
    rw [hrun]; exact hout.phase_eq

/-- The rows of CLOSE_WRITE: closed with OK, or with CardBusyTimeout after an accepted token, or failed with WriteRejected. -/
theorem closeWrite_phase {s t : State} (ha : s.accepts) (hphase : s.phase = .transferring) (hdir : s.sdir = .write)
    (h : exec .closeWrite s = .next t) :
    (t.resultCode = .ok ∧ t.phase = .closed) ∨ (t.resultCode = .cardBusyTimeout ∧ t.dataAccepted = true ∧ t.phase = .closed) ∨
      (t.resultCode = .writeRejected ∧ t.phase = .failed) := by
  obtain ⟨five, x, polls, ok, -, -, -, hout⟩ := closeWriteCompletes s ha hphase hdir
  split at hout
  · obtain ⟨-, hrun⟩ := hout
    obtain rfl := Host.Outcome.next.inj (hrun.symm.trans h)
    cases ok
    · exact .inr (.inl ⟨rfl, rfl, rfl⟩)
    · exact .inl ⟨rfl, rfl⟩
  · obtain ⟨-, hrun⟩ := hout
    obtain rfl := Host.Outcome.next.inj (hrun.symm.trans h)
    exact .inr (.inr ⟨rfl, rfl⟩)

/-- Outside the session operations no operation moves the phase, on any path. -/
theorem exec_phase_eq {i : Instr} (hi : isSession i = false) {s t : State} (h : exec i s = .next t) : t.phase = s.phase := by
  have hdma : ∀ ch, (i = .dmaConfigure ch ∨ (i = .dmaConfigureFill ∧ ch = .tx) ∨ i = .dmaEnable ch ∨ i = .dmaIsComplete ch ∨
      i = .dmaDisable ch) → t.phase = s.phase := by
    intro ch hch
    obtain ⟨⟨-, hphase, -⟩, -⟩ := dmaFrame i s t ch hch h
    exact hphase
  cases i with
  | nop | select | deselect | writeByte _ | readByte | sendCommand _ | waitNotBusy =>
    obtain ⟨-, ⟨hphase, -⟩, -⟩ := transportFrame _ s t (by simp [isTransport]) h
    exact hphase
  | dmaConfigure ch | dmaEnable ch | dmaIsComplete ch | dmaDisable ch => exact hdma ch (by simp)
  | dmaConfigureFill => exact hdma .tx (by simp)
  | _ => cases hi

/-- Settles O37: the checks of R181 forbid each operation outside its phase, and its run ends in the phase of its outcome. -/
theorem phaseTransitions : Obligations.PhaseTransitions := by
  intro s t ha
  refine ⟨fun h => ⟨fun hopen => ?_, fun _ hf => ?_⟩, fun h => ⟨fun hphase => ?_, fun _ hf => ?_⟩,
    fun h => ⟨fun hphase => ?_, fun hphase hdir => ?_⟩, fun h => ⟨fun hphase => ?_, fun hphase hdir => ?_⟩, ?_⟩
  · have hcheck : openCheck s = some .phaseError := by simp [openCheck, firstFault, hopen]
    exact h.elim (exec_phaseError ha hcheck) (exec_phaseError ha hcheck)
  · exact h.elim (fun h => open_phase (.inl rfl) ha h hf) (fun h => open_phase (.inr rfl) ha h hf)
  · exact exec_phaseError ha (by simp [issueCheck, checkTransfer, firstFault, hphase]) h
  · obtain rfl := exec_ran ha h hf
    have heff := wholeRun_transfer_effect (firstStatement .transfer s) s
    exact ⟨heff.phase, heff.finished⟩
  · have hcheck : issueCheck .closeWrite s = some .phaseError := by
      rcases hphase with hne | hne <;> simp [issueCheck, checkCloseWrite, firstFault, hne]
    exact exec_phaseError ha hcheck h
  · exact closeWrite_phase ha hphase hdir h
  · have hcheck : issueCheck .closeRead s = some .phaseError := by
      rcases hphase with hne | hne <;> simp [issueCheck, checkCloseRead, firstFault, hne]
    exact exec_phaseError ha hcheck h
  · obtain ⟨l, hrun, -⟩ := closeReadCompletes s ha hphase hdir
    obtain rfl := Host.Outcome.next.inj (hrun.symm.trans h)
    exact ⟨rfl, rfl⟩
  · intro i h1 h2 h3 h4 h5 h
    exact exec_phase_eq (by cases i <;> simp_all [isSession]) h

end Sys2Proof.Machine
end

section
/-! SUPPORT. The proofs for spec/60_exceptions.md: which fault a request takes (R222, R224, R226), that the faulted state ignores requests and
takes no step (R227), and which steps leave the fault record alone (R225, R229). -/

namespace Sys2Proof.Machine

/-! ### Requests (R222, R224, R227) -/

theorem rejectWord_faulted (w : Word) {s : State} (hf : s.faulted = true) : rejectWord w s = s := if_pos hf

theorem rejectWord_withFault (w : Word) {s : State} (hf : s.faulted = false) :
    rejectWord w s = s.withFault (if s.busy then .requestWhileBusy else .illegalRequest) w := by
  unfold rejectWord
  rw [if_neg (by simp [hf])]
  split <;> rfl

theorem step_illegalRequest {s : State} {w : Word} {rest : List Move} {r : Reject} (ha : s.agenda = .request w :: rest)
    (hw : decode w = .error r) : step s = .next (rejectWord w { s with agenda := rest }) := by
  simp only [step, ha, hw]

/-- The issue step and the fault table agree: the request faults with the table's code. -/
theorem exec_withFault {i : Instr} {s : State} {code : FaultCode} (hf : s.faulted = false) (hcode : faultOf i s = some code) :
    exec i s = .next (s.withFault code (encode i)) := by
  rcases exec_cases i s with ⟨hfaulted, -⟩ | ⟨-, hbusy, he⟩ | ⟨ha, code', hc, he⟩ | ⟨ha, hc, -⟩
  · exact absurd (hf.symm.trans hfaulted) nofun
  · rw [faultOf_busy i s hbusy] at hcode
    cases hcode
    exact he
  · rw [issueCheck_eq_faultOf i s ha.2, hcode] at hc
    cases hc
    exact he
  · rw [issueCheck_eq_faultOf i s ha.2, hcode] at hc
    cases hc

/-- With no cause of the fault table the request is accepted, since a busy SBT has one. -/
theorem accepts_of_faultOf_none {i : Instr} {s : State} (hf : s.faulted = false) (hnone : faultOf i s = none) : s.accepts := by
  refine ⟨hf, Bool.eq_false_iff.mpr fun hbusy => ?_⟩
  rw [faultOf_busy i s hbusy] at hnone
  cases hnone

/-- Settles O8: a request with a cause of the fault table takes that fault, and one with none runs, which leaves the fault record alone. -/
theorem requestFaultsInOrder : Obligations.RequestFaultsInOrder := by
  refine ⟨fun i s hf => ?_, fun s w rest r ha hw hf => ?_⟩
  · cases hcode : faultOf i s with
    | some code => exact exec_withFault hf hcode
    | none =>
      have ha := accepts_of_faultOf_none hf hcode
      have hsame := wholeRun_outside i ha
      exact ⟨_, exec_accepted ha ((issueCheck_eq_faultOf i s ha.2).trans hcode), hsame.faulted.trans hf, hsame.fcode, hsame.faultCmd⟩
  · exact (step_illegalRequest ha hw).trans (congrArg Host.Outcome.next (rejectWord_withFault w hf))

theorem exec_faulted (i : Instr) {s : State} (hf : s.faulted = true) : exec i s = .next s := by
  rw [exec_eq]
  exact congrArg Host.Outcome.next (if_pos hf)

theorem issueWord_faulted (w : Word) {s : State} (hf : s.faulted = true) : issueWord w s = s := by
  unfold issueWord
  split
  · exact rejectWord_faulted w hf
  · exact if_pos hf

theorem step_request_faulted {s : State} {w : Word} {rest : List Move} (hf : s.faulted = true) (ha : s.agenda = .request w :: rest) :
    step s = .next { s with agenda := rest } := by
  cases hw : decode w with
  | ok i => exact (step_request ha hw).trans (exec_faulted i hf)
  | error r => exact (step_illegalRequest ha hw).trans (congrArg Host.Outcome.next (rejectWord_faulted w hf))

/-- Settles O9: no path of a request does anything when faulted, and the writes of ARG0 and ARG1 are the window's own. -/
theorem faultedIgnoresRequests : Obligations.FaultedIgnoresRequests := fun s hf =>
  ⟨fun i => exec_faulted i hf, fun _ _ => step_request_faulted hf,
    fun w rest => windowWrites s 0x04 w rest rfl (by omega) (by omega),
    fun w rest => windowWrites s 0x08 w rest rfl (by omega) (by omega)⟩

/-! ### The faulted state takes no step (R227) -/

theorem sequencerStep_faulted {s : State} (hf : s.faulted = true) : sequencerStep? s = none := if_pos hf

theorem dmaStep_faulted {s : State} (hf : s.faulted = true) : dmaStep? s = none := by
  simp [dmaStep?, dmaEnabled, hf]

/-- Settles O48: neither the sequencer nor the DMA engine has a step when faulted, so each turn passes. -/
theorem faultedIsQuiescent : Obligations.FaultedIsQuiescent := by
  intro s rest hf
  refine ⟨?_, fun ha => ?_⟩
  · rintro (ha | ha | ha) <;> simp only [step, ha, atomicStep]
    · rw [sequencerStep_faulted (s := { s with agenda := rest }) hf]; rfl
    · rw [dmaStep_faulted (s := { s with agenda := rest }) hf]; rfl
    · rw [ownStep_faulted (s := { s with agenda := rest }) hf]
  · simp only [step, ha, ownStep_faulted hf]

/-! ### Steps that leave the fault record (R225, R229) -/

/-- FAULTED, FCODE and FAULT_CMD are the same in both states (10_state.md R35 to R37). -/
structure SameFault (s t : State) : Prop where
  faulted  : t.faulted = s.faulted
  fcode    : t.fcode = s.fcode
  faultCmd : t.faultCmd = s.faultCmd

theorem SameFault.refl (s : State) : SameFault s s := ⟨rfl, rfl, rfl⟩

theorem SameOutside.sameFault {s t : State} (h : SameOutside s t) : SameFault s t := ⟨h.faulted, h.fcode, h.faultCmd⟩

/-- Offset 0 of the window is a 32-bit access at SBT_BASE. -/
theorem windowOffset_eq_zero {p : Params} {width : Nat} {addr : Word} (h : windowOffset p width addr = some 0) :
    width = 32 ∧ addr = p.sbtBase := by
  obtain ⟨⟨hwidth, -, -⟩, hoff⟩ := Option.ite_none_right_eq_some.mp h
  have hdiff : addr - p.sbtBase = 0 := BitVec.eq_of_toNat_eq (Option.some.inj hoff)
  exact ⟨hwidth, sub_eq_zero.mp hdiff⟩

/-- A write at any offset but CMD's stores ARG0, ARG1 or nothing. -/
theorem windowStore_sameFault {off : Nat} (h0 : off ≠ 0) (v : Word) (s : State) : SameFault s (windowStore off v s) := by
  rw [windowStore_eq h0]
  split
  · exact ⟨rfl, rfl, rfl⟩
  · split <;> exact ⟨rfl, rfl, rfl⟩

/-- No agent's atomic step but a CMD write and reset touches the fault record. -/
theorem atomicStep_sameFault {a : Atomic} {s t : State} (hcmd : ∀ w, a ≠ .windowWrite 32 s.params.sbtBase w) (hreset : a ≠ .reset)
    (h : atomicStep a s = .next t) : SameFault s t := by
  cases a with
  | windowWrite width addr v =>
    simp only [atomicStep] at h
    split at h <;> cases h
    next off hoff =>
    refine windowStore_sameFault ?_ v s
    rintro rfl
    obtain ⟨rfl, rfl⟩ := windowOffset_eq_zero hoff
    exact hcmd v rfl
  | windowRead _ _ | memoryStore _ _ | memoryLoad _ =>
    simp only [atomicStep] at h
    split at h <;> cases h
    exact ⟨rfl, rfl, rfl⟩
  | sequencer =>
    cases h
    cases hseq : sequencerStep? s with
    | none => exact .refl s
    | some u => exact (sequencerStep_quiet hseq).1.sameFault
  | dma =>
    cases h
    unfold dmaStep?
    split
    · exact (dmaMove_outside s).sameFault
    · exact .refl s
  | own => cases h; exact (ownStep_outside s).sameFault
  | reset => exact absurd rfl hreset
  | otherAgent => cases h

/-- Settles O49: own steps, POLL and every atomic step but a CMD write and reset leave the fault record. -/
theorem onlyCmdWritesFault : Obligations.OnlyCmdWritesFault := by
  intro s t h hrequest hcmd hreset
  suffices hsame : SameFault s t from ⟨hsame.faulted, hsame.fcode, hsame.faultCmd⟩
  unfold step at h
  split at h
  · cases h; exact (ownStep_outside s).sameFault
  · next w rest ha => exact absurd ha (hrequest w rest)
  · next a rest ha =>
    have hsame : SameFault { s with agenda := rest } t :=
      atomicStep_sameFault (fun w hw => hcmd w rest (hw ▸ ha)) (fun hr => hreset rest (hr ▸ ha)) h
    exact ⟨hsame.faulted, hsame.fcode, hsame.faultCmd⟩
  · cases h; exact ⟨rfl, rfl, rfl⟩

/-- Settles O47: requests and CMD writes are ignored when faulted, and no other step but reset touches the fault record. -/
theorem onlyResetClearsFault : Obligations.OnlyResetClearsFault := by
  intro s t hf hreset h
  by_cases hrequest : ∃ w rest, s.agenda = .request w :: rest
  · obtain ⟨w, rest, ha⟩ := hrequest
    obtain rfl := Host.Outcome.next.inj ((step_request_faulted hf ha).symm.trans h)
    exact ⟨hf, rfl, rfl⟩
  by_cases hcmd : ∃ w rest, s.agenda = .atomic (.windowWrite 32 s.params.sbtBase w) :: rest
  · obtain ⟨w, rest, ha⟩ := hcmd
    rw [step_cmdWrite ha, issueWord_faulted w (s := { s with agenda := rest }) hf] at h
    cases h
    exact ⟨hf, rfl, rfl⟩
  obtain ⟨hfaulted, hfcode, hfaultCmd⟩ :=
    onlyCmdWritesFault s t h (fun w rest ha => hrequest ⟨w, rest, ha⟩) (fun w rest ha => hcmd ⟨w, rest, ha⟩) hreset
  exact ⟨hfaulted.trans hf, hfcode, hfaultCmd⟩

end Sys2Proof.Machine
end

section
/-! SUPPORT. The proofs for spec/70_reset_and_hazards.md: a TRANSFER that holds at a byte no memory backs (R276; 42_session.md R183), and
reset (R260). -/

namespace Sys2Proof.Machine

/-! ### TRANSFER holds on an unbacked buffer (R276, R183) -/

/-- With an empty schedule a state without an own step stays as it is. -/
theorem core_run_still {s : State} (hag : s.agenda = []) (hstill : ownStep s = s) (n : Nat) : core.run n s = .next s := by
  induction n with
  | zero => rfl
  | succ n ih => exact (core_run_succ n (by simp only [step, hag, hstill])).trans ih

/-- A request that leaves BUSY = 1 holds: no further step of the SBT's own changes the state. -/
theorem core_run_holding {i : Instr} {s t : State} (h : exec i s = .next t) (hb : t.busy = true) (n : Nat) :
    core.run n { t with agenda := [] } = .next { t with agenda := [] } := by
  obtain ⟨u, hu, hholds, -⟩ := core_run_issued i s
  obtain rfl := Host.Outcome.next.inj (hu.symm.trans h)
  exact core_run_still rfl ((ownStep_hosted u [] u.hostData).trans (congrArg (State.hosted · [] _) (hholds hb))) n

/-- A channel of 512 bytes has `512 - k` left after `k` of them. -/
theorem Channel.rem_after_512 {c : Channel} {k : Nat} (hrem : c.rem = 512) (hk : k < 512) : (c.after k).rem.toNat = 512 - k := by
  have hrem : c.rem.toNat = 512 := congrArg BitVec.toNat hrem
  rw [Channel.after_rem, Channel.rem_after_toNat c (by omega), hrem]

/-- The write path at a byte no memory backs: the bytes before it go out, and the await ends in vain. -/
theorem transferWrite_unbacked {s : State} {k : Nat} (hf : s.faulted = false) (hrx : s.rx.en = false) (hk : k < 512)
    (hadm : ∀ j < k, admits s.params (s.larg0 + BitVec.ofNat 32 j) = true)
    (hunbacked : admits s.params (s.larg0 + BitVec.ofNat 32 k) = false) :
    ∃ h, transferWrite s =
        { { sendStart s with tx := (sendStart s).tx.after k }.exchanged h with pos := .body 4, locals.p := s.larg0 } ∧
      wireOut h = (List.range k).map (fun j => (s.cs, s.mem.read (s.larg0 + BitVec.ofNat 32 j).toNat)) ∧ answersScripted s h ∧
      ((sendStart s).tx.after k).done = false := by
  obtain ⟨h, hawait, hwire, hscript, hdone, -⟩ := (sendStart_spec hf hrx).await_unbacked hk hadm hunbacked
  refine ⟨h, ?_, hwire, answersScripted_congr rfl hscript, hdone⟩
  rw [transferWrite_eq hawait]
  exact if_neg fun hend => Bool.false_ne_true (hdone.symm.trans hend)

/-- The read path at a byte no memory backs: the answers before it are stored, and the await ends in vain. -/
theorem transferRead_unbacked {s : State} {k : Nat} (hf : s.faulted = false) (hfill : s.txFill = true) (hrx : s.rx.count = 512)
    (htx : s.tx.count = 512) (hwf : s.mem.wf = true) (hk : k < 512)
    (hadm : ∀ j < k, admits s.params (s.rx.ptr + BitVec.ofNat 32 j) = true)
    (hunbacked : admits s.params (s.rx.ptr + BitVec.ofNat 32 k) = false) :
    ∃ h m, transferRead s =
        { { receiveStart s with tx := (receiveStart s).tx.after k, rx := (receiveStart s).rx.after k, mem := m }.exchanged h with
          pos := .readPath 3 } ∧
      wireOut h = List.replicate k (s.cs, 0xFF) ∧ answersScripted s h ∧
      (∀ j < k, h[j]?.map Exchange.inp = some (m.read (s.rx.ptr + BitVec.ofNat 32 j).toNat)) ∧
      (∀ a, (∀ j < k, a ≠ (s.rx.ptr + BitVec.ofNat 32 j).toNat) → m.read a = s.mem.read a) ∧
      ((receiveStart s).rx.after k).done = false := by
  have hcount : (receiveStart s).rx.count.toNat = 512 := congrArg BitVec.toNat hrx
  obtain ⟨h, m, hawait, hwire, hscript, hstored, hframe, hdone, -⟩ :=
    (receiveStart_spec hf hfill hrx htx hwf).await_unbacked (hcount.symm ▸ hk) hadm hunbacked
  refine ⟨h, m, ?_, hwire, answersScripted_congr rfl hscript, hstored, hframe, hdone⟩
  rw [transferRead_eq hawait]
  exact if_neg fun hend => Bool.false_ne_true (hdone.symm.trans hend)

/-- Settles O32: in either direction the await stops before byte `k`, and the state at the await has no own step. -/
theorem transferHoldsOnUnbackedBuffer : Obligations.TransferHoldsOnUnbackedBuffer := by
  intro s k ha hphase hk
  constructor
  · intro hdir hrx hadm hunbacked
    obtain ⟨h, hrun, hwire, hscript, hdone⟩ :=
      transferWrite_unbacked (s := latch .transfer (transferFirst s) s) ha.1 hrx hk hadm hunbacked
    have ht := exec_transfer ha hphase (by rw [hdir]; nofun)
    rw [runTransfer_write (s := latch _ _ s) hdir, hrun] at ht
    exact ⟨_, h, ht, rfl, rfl, rfl, rfl, hdone, Channel.rem_after_512 rfl hk, rfl, rfl, answersScripted_congr rfl hscript, hwire,
      core_run_holding ht rfl⟩
  · intro hdir hbuf hrx htx hfill hwf hadm hunbacked
    obtain ⟨h, m, hrun, hwire, hscript, hstored, hframe, hdone⟩ :=
      transferRead_unbacked (s := latch .transfer (transferFirst s) s) ha.1 hfill hrx htx hwf hk hadm hunbacked
    have ht := exec_transfer ha hphase fun _ => hbuf
    rw [runTransfer_read (s := latch _ _ s) hdir, hrun] at ht
    have htxDone : ((receiveStart (latch .transfer (transferFirst s) s)).tx.after k).done = false :=
      Channel.after_not_done (by simp [receiveStart, htx]) (by simp [receiveStart, htx, hk])
    exact ⟨_, h, ht, rfl, rfl, rfl, rfl, htxDone, Channel.rem_after_512 htx hk, rfl, hdone, Channel.rem_after_512 hrx hk, rfl,
      answersScripted_congr rfl hscript, hwire, hstored, hframe, core_run_holding ht rfl⟩

/-- A read session with its buffer at address 0, of which only the first byte is admitted. -/
def readOneByteBacked : State :=
  { State.reset with
    params := { Config.params with admitted := [{ first := 0, last := 0 }] }
    phase := .opened, sdir := .read, cs := true, txFill := true
    tx := { Channel.reset with count := 512, rem := 512, loaded := true, cfg := true }
    rx := { Channel.reset with count := 512, rem := 512, loaded := true, cfg := true } }

/-- One state with all that the read clause asks, and how its TRANSFER holds: after one byte, both channels wait with the other 511. -/
theorem readOneByteBacked_holds :
    ∃ t, exec .transfer readOneByteBacked = .next t ∧ t.busy = true ∧ t.tx.rem.toNat = 511 ∧ t.rx.rem.toNat = 511 := by
  have hadm : ∀ j < 1, admits readOneByteBacked.params (readOneByteBacked.rx.ptr + BitVec.ofNat 32 j) = true := by
    intro j hj
    obtain rfl : j = 0 := by omega
    rfl
  obtain ⟨t, -, ht, hb, -, -, -, -, htx, -, -, hrx, -⟩ :=
    (transferHoldsOnUnbackedBuffer readOneByteBacked 1 ⟨rfl, rfl⟩ rfl (by decide)).2 rfl rfl rfl rfl rfl rfl hadm rfl
  exact ⟨t, ht, hb, htx, hrx⟩

/-! ### Reset (R260, R262, R264) -/

/-- Settles O45: each field reads off the reset state, and each register is put together from fields that are 0. -/
theorem resetValues : Obligations.ResetValues :=
  ⟨rfl, rfl, rfl, rfl, rfl, rfl, rfl, rfl, rfl, rfl, rfl, rfl, rfl, rfl, rfl, rfl⟩

/-- The reset move is taken off the schedule and resets the SBT. -/
theorem step_reset {s : State} {rest : List Move} (hag : s.agenda = .atomic .reset :: rest) :
    step s = .next (resetSbt { s with agenda := rest }) := by
  simp only [step, hag, atomicStep]

/-- Settles O46: reset reads no field of the SBT, so the state it comes from does not matter. -/
theorem resetMoveRestoresReset : Obligations.ResetMoveRestoresReset := fun _ _ hag => step_reset hag

/-- Settles O59: reset leads to states that meet the invariants, and of the reset state it leads to that state itself. -/
theorem resetMeetsInvariants : Obligations.ResetMeetsInvariants :=
  ⟨rfl, ControlInv.resetSbt State.reset, ⟨Channel.reset_ok, Channel.reset_ok⟩, SessionInv.resetSbt State.reset⟩

end Sys2Proof.Machine
end
